-- ==== Sys2Proof/Word.lean ====
section
/-! DEFINITION. The words of the engine: a 32-bit bus word, a byte, a bus address and a transaction word
(00_scope.md R8, R10; 30_encoding.md R83). -/

namespace Sys2Proof

/-- A 32-bit register, buffer word or port datum (R8, `BUS_W`). -/
abbrev Word := BitVec 32

/-- A byte of a byte buffer. -/
abbrev Byte := BitVec 8

/-- A byte address of the bus port (R8, `ADDR_W` = 25). -/
abbrev Addr := BitVec 25

/-- A 64-bit transaction word `T` (R83). -/
abbrev Transaction := BitVec 64

end Sys2Proof
end

