-- ==== Sys2Proof/Machine/Bits.lean ====
section
/-! DEFINITION. Byte order and bit order: words as little-endian bus bytes (20_memory.md R55), as big-endian header
bytes (30_encoding.md R81), and numbers as bits, most significant first (41_symbol_codec.md R95). -/

namespace Sys2Proof.Machine

/-- The `n` low bytes of a word, byte `k` from bits `8k+7:8k` (R55). -/
def leBytes (n : Nat) (w : Word) : List Byte := (List.range n).map fun k => w.extractLsb' (8 * k) 8

/-- The word of at most four bytes, byte `k` in bits `8k+7:8k`, zero-extended (R55, R140). -/
def wordOfLE (bytes : List Byte) : Word := bytes.foldr (fun b w => (w <<< 8) ||| b.setWidth 32) 0#32

/-- The four bytes of a header field, most significant first (R81). -/
def beBytes (w : Word) : List Byte :=
  [w.extractLsb' 24 8, w.extractLsb' 16 8, w.extractLsb' 8 8, w.extractLsb' 0 8]

/-- The header field of four bytes, most significant first (R81). -/
def wordOfBE (b0 b1 b2 b3 : Byte) : Word := b0 ++ b1 ++ b2 ++ b3

/-- The `n` low bits of a number, most significant first. -/
def bitsOf (n v : Nat) : List Bool := (List.range n).map fun i => v.testBit (n - 1 - i)

/-- The number of a list of bits, most significant first. -/
def valueOf (bits : List Bool) : Nat := bits.foldl (fun v b => 2 * v + b.toNat) 0

/-- `bits(D)`: the bits of a byte sequence, each byte most significant bit first (R95). -/
def bitsOfBytes (bytes : List Byte) : List Bool := bytes.flatMap fun b => bitsOf 8 b.toNat

/-- `ceil(n / d)`. -/
def ceilDiv (n d : Nat) : Nat := (n + d - 1) / d

end Sys2Proof.Machine
end

