-- ==== Sys2Proof/Config.lean ====
section
/-! DEFINITION. What the spec fixes once for the engine: the implementation parameters of 00_scope.md R8, the
protocol constants of R9, and the values it leaves open, as constants with no body. -/

namespace Sys2Proof.Config

/-! ### Implementation parameters (R8) -/

/-- `CH_MAX`: sample channels, phase accumulators and hold registers. -/
abbrev chMax : Nat := 8
/-- `SB_MAX_TX`: the largest Direct symbolBits of a TX command. -/
abbrev sbMaxTx : Nat := 16
/-- `SLOT_W`: the width of a slot code. -/
abbrev slotWidth : Nat := 32
/-- `SB_MAX_RX`: the largest Direct symbolBits of a received header. -/
abbrev sbMaxRx : Nat := 4
/-- `TXB`: bytes of `TX_BUF`. -/
abbrev txBytes : Nat := 4096
/-- `UNPB`: bytes of `UNP_BUF`. -/
abbrev unpBytes : Nat := 4096
/-- `RXB`: bytes of `RX_BUF`. -/
abbrev rxBytes : Nat := 4096
/-- `HDRB`: bytes of the header record. -/
abbrev hdrBytes : Nat := 20
/-- `SYMW`: words of `SYM_BUF`. -/
abbrev symWords : Nat := 262144
/-- `SAMPW`: words of each `SAMP_BUF[c]`. -/
abbrev sampWords : Nat := 262144
/-- `PAT_LEN`: symbols of the Preamble and Postamble pattern. -/
abbrev patLen : Nat := 6

/-! ### Protocol constants (R9, R80) -/

/-- `BASE_B`: 14000 Hz as a binary32 pattern. -/
abbrev baseB : Word := 0x465AC000#32
/-- `BASE_S`: 500 Hz as a binary32 pattern. -/
abbrev baseS : Word := 0x43FA0000#32
/-- `PAT`: the pattern's frequencies in Hz. -/
abbrev patternHz : Vector Nat 6 := #v[14000, 15000, 14500, 15000, 14000, 15000]
/-- `PB`: the pattern as bins of the base grid (R80). -/
abbrev patternBase : Vector (Fin 32) 6 := #v[0, 2, 1, 2, 0, 2]
/-- The identity value of the register `ID` (10_state.md R19). -/
abbrev identity : Word := 0x46534B01#32

/-! ### Values the spec leaves open

None has a body: nothing can evaluate one, so what is proved holds for every choice. -/

/-- The open parameter `SINE` (42_synthesizer.md R108), before the range that R108 asks for is imposed by
`Sys2Proof.Machine.sine`. Log entry 7. -/
opaque sineRaw : Word → Word

/-- The value of one buffer byte that the spec leaves unspecified (20_memory.md R67, 70_reset_and_hazards.md R160):
the number of the draw, then the byte's bus address. Log entries 3 and 5. -/
opaque unspecifiedByte : Nat → Nat → Byte

/-- The value of one byte of `st.hbytes` after a reset that leaves it unspecified (10_state.md R51): the number of
the draw, then the byte's index. Log entry 6. -/
opaque unspecifiedHeaderByte : Nat → Nat → Byte

end Sys2Proof.Config
end

