-- ==== Sys2Proof/Syntax.lean ====
section
/-! DEFINITION. The instructions of the engine: one constructor for each row of spec/opcode_table.json, in the
table's order (30_encoding.md R85, R86, R87). Every bit that a row's mask leaves free is an operand, the ignored ones
too, so that no bit of a transaction word is lost (R88 says which operands have a meaning). -/

namespace Sys2Proof

/-- The operations a bus transaction can select. -/
inductive Instr
  /-- Command word 0x00 (45_control.md R137). -/
  | nop
  /-- Command word 0x01 (40_header_codec.md R92). -/
  | serializeHeader
  /-- Command word 0x02 (40_header_codec.md R93). -/
  | parseHeader
  /-- Command word 0x03 (41_symbol_codec.md R101). -/
  | pack
  /-- Command word 0x04 (41_symbol_codec.md R102). -/
  | unpack
  /-- Command word 0x05 (42_synthesizer.md R116). -/
  | synth
  /-- Command word 0x06 (43_frame_assembler.md R120). -/
  | buildFrame
  /-- Any other command word (45_control.md R136). -/
  | illegalCmd (word : Word)
  /-- A write of a slot code to `RX_SLOT` (44_receiver.md R121). -/
  | rxPushSlot (code : Word)
  /-- A write to `CTRL` with `DATA[0]` = 1 (45_control.md R138); bits 31:1 are ignored. -/
  | softReset (ignored : BitVec 31)
  /-- A write to `CTRL` with `DATA[1:0]` = 0b10 (44_receiver.md R129); bits 31:2 are ignored. -/
  | rxReset (ignored : BitVec 30)
  /-- A write to `IRQ_STATUS` (45_control.md R139); bits 31:4 are ignored. -/
  | irqAck (ignored : BitVec 28) (clear : BitVec 4)
  /-- An 8-bit write to any other address (45_control.md R141). -/
  | busWrite8 (addr : Addr) (data : Word)
  /-- A 16-bit write to any other address (R141). -/
  | busWrite16 (addr : Addr) (data : Word)
  /-- A 32-bit write to any other address (R141). -/
  | busWrite32 (addr : Addr) (data : Word)
  /-- An 8-bit read (45_control.md R140). -/
  | busRead8 (addr : Addr) (data : Word)
  /-- A 16-bit read (R140). -/
  | busRead16 (addr : Addr) (data : Word)
  /-- A 32-bit read (R140). -/
  | busRead32 (addr : Addr) (data : Word)
  deriving DecidableEq, Repr

end Sys2Proof
end

