-- ==== Sys2Proof/WellFormed.lean ====
section
/-! DEFINITION. Which terms of `Instr` stand for a transaction word: the first-match order of the opcode table
(30_encoding.md R86, R87) takes some words away from the later rows. -/

namespace Sys2Proof

/-- The command words of the table of R85. -/
def isCommandWord (w : Word) : Bool := w.toNat ≤ 6

/-- A 32-bit write of `data` at `addr` that an earlier row than `BUS_WRITE32` selects (R86). -/
def selectsOperation (addr : Addr) (data : Word) : Bool :=
  addr == 0x034#25 || addr == 0x080#25 || addr == 0x008#25
    || (addr == 0x004#25 && (data.getLsbD 0 || data.getLsbD 1))

/-- The term is what the decoder reads from some transaction word. -/
def Instr.wellFormed : Instr → Bool
  | .nop => true
  | .serializeHeader => true
  | .parseHeader => true
  | .pack => true
  | .unpack => true
  | .synth => true
  | .buildFrame => true
  | .illegalCmd word => !isCommandWord word
  | .rxPushSlot _ => true
  | .softReset _ => true
  | .rxReset _ => true
  | .irqAck _ _ => true
  | .busWrite8 _ _ => true
  | .busWrite16 _ _ => true
  | .busWrite32 addr data => !selectsOperation addr data
  | .busRead8 _ _ => true
  | .busRead16 _ _ => true
  | .busRead32 _ _ => true

/-- `Instr.wellFormed` as a proposition. -/
abbrev Instr.WellFormed (i : Instr) : Prop := i.wellFormed = true

end Sys2Proof
end

