-- ==== Sys2Proof/Decode.lean ====
section
/-! DEFINITION. Decoding a transaction word by the opcode table, first matching row (30_encoding.md R83, R87), and
the encoder written from the same table. -/

namespace Sys2Proof

/-! ### The fields of a transaction word (R83) -/

/-- `ADDR`, bits 56:32. -/
def addrField (t : Transaction) : Addr := t.extractLsb' 32 25

/-- `DATA`, bits 31:0. -/
def dataField (t : Transaction) : Word := t.extractLsb' 0 32

/-- `SIZE`, bits 58:57. -/
def sizeField (t : Transaction) : BitVec 2 := t.extractLsb' 57 2

/-- Bits 63:60, which must be 0. -/
def spareField (t : Transaction) : BitVec 4 := t.extractLsb' 60 4

/-- The transaction word of a request: `WRITE`, `SIZE`, `ADDR`, `DATA`. -/
def transaction (write : Bool) (size : BitVec 2) (addr : Addr) (data : Word) : Transaction :=
  0#4 ++ BitVec.ofBool write ++ size ++ addr ++ data

/-! ### The opcode table -/

/-- One row of spec/opcode_table.json. -/
structure Row where
  /-- The row's `match`. -/
  pattern : Transaction
  /-- The row's `mask`. -/
  mask : Transaction
  /-- The instruction, its operands read from the word. -/
  read : Transaction → Instr

/-- `(T AND mask) = match` (R87). -/
def Row.fits (r : Row) (t : Transaction) : Bool := t &&& r.mask == r.pattern

/-- The seven commands (R85). -/
def commandRows : List Row :=
  [⟨0x0C00003400000000#64, 0xFFFFFFFFFFFFFFFF#64, fun _ => .nop⟩,
   ⟨0x0C00003400000001#64, 0xFFFFFFFFFFFFFFFF#64, fun _ => .serializeHeader⟩,
   ⟨0x0C00003400000002#64, 0xFFFFFFFFFFFFFFFF#64, fun _ => .parseHeader⟩,
   ⟨0x0C00003400000003#64, 0xFFFFFFFFFFFFFFFF#64, fun _ => .pack⟩,
   ⟨0x0C00003400000004#64, 0xFFFFFFFFFFFFFFFF#64, fun _ => .unpack⟩,
   ⟨0x0C00003400000005#64, 0xFFFFFFFFFFFFFFFF#64, fun _ => .synth⟩,
   ⟨0x0C00003400000006#64, 0xFFFFFFFFFFFFFFFF#64, fun _ => .buildFrame⟩]

/-- Every other write to `TX_CMD`, and the register operations (R86). -/
def operationRows : List Row :=
  [⟨0x0C00003400000000#64, 0xFFFFFFFF00000000#64, fun t => .illegalCmd (dataField t)⟩,
   ⟨0x0C00008000000000#64, 0xFFFFFFFF00000000#64, fun t => .rxPushSlot (dataField t)⟩,
   ⟨0x0C00000400000001#64, 0xFFFFFFFF00000001#64, fun t => .softReset (t.extractLsb' 1 31)⟩,
   ⟨0x0C00000400000002#64, 0xFFFFFFFF00000003#64, fun t => .rxReset (t.extractLsb' 2 30)⟩,
   ⟨0x0C00000800000000#64, 0xFFFFFFFF00000000#64, fun t => .irqAck (t.extractLsb' 4 28) (t.extractLsb' 0 4)⟩]

/-- The catch-all rows, one for each direction and `SIZE` 0 to 2. -/
def busRows : List Row :=
  [⟨0x0800000000000000#64, 0xFE00000000000000#64, fun t => .busWrite8 (addrField t) (dataField t)⟩,
   ⟨0x0A00000000000000#64, 0xFE00000000000000#64, fun t => .busWrite16 (addrField t) (dataField t)⟩,
   ⟨0x0C00000000000000#64, 0xFE00000000000000#64, fun t => .busWrite32 (addrField t) (dataField t)⟩,
   ⟨0x0000000000000000#64, 0xFE00000000000000#64, fun t => .busRead8 (addrField t) (dataField t)⟩,
   ⟨0x0200000000000000#64, 0xFE00000000000000#64, fun t => .busRead16 (addrField t) (dataField t)⟩,
   ⟨0x0400000000000000#64, 0xFE00000000000000#64, fun t => .busRead32 (addrField t) (dataField t)⟩]

/-- spec/opcode_table.json, in file order. -/
def opcodeTable : List Row := commandRows ++ operationRows ++ busRows

/-- Why a 64-bit word is no transaction: no row matches it (R87, R89; 93_implementation_defined.md U12). -/
inductive DecodeError
  /-- Bits 63:60 are not 0. -/
  | spareBitsSet
  /-- `SIZE` = 3, which never occurs on the port. -/
  | sizeReserved
  deriving DecidableEq, Repr

/-- The first row, in file order, that fits the word (R87). -/
def decode (t : Transaction) : Except DecodeError Instr :=
  match opcodeTable.find? (fun r => r.fits t) with
  | some r => .ok (r.read t)
  | none => .error (if spareField t = 0#4 then .sizeReserved else .spareBitsSet)

/-! ### The encoder -/

/-- The transaction word of an instruction, written from the same table. -/
def encode : Instr → Transaction
  | .nop => transaction true 2#2 0x034#25 0x00000000#32
  | .serializeHeader => transaction true 2#2 0x034#25 0x00000001#32
  | .parseHeader => transaction true 2#2 0x034#25 0x00000002#32
  | .pack => transaction true 2#2 0x034#25 0x00000003#32
  | .unpack => transaction true 2#2 0x034#25 0x00000004#32
  | .synth => transaction true 2#2 0x034#25 0x00000005#32
  | .buildFrame => transaction true 2#2 0x034#25 0x00000006#32
  | .illegalCmd word => transaction true 2#2 0x034#25 word
  | .rxPushSlot code => transaction true 2#2 0x080#25 code
  | .softReset ignored => transaction true 2#2 0x004#25 (ignored ++ 1#1)
  | .rxReset ignored => transaction true 2#2 0x004#25 (ignored ++ 2#2)
  | .irqAck ignored clear => transaction true 2#2 0x008#25 (ignored ++ clear)
  | .busWrite8 addr data => transaction true 0#2 addr data
  | .busWrite16 addr data => transaction true 1#2 addr data
  | .busWrite32 addr data => transaction true 2#2 addr data
  | .busRead8 addr data => transaction false 0#2 addr data
  | .busRead16 addr data => transaction false 1#2 addr data
  | .busRead32 addr data => transaction false 2#2 addr data

/-! ### The host's view of the table -/

/-- The transaction word whose low `nbits` bits are `w`; every bit above them is 0. -/
def tableWord (nbits w : Nat) : Transaction := BitVec.ofNat 64 (w % 2 ^ nbits)

/-- What `decode` reads from an instruction numbered as spec/opcode_table.json numbers it. A transaction is one
64-bit request of the port, so there is one word and no byte order to lay out. -/
def decodeTableWord (nbits w : Nat) : Option Instr :=
  match decode (tableWord nbits w) with
  | .ok i => some i
  | .error _ => none

end Sys2Proof
end

