-- ==== Sys2Proof/Machine/State.lean ====
section
/-! DEFINITION. The state of the engine as plain data (10_state.md), the reasons a step can stop, and the state
after a power-on reset (10_state.md R51, 70_reset_and_hazards.md R159). -/

namespace Sys2Proof.Machine

/-! ### Parts shared by the two engines -/

/-- The source's TransmissionParameters, each field a raw 32-bit pattern: the first five TX parameter registers
(R23 to R27), the `PH_*` registers (R36) and the receiver's `st.neg` (R39, R49). -/
structure Params where
  /-- symbolBits, read as a signed integer. -/
  symbolBits : Word
  /-- baseFrequency, a binary32 pattern. -/
  baseFreq : Word
  /-- step, a binary32 pattern. -/
  step : Word
  /-- modulation, read as a signed integer. -/
  modulation : Word
  /-- payloadLength. -/
  payloadLen : Word
  deriving DecidableEq, Repr

/-- A grid: the binary32 patterns of its base and step (30_encoding.md R76). -/
structure Grid where
  /-- The frequency of bin 0. -/
  base : Word
  /-- The spacing of the bins. -/
  step : Word
  deriving DecidableEq, Repr

/-- The base grid (00_scope.md R9). -/
def Grid.baseGrid : Grid := ⟨Config.baseB, Config.baseS⟩

/-- The unpacker record `U` (R48). -/
structure Unpacker where
  /-- `U.sb`, the group size. -/
  sb : Nat
  /-- `U.target`, the target byte count. -/
  target : Nat
  /-- `U.prevRaw`, the previous raw symbol. -/
  prevRaw : Option Nat
  /-- `U.prevRes`, the previous resolved symbol. -/
  prevRes : Option Nat
  /-- `U.acc`, the partial byte. -/
  acc : Byte
  /-- `U.nacc`, the bits in `acc`. -/
  nacc : Nat
  /-- `U.nout`, the bytes emitted. -/
  nout : Nat
  deriving DecidableEq, Repr

/-- `fresh(sb, target)` (R48). -/
def Unpacker.fresh (sb target : Nat) : Unpacker :=
  { sb := sb, target := target, prevRaw := none, prevRes := none, acc := 0#8, nacc := 0, nout := 0 }

/-! ### The TX engine (R23 to R36, R45 to R47) -/

/-- Registers and internal state of the TX engine. `TX_STATUS.BUSY` is `pending.isSome` (R47). -/
structure TxEngine where
  /-- `TX_SYMBOL_BITS` to `TX_PAYLOAD_LEN`. -/
  params : Params
  /-- `TX_REPLICATION`. -/
  replication : Word
  /-- `TX_SAMPLE_RATE`. -/
  sampleRate : Word
  /-- `TX_SYM_COUNT`. -/
  symCount : Word
  /-- `TX_HDR_AVAIL`. -/
  hdrAvail : Word
  /-- `st.pending`: the accepted command word. -/
  pending : Option Word
  /-- `TX_STATUS.DONE`. -/
  done : Bool
  /-- `TX_STATUS.ERR`. -/
  err : Byte
  /-- `TX_STATUS.LAST_CMD`. -/
  lastCmd : Byte
  /-- `TX_OUT_LEN`. -/
  outLen : Word
  /-- `TX_OUT_CHANNELS`. -/
  outChannels : Word
  /-- `PH_SYMBOL_BITS` to `PH_PAYLOAD_LEN`. -/
  parsed : Params
  /-- `st.phase[0..7]`, `TX_PHASE<c>`. -/
  phase : Vector Word 8
  /-- `st.hold[0..7]`, `TX_HOLD<c>`. -/
  hold : Vector Word 8
  deriving DecidableEq, Repr

/-- The TX rows of the reset table (R51). -/
def TxEngine.reset : TxEngine :=
  { params := ⟨1#32, Config.baseB, Config.baseS, 0#32, 0#32⟩
    replication := 1#32, sampleRate := 44100#32, symCount := 0#32, hdrAvail := 0#32
    pending := none, done := false, err := 0#8, lastCmd := 0#8, outLen := 0#32, outChannels := 0#32
    parsed := ⟨0#32, 0#32, 0#32, 0#32, 0#32⟩
    phase := Vector.replicate 8 0#32, hold := Vector.replicate 8 0#32 }

/-! ### The RX engine (R37 to R44, R48, R49) -/

/-- `st.stage` (R38, R49). -/
inductive Stage
  | locate | header | payload | done | error
  deriving DecidableEq, Repr

/-- `st.prev`: the last slot the duplicate filter accepted, with the grid it was read on (R49). -/
structure SlotMemory where
  /-- The slot code. -/
  code : Word
  /-- The grid in force when it was written. -/
  grid : Grid
  deriving DecidableEq, Repr

/-- The receiver state (R49). -/
structure RxEngine where
  /-- `st.stage`. -/
  stage : Stage
  /-- `st.prog`, 0 to 5. -/
  prog : Fin 6
  /-- `st.prev`. -/
  prev : Option SlotMemory
  /-- `(st.gridB, st.gridS)`. -/
  grid : Grid
  /-- `st.pb[0..5]`: the pattern as bins of the current grid. -/
  pb : Vector (Option (Fin 32)) 6
  /-- `st.hu`, the header unpacker. -/
  hu : Unpacker
  /-- `st.hbytes[0..19]`. -/
  hbytes : Vector Byte 20
  /-- `st.pu`, the payload unpacker. -/
  pu : Unpacker
  /-- `st.neg`, `RX_SYMBOL_BITS` to `RX_PAYLOAD_LEN`. -/
  neg : Params
  /-- `st.err`. -/
  err : Byte
  /-- `st.outLen`, `RX_OUT_LEN`. -/
  outLen : Word
  /-- `st.slots`, `RX_SLOT_COUNT`. -/
  slots : Word
  deriving DecidableEq, Repr

/-- The RX rows of the reset table (R51) over the given header bytes, which that table leaves unspecified. -/
def RxEngine.resetOver (hbytes : Vector Byte 20) : RxEngine :=
  { stage := .locate, prog := 0, prev := none, grid := Grid.baseGrid
    pb := #v[some 0, some 2, some 1, some 2, some 0, some 2]
    hu := Unpacker.fresh 1 20, hbytes := hbytes, pu := Unpacker.fresh 1 0
    neg := ⟨0#32, 0#32, 0#32, 0#32, 0#32⟩, err := 0#8, outLen := 0#32, slots := 0#32 }

/-! ### The port, and what happens next -/

/-- The bus port's answer to an access: the error response or not, and the read data, 0 for a write and with an
error (20_memory.md R59, 45_control.md R140). -/
structure PortAnswer where
  /-- The bus error response. -/
  busError : Bool
  /-- The read data. -/
  data : Word
  deriving DecidableEq, Repr

/-- A step of the engine's total order of steps (20_memory.md R69), as the world outside and the TX engine's
own timing bring it about. Log entries 1 and 14. -/
inductive Event
  /-- A host's bus transaction. -/
  | bus (t : Transaction)
  /-- The TX engine takes the completion of its pending command (45_control.md R135). -/
  | completion
  /-- The reset line `rst` is asserted and released (70_reset_and_hazards.md R159). -/
  | powerOn
  deriving DecidableEq, Repr

/-- The buffers' bytes that have been written since power-on, by rising bus address. -/
abbrev Memory := List Host.Cell

/-- The engine. -/
structure State where
  /-- `IRQ_STATUS[3:0]` (R21). -/
  irqStatus : BitVec 4
  /-- `IRQ_ENABLE[3:0]` (R22). -/
  irqEnable : BitVec 4
  /-- The TX engine. -/
  tx : TxEngine
  /-- The RX engine. -/
  rx : RxEngine
  /-- Every buffer of 20_memory.md R53, at its bus addresses. -/
  mem : Memory
  /-- The port's answer to the last access; none before the first (log entry 9). -/
  port : Option PortAnswer
  /-- The events to come, the next one first (the model's own field, log entry 1). -/
  agenda : List Event
  /-- The number of the next draw of unspecified values (the model's own field, log entry 3). -/
  nextDraw : Nat
  /-- The draw that gave the buffers their content at power-on (the model's own field, log entry 3). -/
  bufferDraw : Nat
  deriving DecidableEq, Repr

/-- Why a step would stop the machine with a fault. There is none: a bus error is an answer of the port
(20_memory.md R59) and an error ends a command or a frame (60_exceptions.md R148), so nothing raises a fault. Safe. -/
inductive Fault
  deriving DecidableEq, Repr

/-- Why a step gives no next state. -/
inductive Refusal
  /-- An instruction whose meaning is not written yet. No arm of `exec` answers with it now. Safe. -/
  | notModelled (mnemonic : String)
  /-- The next bus event is a 64-bit word that no bus port can carry: no row of the opcode table matches it
  (30_encoding.md R89, 93_implementation_defined.md U12). Raised by the step, never by an instruction. Safe. -/
  | noSuchTransaction (t : Transaction) (why : DecodeError)
  deriving DecidableEq, Repr

/-- The machine right after a power-on reset: every row of R51, no buffer byte written, nothing on the agenda. -/
def State.reset : State :=
  { irqStatus := 0#4, irqEnable := 0#4
    tx := TxEngine.reset
    rx := RxEngine.resetOver (Vector.replicate 20 0#8)
    mem := [], port := none, agenda := [], nextDraw := 1, bufferDraw := 0 }

end Sys2Proof.Machine
end

