-- ==== Sys2Proof/Machine/Exact.lean ====
section
/-! DEFINITION. Exact frequency arithmetic (00_scope.md R11, R12; 30_encoding.md R76; 42_synthesizer.md R106): every
finite binary32 value is an integer multiple of 2^-149, so frequencies are integers in that unit. -/

namespace Sys2Proof.Machine

/-- `finite(x)`: the exponent field is not all ones (R11). -/
def finite (x : Word) : Bool := x.extractLsb' 23 8 != 0xFF#8

/-- `val(x) * 2^149` for a finite pattern `x` (R11). An infinity or a NaN has no value; on those patterns this
number means nothing, and no rule uses it (log entry 13). -/
def scaled (x : Word) : Int :=
  let e := (x.extractLsb' 23 8).toNat
  let f := (x.extractLsb' 0 23).toNat
  let m := if e = 0 then f else (2 ^ 23 + f) * 2 ^ (e - 1)
  if x.msb then -(m : Int) else m

/-- One Hz in the unit of `scaled`. -/
def unitsPerHz : Nat := 2 ^ 149

/-- `freq(B, S, k) = val(B) + k * val(S)` in units of 2^-149 Hz (R76). -/
def frequency (g : Grid) (k : Nat) : Int := scaled g.base + k * scaled g.step

/-- `RNE(n / d)`: the nearest integer, a tie to the even one (R12). -/
def roundNearestEven (n : Int) (d : Nat) : Int :=
  let q := n / d
  let r := n % d
  if 2 * r < d then q
  else if d < 2 * r then q + 1
  else if q % 2 = 0 then q
  else q + 1

/-- `TW(B, S, k, fs)`: the phase advance of one sample of bin `k` (R106). -/
def tuningWord (g : Grid) (k fs : Nat) : Word :=
  BitVec.ofInt 32 (roundNearestEven (frequency g k * 2 ^ 32) (unitsPerHz * fs))

/-- A finite sample value in [-1, 1] (R108). -/
def inUnitRange (x : Word) : Bool := finite x && decide ((scaled x).natAbs ≤ unitsPerHz)

/-- `SINE`: any total function from phase words to finite values in [-1, 1] (R108). A value of the open
parameter outside that range is replaced by +0.0, so every function R108 admits is one of these, and no other is. -/
def sine (p : Word) : Word := if inUnitRange (Config.sineRaw p) then Config.sineRaw p else 0#32

end Sys2Proof.Machine
end

