-- ==== Sys2Proof/Machine/Flags.lean ====
section
/-! DEFINITION. The engine's status bits: error codes (60_exceptions.md R142), the interrupt block (10_state.md R21,
R22; 60_exceptions.md R146), `TX_STATUS` (R33), `RX_STATUS` (R38) and the receiver's counters (R42, R43, R44). -/

namespace Sys2Proof.Machine

/-! ### Error codes (R142) -/

/-- The codes 0x01 to 0x0B. -/
inductive ErrorCode
  | illegalCmd | unsupportedModulation | badModulation | badSymbolBits | badBaseFreq | badStep | badReplication
  | badSampleRate | badLength | overflow | headerDecode
  deriving DecidableEq, Repr

/-- The 8-bit value of a code. -/
def ErrorCode.code : ErrorCode → Byte
  | .illegalCmd => 0x01#8
  | .unsupportedModulation => 0x02#8
  | .badModulation => 0x03#8
  | .badSymbolBits => 0x04#8
  | .badBaseFreq => 0x05#8
  | .badStep => 0x06#8
  | .badReplication => 0x07#8
  | .badSampleRate => 0x08#8
  | .badLength => 0x09#8
  | .overflow => 0x0A#8
  | .headerDecode => 0x0B#8

/-! ### The interrupt block -/

/-- `IRQ_STATUS.TX_DONE`. -/
def irqTxDone : BitVec 4 := 1#4
/-- `IRQ_STATUS.TX_ERR`. -/
def irqTxErr : BitVec 4 := 2#4
/-- `IRQ_STATUS.RX_DONE`. -/
def irqRxDone : BitVec 4 := 4#4
/-- `IRQ_STATUS.RX_ERR`. -/
def irqRxErr : BitVec 4 := 8#4

/-- An event sets its pending bit, whatever `IRQ_ENABLE` holds (R21, R146). -/
def State.pend (s : State) (bit : BitVec 4) : State := { s with irqStatus := s.irqStatus ||| bit }

/-- The output `irq` (R146). -/
def State.irq (s : State) : Bool := s.irqStatus &&& s.irqEnable != 0#4

/-! ### TX_STATUS (R33) -/

/-- `TX_STATUS.BUSY`: 1 exactly when a command is pending (R47). -/
def State.busy (s : State) : Bool := s.tx.pending.isSome

/-- The word of `TX_STATUS`. -/
def txStatusWord (tx : TxEngine) : Word :=
  0#8 ++ tx.lastCmd ++ tx.err ++ 0#6 ++ BitVec.ofBool tx.done ++ BitVec.ofBool tx.pending.isSome

/-! ### RX_STATUS and the receiver's counters -/

/-- The number of a stage in `RX_STATUS.STAGE` (R38). -/
def Stage.code : Stage → BitVec 3
  | .locate => 0#3
  | .header => 1#3
  | .payload => 2#3
  | .done => 3#3
  | .error => 4#3

/-- `PAT_OK`: every pattern entry is a bin of the current grid (R38). -/
def RxEngine.patOk (rx : RxEngine) : Bool := rx.pb.toList.all Option.isSome

/-- The word of `RX_STATUS` (R38). -/
def rxStatusWord (rx : RxEngine) : Word :=
  0#16 ++ rx.err ++ BitVec.ofBool rx.patOk ++ BitVec.ofBool rx.prev.isSome ++ BitVec.ofNat 3 rx.prog.val
    ++ rx.stage.code

/-- `RX_GRID_BINS` (R42): 3 on the base grid, and in Payload and Done the bins that a data symbol or a pattern
symbol can use. -/
def rxGridBins (rx : RxEngine) : Nat :=
  let dataBins := 2 ^ rx.pu.sb + 1
  let patternBins := rx.pb.toList.foldl (fun n bin => match bin with | some k => max n (k.val + 1) | none => n) 0
  match rx.stage with
  | .payload => max dataBins patternBins
  | .done => max dataBins patternBins
  | .locate => 3
  | .header => 3
  | .error => 3

/-- `RX_HDR_BITS` (R43). -/
def rxHdrBits (rx : RxEngine) : Nat := 8 * rx.hu.nout + rx.hu.nacc

/-- `RX_PREV_CODE` (R44). -/
def rxPrevCode (rx : RxEngine) : Word :=
  match rx.prev with
  | some slot => slot.code
  | none => 0#32

end Sys2Proof.Machine
end

