-- ==== Sys2Proof/Machine/Operands.lean ====
section
/-! DEFINITION. The register page (10_state.md R17, R18): every register at its offset, what a read gives, what a plain
write stores, and which registers the busy window closes. The commands' operands are these registers (30_encoding.md
R88). -/

namespace Sys2Proof.Machine

/-- The registers of R17, reserved offsets apart. -/
inductive Reg
  | id | ctrl | irqStatus | irqEnable
  | txSymbolBits | txBaseFreq | txStep | txModulation | txPayloadLen | txReplication | txSampleRate | txSymCount
  | txHdrAvail | txCmd | txStatus | txOutLen | txOutChannels
  | phSymbolBits | phBaseFreq | phStep | phModulation | phPayloadLen
  | rxSlot | rxStatus | rxSymbolBits | rxBaseFreq | rxStep | rxModulation | rxPayloadLen | rxOutLen
  | rxGridBase | rxGridStep | rxGridBins | rxHdrBits | rxPayBytes | rxSlotCount | rxPrevCode
  | txPhase (c : Fin 8) | txHold (c : Fin 8)
  deriving DecidableEq, Repr

/-- The registers at 0x000 to 0x0BC. -/
def namedRegister : Nat → Option Reg
  | 0x000 => some .id
  | 0x004 => some .ctrl
  | 0x008 => some .irqStatus
  | 0x00C => some .irqEnable
  | 0x010 => some .txSymbolBits
  | 0x014 => some .txBaseFreq
  | 0x018 => some .txStep
  | 0x01C => some .txModulation
  | 0x020 => some .txPayloadLen
  | 0x024 => some .txReplication
  | 0x028 => some .txSampleRate
  | 0x02C => some .txSymCount
  | 0x030 => some .txHdrAvail
  | 0x034 => some .txCmd
  | 0x038 => some .txStatus
  | 0x03C => some .txOutLen
  | 0x040 => some .txOutChannels
  | 0x044 => some .phSymbolBits
  | 0x048 => some .phBaseFreq
  | 0x04C => some .phStep
  | 0x050 => some .phModulation
  | 0x054 => some .phPayloadLen
  | 0x080 => some .rxSlot
  | 0x084 => some .rxStatus
  | 0x088 => some .rxSymbolBits
  | 0x08C => some .rxBaseFreq
  | 0x090 => some .rxStep
  | 0x094 => some .rxModulation
  | 0x098 => some .rxPayloadLen
  | 0x09C => some .rxOutLen
  | 0x0A0 => some .rxGridBase
  | 0x0A4 => some .rxGridStep
  | 0x0A8 => some .rxGridBins
  | 0x0AC => some .rxHdrBits
  | 0x0B0 => some .rxPayBytes
  | 0x0B4 => some .rxSlotCount
  | 0x0B8 => some .rxPrevCode
  | _ => none

/-- The register at a 4-byte-aligned offset of the page; none at a reserved offset (R17). -/
def Reg.atOffset (offset : Nat) : Option Reg :=
  if offset < 0x0C0 then namedRegister offset
  else if offset < 0x0E0 then some (.txPhase (Fin.ofNat 8 ((offset - 0x0C0) / 4)))
  else if offset < 0x100 then some (.txHold (Fin.ofNat 8 ((offset - 0x0E0) / 4)))
  else none

/-- The *TX-side* column of R17: closed while `BUSY` = 1 (20_memory.md R60). -/
def Reg.txSide : Reg → Bool
  | .txSymbolBits | .txBaseFreq | .txStep | .txModulation | .txPayloadLen | .txReplication | .txSampleRate
  | .txSymCount | .txHdrAvail | .txCmd | .txOutLen | .txOutChannels
  | .phSymbolBits | .phBaseFreq | .phStep | .phModulation | .phPayloadLen => true
  | .txPhase _ | .txHold _ => true
  | .id | .ctrl | .irqStatus | .irqEnable | .txStatus
  | .rxSlot | .rxStatus | .rxSymbolBits | .rxBaseFreq | .rxStep | .rxModulation | .rxPayloadLen | .rxOutLen
  | .rxGridBase | .rxGridStep | .rxGridBins | .rxHdrBits | .rxPayBytes | .rxSlotCount | .rxPrevCode => false

/-- `regread`: the value a read of a register gives, 0 for a write-only or trigger register (R17, R140). -/
def State.readReg (s : State) : Reg → Word
  | .id => Config.identity
  | .ctrl => 0#32
  | .irqStatus => s.irqStatus.setWidth 32
  | .irqEnable => s.irqEnable.setWidth 32
  | .txSymbolBits => s.tx.params.symbolBits
  | .txBaseFreq => s.tx.params.baseFreq
  | .txStep => s.tx.params.step
  | .txModulation => s.tx.params.modulation
  | .txPayloadLen => s.tx.params.payloadLen
  | .txReplication => s.tx.replication
  | .txSampleRate => s.tx.sampleRate
  | .txSymCount => s.tx.symCount
  | .txHdrAvail => s.tx.hdrAvail
  | .txCmd => 0#32
  | .txStatus => txStatusWord s.tx
  | .txOutLen => s.tx.outLen
  | .txOutChannels => s.tx.outChannels
  | .phSymbolBits => s.tx.parsed.symbolBits
  | .phBaseFreq => s.tx.parsed.baseFreq
  | .phStep => s.tx.parsed.step
  | .phModulation => s.tx.parsed.modulation
  | .phPayloadLen => s.tx.parsed.payloadLen
  | .rxSlot => 0#32
  | .rxStatus => rxStatusWord s.rx
  | .rxSymbolBits => s.rx.neg.symbolBits
  | .rxBaseFreq => s.rx.neg.baseFreq
  | .rxStep => s.rx.neg.step
  | .rxModulation => s.rx.neg.modulation
  | .rxPayloadLen => s.rx.neg.payloadLen
  | .rxOutLen => s.rx.outLen
  | .rxGridBase => s.rx.grid.base
  | .rxGridStep => s.rx.grid.step
  | .rxGridBins => BitVec.ofNat 32 (rxGridBins s.rx)
  | .rxHdrBits => BitVec.ofNat 32 (rxHdrBits s.rx)
  | .rxPayBytes => BitVec.ofNat 32 s.rx.pu.nout
  | .rxSlotCount => s.rx.slots
  | .rxPrevCode => rxPrevCode s.rx
  | .txPhase c => s.tx.phase[c]
  | .txHold c => s.tx.hold[c]

/-- The value a read at an aligned offset of the page gives; a reserved offset reads as 0 (R17). -/
def State.readPage (s : State) (offset : Nat) : Word :=
  match Reg.atOffset offset with
  | some r => s.readReg r
  | none => 0#32

/-- A plain write of a register (R141): the read-write registers store all 32 bits, `IRQ_ENABLE` bits 3:0; every
other register keeps what it holds. The writes with an action of their own are instructions of their own (R86). -/
def State.writeReg (s : State) (v : Word) : Reg → State
  | .irqEnable => { s with irqEnable := v.setWidth 4 }
  | .txSymbolBits => { s with tx := { s.tx with params := { s.tx.params with symbolBits := v } } }
  | .txBaseFreq => { s with tx := { s.tx with params := { s.tx.params with baseFreq := v } } }
  | .txStep => { s with tx := { s.tx with params := { s.tx.params with step := v } } }
  | .txModulation => { s with tx := { s.tx with params := { s.tx.params with modulation := v } } }
  | .txPayloadLen => { s with tx := { s.tx with params := { s.tx.params with payloadLen := v } } }
  | .txReplication => { s with tx := { s.tx with replication := v } }
  | .txSampleRate => { s with tx := { s.tx with sampleRate := v } }
  | .txSymCount => { s with tx := { s.tx with symCount := v } }
  | .txHdrAvail => { s with tx := { s.tx with hdrAvail := v } }
  | .id | .ctrl | .irqStatus | .txCmd | .txStatus | .txOutLen | .txOutChannels
  | .phSymbolBits | .phBaseFreq | .phStep | .phModulation | .phPayloadLen
  | .rxSlot | .rxStatus | .rxSymbolBits | .rxBaseFreq | .rxStep | .rxModulation | .rxPayloadLen | .rxOutLen
  | .rxGridBase | .rxGridStep | .rxGridBins | .rxHdrBits | .rxPayBytes | .rxSlotCount | .rxPrevCode => s
  | .txPhase _ | .txHold _ => s

/-- A plain write at an aligned offset of the page; a reserved offset ignores it (R17). -/
def State.writePage (s : State) (offset : Nat) (v : Word) : State :=
  match Reg.atOffset offset with
  | some r => s.writeReg v r
  | none => s

end Sys2Proof.Machine
end

