-- ==== Sys2Proof/Machine/Ops.lean ====
section
/-! DEFINITION. The shared operations: memory, the address map and what the port admits (20_memory.md), the answers of
the port, and the acceptance and completion of a command (45_control.md R134, R135), which is also the engine's whole
error entry (60_exceptions.md R148). -/

namespace Sys2Proof.Machine

/-! ### Memory -/

/-- The canonical form: addresses strictly rising. An unlisted address holds no value, so no entry can repeat it. -/
abbrev Memory.wf (m : Memory) : Prop := m.Pairwise fun c d => c.1 < d.1

/-- The byte written at an address since power-on, if any. -/
def Memory.peek (m : Memory) (a : Nat) : Option Byte := (m.find? fun c => c.1 == a).map (·.2)

/-- Cells of consecutive addresses. -/
def cellsFrom : Nat → List Byte → List Host.Cell
  | _, [] => []
  | a, b :: bs => (a, b) :: cellsFrom (a + 1) bs

/-- Bytes stored at consecutive addresses from `a`. -/
def Memory.store (m : Memory) (a : Nat) : List Byte → Memory
  | [] => m
  | b :: bs =>
    m.filter (fun c => c.1 < a) ++ cellsFrom a (b :: bs) ++ m.filter (fun c => a + (b :: bs).length ≤ c.1)

/-! ### The address map (R53) -/

/-- The buffers. -/
inductive Buffer
  | tx | hdr | unp | rx | sym | samp (c : Fin 8)
  deriving DecidableEq, Repr

/-- Every buffer, in address order. -/
def allBuffers : List Buffer :=
  [.tx, .hdr, .unp, .rx, .sym, .samp 0, .samp 1, .samp 2, .samp 3, .samp 4, .samp 5, .samp 6, .samp 7]

/-- The bus address of a buffer's first byte. -/
def Buffer.base : Buffer → Nat
  | .tx => 0x0001000
  | .hdr => 0x0002000
  | .unp => 0x0003000
  | .rx => 0x0004000
  | .sym => 0x0100000
  | .samp c => 0x1000000 + c.val * 0x100000

/-- The bytes of a buffer's address range. -/
def Buffer.size : Buffer → Nat
  | .tx => Config.txBytes
  | .hdr => 32
  | .unp => Config.unpBytes
  | .rx => Config.rxBytes
  | .sym => 4 * Config.symWords
  | .samp _ => 4 * Config.sampWords

/-- The bytes that hold anything: bytes 20 to 31 of `HDR_BUF` are reserved (R62). -/
def Buffer.storable : Buffer → Nat
  | .hdr => Config.hdrBytes
  | .tx => Config.txBytes
  | .unp => Config.unpBytes
  | .rx => Config.rxBytes
  | .sym => 4 * Config.symWords
  | .samp _ => 4 * Config.sampWords

/-- A buffer of 32-bit words, which admits only 32-bit accesses (R57). -/
def Buffer.wordOnly : Buffer → Bool
  | .sym | .samp _ => true
  | .tx | .hdr | .unp | .rx => false

/-- The buffers the busy window closes: all but `RX_BUF` (R60). -/
def Buffer.txSide : Buffer → Bool
  | .rx => false
  | .tx | .hdr | .unp | .sym | .samp _ => true

/-- The buffers a bus write may touch: all but `RX_BUF` (R57). -/
def Buffer.writable : Buffer → Bool
  | .rx => false
  | .tx | .hdr | .unp | .sym | .samp _ => true

/-- What stands at a bus address. -/
inductive Target
  | register (offset : Nat)
  | buffer (b : Buffer) (offset : Nat)
  | unmapped
  deriving DecidableEq, Repr

/-- The address map (R53). -/
def target (a : Nat) : Target :=
  if a < 0x100 then .register a
  else
    match allBuffers.find? fun b => decide (b.base ≤ a) && decide (a < b.base + b.size) with
    | some b => .buffer b (a - b.base)
    | none => .unmapped

/-! ### What the port admits (R56, R57, R59, R60) -/

/-- The direction of an access. -/
inductive Direction
  | read | write
  deriving DecidableEq, Repr

/-- `admitted(a, n, direction)`: the access is no bus error (R59). -/
def State.admits (s : State) (d : Direction) (n a : Nat) : Bool :=
  a % n == 0 &&
  match target a with
  | .register offset =>
    n == 4 && !(s.busy && match Reg.atOffset offset with | some r => r.txSide | none => false)
  | .buffer b _ => (n == 4 || !b.wordOnly) && (d == .read || b.writable) && !(s.busy && b.txSide)
  | .unmapped => false

/-! ### The answers of the port (R59, R140; 60_exceptions.md R158) -/

/-- The bus error response: read data 0, and no other effect. -/
def State.busError (s : State) : State := { s with port := some ⟨true, 0#32⟩ }

/-- The response to a read. -/
def State.answer (s : State) (v : Word) : State := { s with port := some ⟨false, v⟩ }

/-- The response to an admitted write. -/
def State.acknowledge (s : State) : State := { s with port := some ⟨false, 0#32⟩ }

/-! ### Buffer elements: `MemRead` and `MemWrite` (R13, R54) -/

/-- Byte `i` of a buffer's range. A byte not written since power-on has the unspecified value drawn then (R67). -/
def State.byteAt (s : State) (b : Buffer) (i : Nat) : Byte :=
  match s.mem.peek (b.base + i) with
  | some v => v
  | none => Config.unspecifiedByte s.bufferDraw (b.base + i)

/-- `n` bytes of a byte buffer from index `i`. -/
def State.readBytes (s : State) (b : Buffer) (i n : Nat) : List Byte :=
  (List.range n).map fun j => s.byteAt b (i + j)

/-- Word `i` of a word buffer. -/
def State.wordAt (s : State) (b : Buffer) (i : Nat) : Word := wordOfLE (s.readBytes b (4 * i) 4)

/-- `n` words of a word buffer from index `i`. -/
def State.readWords (s : State) (b : Buffer) (i n : Nat) : List Word :=
  (List.range n).map fun j => s.wordAt b (i + j)

/-- Bytes written to a buffer from byte index `i`. -/
def State.writeBytes (s : State) (b : Buffer) (i : Nat) (bytes : List Byte) : State :=
  { s with mem := s.mem.store (b.base + i) bytes }

/-- Words written to a word buffer from word index `i`. -/
def State.writeWords (s : State) (b : Buffer) (i : Nat) (words : List Word) : State :=
  s.writeBytes b (4 * i) (words.flatMap (leBytes 4))

/-! ### The life of a command (45_control.md R134, R135) -/

/-- A write of a command word to `TX_CMD`: accepted when the TX engine is idle, else a bus error (R134). -/
def State.acceptCommand (s : State) (w : Word) : State :=
  if s.busy then s.busError
  else
    { s with tx := { s.tx with pending := some w, done := false, err := 0#8, lastCmd := w.setWidth 8 } }.acknowledge

/-- The status update with which every command ends, and the engine's only error entry (R135, R144, R148): the code
in `TX_STATUS.ERR`, `BUSY` 0, `DONE` 1, and the pending bit of the result. -/
def State.finish (s : State) (code : Byte) : State :=
  { s with tx := { s.tx with pending := none, done := true, err := code } }.pend
    (if code = 0#8 then irqTxDone else irqTxErr)

end Sys2Proof.Machine
end

