-- ==== Sys2Proof/Machine/Bus.lean ====
section
/-! DEFINITION. Plain bus reads and writes (45_control.md R140, R141; 20_memory.md R55 to R66). -/

namespace Sys2Proof.Machine

/-- The byte a bus read sees: 0 in `RX_BUF` from `RX_PAY_BYTES` on, and 0 in the reserved bytes of `HDR_BUF`
(R140, R62, R64). -/
def State.busByte (s : State) (b : Buffer) (i : Nat) : Byte :=
  if b = .rx ∧ s.rx.pu.nout ≤ i then 0#8
  else if b.storable ≤ i then 0#8
  else s.byteAt b i

/-- The value of an admitted read of `n` bytes, zero-extended (R140). -/
def State.busValue (s : State) (n a : Nat) : Word :=
  match target a with
  | .register offset => s.readPage offset
  | .buffer b i => wordOfLE ((List.range n).map fun j => s.busByte b (i + j))
  | .unmapped => 0#32

/-- `BUS_READ` of `n` bytes at address `a` (R140): the value, or the bus error response. -/
def State.busRead (s : State) (n a : Nat) : State :=
  if s.admits .read n a then s.answer (s.busValue n a) else s.busError

/-- The effect of an admitted write of the `n` low bytes of `data` (R141). A byte of a reserved index is dropped. -/
def State.busStore (s : State) (n a : Nat) (data : Word) : State :=
  match target a with
  | .register offset => s.writePage offset data
  | .buffer b i => s.writeBytes b i ((leBytes n data).take (b.storable - i))
  | .unmapped => s

/-- `BUS_WRITE` of `n` bytes at address `a` (R141), or the bus error response. -/
def State.busWrite (s : State) (n a : Nat) (data : Word) : State :=
  if s.admits .write n a then (s.busStore n a data).acknowledge else s.busError

/-- BUS_WRITE8 (R141): `DATA[7:0]`; the other bits of the word are 0 on the port and are not read (R83). -/
def execBusWrite8 (addr : Addr) (data : Word) (s : State) : Host.Outcome State Fault Refusal :=
  .next (s.busWrite 1 addr.toNat data)

/-- BUS_WRITE16 (R141): `DATA[15:0]`. -/
def execBusWrite16 (addr : Addr) (data : Word) (s : State) : Host.Outcome State Fault Refusal :=
  .next (s.busWrite 2 addr.toNat data)

/-- BUS_WRITE32 (R141). -/
def execBusWrite32 (addr : Addr) (data : Word) (s : State) : Host.Outcome State Fault Refusal :=
  .next (s.busWrite 4 addr.toNat data)

/-- BUS_READ8 (R140). A read carries no data: the word's `DATA` is not read (R83). -/
def execBusRead8 (addr : Addr) (_data : Word) (s : State) : Host.Outcome State Fault Refusal :=
  .next (s.busRead 1 addr.toNat)

/-- BUS_READ16 (R140). -/
def execBusRead16 (addr : Addr) (_data : Word) (s : State) : Host.Outcome State Fault Refusal :=
  .next (s.busRead 2 addr.toNat)

/-- BUS_READ32 (R140). -/
def execBusRead32 (addr : Addr) (_data : Word) (s : State) : Host.Outcome State Fault Refusal :=
  .next (s.busRead 4 addr.toNat)

end Sys2Proof.Machine
end

