-- ==== Sys2Proof/Machine/Header.lean ====
section
/-! DEFINITION. The header codec (40_header_codec.md R92, R93; 30_encoding.md R81): the commands SERIALIZE_HEADER and
PARSE_HEADER. -/

namespace Sys2Proof.Machine

/-- The 20-byte header record of five fields (R81). -/
def headerBytes (p : Params) : List Byte :=
  beBytes p.symbolBits ++ beBytes p.baseFreq ++ beBytes p.step ++ beBytes p.modulation ++ beBytes p.payloadLen

/-- Field `f` of a header record: bytes `4f` to `4f + 3`, most significant first (R93). -/
def headerField (byte : Nat → Byte) (f : Nat) : Word :=
  wordOfBE (byte (4 * f)) (byte (4 * f + 1)) (byte (4 * f + 2)) (byte (4 * f + 3))

/-- The five fields of a header record given by its bytes. -/
def headerParams (byte : Nat → Byte) : Params :=
  { symbolBits := headerField byte 0, baseFreq := headerField byte 1, step := headerField byte 2
    modulation := headerField byte 3, payloadLen := headerField byte 4 }

/-- The effect of SERIALIZE_HEADER at completion (R92). It never fails. -/
def effectSerializeHeader (s : State) : Except ErrorCode State :=
  let t := s.writeBytes .hdr 0 (headerBytes s.tx.params)
  .ok { t with tx := { t.tx with hdrAvail := 20#32, outLen := 20#32, outChannels := 0#32 } }

/-- The effect of PARSE_HEADER at completion (R93). -/
def effectParseHeader (s : State) : Except ErrorCode State :=
  if s.tx.hdrAvail.toNat < Config.hdrBytes then .error .headerDecode
  else
    .ok { s with
      tx := { s.tx with parsed := headerParams (s.byteAt .hdr), outLen := 0#32, outChannels := 0#32 } }

/-- SERIALIZE_HEADER: the write to `TX_CMD` is accepted (R92, R134). -/
def execSerializeHeader (s : State) : Host.Outcome State Fault Refusal := .next (s.acceptCommand 0x00000001#32)

/-- PARSE_HEADER: the write to `TX_CMD` is accepted (R93, R134). -/
def execParseHeader (s : State) : Host.Outcome State Fault Refusal := .next (s.acceptCommand 0x00000002#32)

end Sys2Proof.Machine
end

