-- ==== Sys2Proof/Machine/Symbol.lean ====
section
/-! DEFINITION. The symbol mapper, packer and unpacker (41_symbol_codec.md R95 to R100), and the commands PACK (R101)
and UNPACK (R102). A symbol is a bin index (30_encoding.md R76). -/

namespace Sys2Proof.Machine

/-! ### Packing -/

/-- The first `count` consecutive groups of `size` elements; the last ones are short when the list runs out. -/
def groupsOf {α : Type} (size : Nat) : Nat → List α → List (List α)
  | 0, _ => []
  | count + 1, xs => xs.take size :: groupsOf size count (xs.drop size)

/-- Zero bits appended up to a multiple of `sb` (R95, step 1). -/
def padBits (sb : Nat) (bits : List Bool) : List Bool :=
  bits ++ List.replicate ((sb - bits.length % sb) % sb) false

/-- The group values `v_g` of a byte sequence (R95, step 2). -/
def groupValues (sb : Nat) (bytes : List Byte) : List Nat :=
  let bits := padBits sb (bitsOfBytes bytes)
  (groupsOf sb (bits.length / sb) bits).map valueOf

/-- The repeat rule (R97): a data bin equal to the symbol emitted before it is replaced by the sentinel, bin 0. -/
def emitSymbols : Option Nat → List Nat → List Nat
  | _, [] => []
  | prev, k :: ks =>
    let e := if prev = some k then 0 else k
    e :: emitSymbols (some e) ks

/-- `pack(D, sB, r)` (R98). -/
def packSymbols (bytes : List Byte) (sb r : Nat) : List Nat :=
  (emitSymbols none ((groupValues sb bytes).map fun v => 1 + v)).flatMap fun e => List.replicate r e

/-! ### Unpacking -/

/-- The bits of one symbol enter the partial byte; each byte that fills is emitted, and the unpacker stops at its
target (R99, the loop). -/
def Unpacker.pushBits : Unpacker → List Bool → Unpacker × List Byte
  | u, [] => (u, [])
  | u, b :: bs =>
    let acc := u.acc * 2#8 + (BitVec.ofBool b).setWidth 8
    if u.nacc + 1 = 8 then
      let full : Unpacker := { u with acc := 0#8, nacc := 0, nout := u.nout + 1 }
      if full.target ≤ full.nout then (full, [acc])
      else
        let r := Unpacker.pushBits full bs
        (r.1, acc :: r.2)
    else Unpacker.pushBits { u with acc := acc, nacc := u.nacc + 1 } bs

/-- `push(U, s, DEST)` (R99): the unpacker after one symbol, and the bytes it writes to DEST, the first of them at
index `U.nout`. -/
def Unpacker.push (u : Unpacker) (symbol : Nat) : Unpacker × List Byte :=
  if u.target ≤ u.nout then (u, [])
  else if u.prevRaw = some symbol then (u, [])
  else
    let seen : Unpacker := { u with prevRaw := some symbol }
    match if symbol = 0 then u.prevRes else some symbol with
    | none => (seen, [])
    | some res => Unpacker.pushBits { seen with prevRes := some res } (bitsOf u.sb ((res - 1) % 2 ^ u.sb))

/-- Several symbols in turn, and all the bytes they write. -/
def Unpacker.pushAll : Unpacker → List Nat → Unpacker × List Byte
  | u, [] => (u, [])
  | u, x :: xs =>
    let r := u.push x
    let rest := Unpacker.pushAll r.1 xs
    (rest.1, r.2 ++ rest.2)

/-- `unpack(S, sB, T)` (R100). -/
def unpackSymbols (symbols : List Nat) (sb count : Nat) : List Byte :=
  ((Unpacker.fresh sb count).pushAll symbols).2

/-! ### PACK and UNPACK -/

/-- symbolBits in a range `1 .. top`, read as a signed integer (R142, BAD_SYMBOL_BITS). -/
def symbolBitsWithin (top : Nat) (w : Word) : Bool := decide (1 ≤ w.toInt) && decide (w.toInt ≤ top)

/-- The checks of PACK in order, and the number of symbols it writes (R101). -/
def checkPack (s : State) : Except ErrorCode Nat :=
  let len := s.tx.params.payloadLen.toNat
  let sb := s.tx.params.symbolBits.toNat
  let r := s.tx.replication.toNat
  if !symbolBitsWithin Config.sbMaxTx s.tx.params.symbolBits then .error .badSymbolBits
  else if r = 0 then .error .badReplication
  else if Config.txBytes < len then .error .badLength
  else if Config.symWords < ceilDiv (8 * len) sb * r then .error .overflow
  else .ok (ceilDiv (8 * len) sb * r)

/-- The symbols PACK writes. -/
def State.packedSymbols (s : State) : List Nat :=
  packSymbols (s.readBytes .tx 0 s.tx.params.payloadLen.toNat) s.tx.params.symbolBits.toNat s.tx.replication.toNat

/-- The effect of PACK at completion (R101). -/
def effectPack (s : State) : Except ErrorCode State :=
  match checkPack s with
  | .error e => .error e
  | .ok n =>
    let t := s.writeWords .sym 0 (s.packedSymbols.map (BitVec.ofNat 32))
    .ok { t with
      tx := { t.tx with symCount := BitVec.ofNat 32 n, outLen := BitVec.ofNat 32 n, outChannels := 0#32 } }

/-- The checks of UNPACK in order, and its target byte count (R102). -/
def checkUnpack (s : State) : Except ErrorCode Nat :=
  let count := s.tx.params.payloadLen.toNat
  if !symbolBitsWithin Config.sbMaxTx s.tx.params.symbolBits then .error .badSymbolBits
  else if Config.unpBytes < count ∨ Config.symWords < s.tx.symCount.toNat then .error .badLength
  else .ok count

/-- The symbol words the commands UNPACK and SYNTH read: `SYM_BUF[0 .. TX_SYM_COUNT - 1]` (R65, R77). -/
def State.storedSymbols (s : State) : List Nat :=
  (s.readWords .sym 0 s.tx.symCount.toNat).map BitVec.toNat

/-- The effect of UNPACK at completion (R102). -/
def effectUnpack (s : State) : Except ErrorCode State :=
  match checkUnpack s with
  | .error e => .error e
  | .ok count =>
    let r := (Unpacker.fresh s.tx.params.symbolBits.toNat count).pushAll s.storedSymbols
    let t := s.writeBytes .unp 0 r.2
    .ok { t with tx := { t.tx with outLen := BitVec.ofNat 32 r.1.nout, outChannels := 0#32 } }

/-- PACK: the write to `TX_CMD` is accepted (R101, R134). -/
def execPack (s : State) : Host.Outcome State Fault Refusal := .next (s.acceptCommand 0x00000003#32)

/-- UNPACK: the write to `TX_CMD` is accepted (R102, R134). -/
def execUnpack (s : State) : Host.Outcome State Fault Refusal := .next (s.acceptCommand 0x00000004#32)

end Sys2Proof.Machine
end

