-- ==== Sys2Proof/Machine/Synth.lean ====
section
/-! DEFINITION. The synthesizer (42_synthesizer.md): phase accumulators and hold registers (R105 to R110), the Direct
and BitParallel schemes (R112 to R115) as scores, and the command SYNTH (R116). A score lists, for each sample
instant, the channels that play and their tuning words; every other channel holds. -/

namespace Sys2Proof.Machine

/-! ### Tones and sample instants -/

/-- The phase accumulators and hold registers. -/
structure Oscillators where
  /-- `st.phase[0..7]`. -/
  phase : Vector Word 8
  /-- `st.hold[0..7]`. -/
  hold : Vector Word 8
  deriving DecidableEq, Repr

/-- All phases and holds 0, as at the start of SYNTH and BUILD_FRAME (R105, R109). -/
def Oscillators.atStart : Oscillators := ⟨Vector.replicate 8 0#32, Vector.replicate 8 0#32⟩

/-- One sample of a tone on a channel: the phase advances by the tuning word, modulo 2^32, and is then sampled
(R107). -/
def Oscillators.tone (o : Oscillators) (t : Fin 8 × Word) : Oscillators :=
  let p := o.phase[t.1] + t.2
  { phase := o.phase.set t.1.val p t.1.isLt, hold := o.hold.set t.1.val (sine p) t.1.isLt }

/-- The tones of one sample instant: channels with their tuning words. -/
abbrev Tones := List (Fin 8 × Word)

/-- The tones of an instant run, the other channels hold (R109, R110). -/
def Oscillators.instantOf (o : Oscillators) (tones : Tones) : Oscillators := tones.foldl Oscillators.tone o

/-- The sample instants of a score in turn: the oscillators at the end, and the hold values after each instant, which
are the samples it writes (R110). -/
def playScore : Oscillators → List Tones → Oscillators × List (Vector Word 8)
  | o, [] => (o, [])
  | o, tones :: rest =>
    let o1 := o.instantOf tones
    let r := playScore o1 rest
    (r.1, o1.hold :: r.2)

/-! ### The Direct scheme -/

/-- `direct(Y, B, S, fs)`: one instant for each symbol, on channel 0 (R112). -/
def directScore (g : Grid) (fs : Nat) (symbols : List Nat) : List Tones :=
  symbols.map fun k => [(0, tuningWord g k fs)]

/-! ### The BitParallel scheme -/

/-- Sentinels resolved against the symbol before them, in stream order; a sentinel at position 0 stays 0 (R113). -/
def resolveSentinels : Option Nat → List Nat → List Nat
  | _, [] => []
  | prev, y :: ys =>
    let res := match prev with
      | some p => if y = 0 then p else y
      | none => y
    res :: resolveSentinels (some res) ys

/-- The lane values of each lump; the missing lanes of a partial last lump are 1 (R113). -/
def lumpsOf (n : Nat) (symbols : List Nat) : List (List Nat) :=
  (groupsOf n (ceilDiv symbols.length n) (resolveSentinels none symbols)).map fun lanes =>
    lanes ++ List.replicate (n - lanes.length) 1

/-- The kinds of lump (R114): ZERO, REPEAT, DATA. -/
inductive LumpKind
  | zero | again | data
  deriving DecidableEq, Repr

/-- The kind of a lump from its lanes and the lump before it (R114). -/
def lumpKind (prev : Option (List Nat × LumpKind)) (lanes : List Nat) : LumpKind :=
  if lanes.all (fun v => v == 1) then .zero
  else
    match prev with
    | none => .data
    | some (before, kind) => if lanes = before ∧ kind ≠ .again then .again else .data

/-- Every lump with its kind. -/
def classifyLumps : Option (List Nat × LumpKind) → List (List Nat) → List (List Nat × LumpKind)
  | _, [] => []
  | prev, lanes :: rest =>
    let kind := lumpKind prev lanes
    (lanes, kind) :: classifyLumps (some (lanes, kind)) rest

/-- The tones of a lump (R114). -/
def lumpTones (g : Grid) (fs : Nat) (lump : List Nat × LumpKind) : Tones :=
  match lump.2 with
  | .zero => [(0, tuningWord g 1 fs)]
  | .again => [(0, tuningWord g 0 fs)]
  | .data =>
    (List.finRange 8).filterMap fun c =>
      if lump.1[c.val]? = some 2 then some (c, tuningWord g (c.val + 2) fs) else none

/-- `bitparallel(Y, n, B, S, r, fs)`: each lump's tones for `r` instants (R115). -/
def bitParallelScore (g : Grid) (fs n r : Nat) (symbols : List Nat) : List Tones :=
  (classifyLumps none (lumpsOf n symbols)).flatMap fun lump => List.replicate r (lumpTones g fs lump)

/-! ### Writing a waveform -/

/-- The channels and sample instants a synthesis command writes. -/
structure WaveShape where
  /-- `nch`, the number of channels. -/
  channels : Nat
  /-- `T`, the number of sample instants. -/
  instants : Nat
  deriving DecidableEq, Repr

/-- The channels below `nch`. -/
def WaveShape.channelList (w : WaveShape) : List (Fin 8) := (List.finRange 8).filter fun c => c.val < w.channels

/-- The samples of every channel below `nch`, from word 0 of its buffer (R110). -/
def State.writeSamples (s : State) (frames : List (Vector Word 8)) (channels : List (Fin 8)) : State :=
  channels.foldl (fun t c => t.writeWords (.samp c) 0 (frames.map fun h => h[c])) s

/-- A waveform played from zeroed phases and holds, with the registers SYNTH and BUILD_FRAME leave (R116, R120). -/
def State.playWaveform (s : State) (shape : WaveShape) (score : List Tones) : State :=
  let r := playScore Oscillators.atStart score
  let t := s.writeSamples r.2 shape.channelList
  { t with
    tx := { t.tx with
      phase := r.1.phase, hold := r.1.hold
      outLen := BitVec.ofNat 32 shape.instants, outChannels := BitVec.ofNat 32 shape.channels } }

/-! ### SYNTH -/

/-- The grid of `TX_BASE_FREQ` and `TX_STEP`. -/
def State.txGrid (s : State) : Grid := ⟨s.tx.params.baseFreq, s.tx.params.step⟩

/-- A step that is finite and greater than 0 (R142, BAD_STEP). -/
def stepLegal (x : Word) : Bool := finite x && decide (0 < scaled x)

/-- The checks of SYNTH in order, and the shape of its waveform (R116). -/
def checkSynth (s : State) : Except ErrorCode WaveShape :=
  let mod := s.tx.params.modulation.toInt
  let n := s.tx.params.symbolBits.toNat
  let r := s.tx.replication.toNat
  let count := s.tx.symCount.toNat
  let shape : WaveShape := if mod = 0 then ⟨1, count⟩ else ⟨n, ceilDiv count n * r⟩
  if ¬(0 ≤ mod ∧ mod ≤ 2) then .error .badModulation
  else if mod = 2 then .error .unsupportedModulation
  else if mod = 1 ∧ !symbolBitsWithin Config.chMax s.tx.params.symbolBits then .error .badSymbolBits
  else if !finite s.tx.params.baseFreq then .error .badBaseFreq
  else if !stepLegal s.tx.params.step then .error .badStep
  else if mod = 1 ∧ r = 0 then .error .badReplication
  else if s.tx.sampleRate.toNat = 0 then .error .badSampleRate
  else if Config.symWords < count then .error .badLength
  else if Config.sampWords < shape.instants then .error .overflow
  else .ok shape

/-- The score SYNTH plays (R116). -/
def State.synthScore (s : State) : List Tones :=
  if s.tx.params.modulation.toInt = 0 then directScore s.txGrid s.tx.sampleRate.toNat s.storedSymbols
  else
    bitParallelScore s.txGrid s.tx.sampleRate.toNat s.tx.params.symbolBits.toNat s.tx.replication.toNat
      s.storedSymbols

/-- The effect of SYNTH at completion (R116). -/
def effectSynth (s : State) : Except ErrorCode State :=
  match checkSynth s with
  | .error e => .error e
  | .ok shape => .ok (s.playWaveform shape s.synthScore)

/-- SYNTH: the write to `TX_CMD` is accepted (R116, R134). -/
def execSynth (s : State) : Host.Outcome State Fault Refusal := .next (s.acceptCommand 0x00000005#32)

end Sys2Proof.Machine
end

