-- ==== Sys2Proof/Machine/Frame.lean ====
section
/-! DEFINITION. The frame assembler and the command BUILD_FRAME (43_frame_assembler.md R117 to R120). -/

namespace Sys2Proof.Machine

/-- `PRE`: the pattern's bins, each held `r` times (R117). -/
def preambleSymbols (r : Nat) : List Nat :=
  Config.patternBase.toList.flatMap fun k => List.replicate r k.val

/-- The checks of BUILD_FRAME in order, and the shape of its waveform (R120). -/
def checkBuildFrame (s : State) : Except ErrorCode WaveShape :=
  let mod := s.tx.params.modulation.toInt
  let sb := s.tx.params.symbolBits.toNat
  let top := if mod = 0 then Config.sbMaxTx else Config.chMax
  let len := s.tx.params.payloadLen.toNat
  let r := s.tx.replication.toNat
  let instants := 172 * r + ceilDiv (8 * len) sb * r
  if ¬(0 ≤ mod ∧ mod ≤ 2) then .error .badModulation
  else if mod = 2 then .error .unsupportedModulation
  else if !symbolBitsWithin top s.tx.params.symbolBits then .error .badSymbolBits
  else if !finite s.tx.params.baseFreq then .error .badBaseFreq
  else if !stepLegal s.tx.params.step then .error .badStep
  else if r = 0 then .error .badReplication
  else if s.tx.sampleRate.toNat = 0 then .error .badSampleRate
  else if Config.txBytes < len then .error .badLength
  else if Config.sampWords < instants then .error .overflow
  else .ok ⟨if mod = 0 then 1 else sb, instants⟩

/-- The payload segment (R117): Direct, or BitParallel over symbols packed at symbolBits 1 and replication 1. -/
def State.payloadScore (s : State) : List Tones :=
  let fs := s.tx.sampleRate.toNat
  let sb := s.tx.params.symbolBits.toNat
  let r := s.tx.replication.toNat
  let bytes := s.readBytes .tx 0 s.tx.params.payloadLen.toNat
  if s.tx.params.modulation.toInt = 0 then directScore s.txGrid fs (packSymbols bytes sb r)
  else bitParallelScore s.txGrid fs sb r (packSymbols bytes 1 1)

/-- The whole frame: Preamble, header, payload, Postamble (R117). One set of oscillators plays it (R119). -/
def State.frameScore (s : State) : List Tones :=
  let fs := s.tx.sampleRate.toNat
  let r := s.tx.replication.toNat
  directScore Grid.baseGrid fs (preambleSymbols r)
    ++ directScore Grid.baseGrid fs (packSymbols (headerBytes s.tx.params) 1 r)
    ++ s.payloadScore
    ++ directScore Grid.baseGrid fs (preambleSymbols r)

/-- The effect of BUILD_FRAME at completion (R120). -/
def effectBuildFrame (s : State) : Except ErrorCode State :=
  match checkBuildFrame s with
  | .error e => .error e
  | .ok shape => .ok (s.playWaveform shape s.frameScore)

/-- BUILD_FRAME: the write to `TX_CMD` is accepted (R120, R134). -/
def execBuildFrame (s : State) : Host.Outcome State Fault Refusal := .next (s.acceptCommand 0x00000006#32)

end Sys2Proof.Machine
end

