-- ==== Sys2Proof/Machine/Receiver.lean ====
section
/-! DEFINITION. The receiver state machine (44_receiver.md): one slot (R121 to R123), the stages Locate, Header and
Payload (R124 to R127), Done and Error (R128), and the receiver reset (R129). -/

namespace Sys2Proof.Machine

/-! ### Slot codes -/

/-- `single(code)`: the bin of a code with exactly one candidate (R123). -/
def single (code : Word) : Option (Fin 32) :=
  match (List.finRange 32).filter fun k => code.getLsbD k.val with
  | [k] => some k
  | _ => none

/-- `fset(code, grid)`: the active frequencies, computed exactly (R122). -/
def activeFrequencies (slot : SlotMemory) : List Int :=
  ((List.range 32).filter fun k => slot.code.getLsbD k).map fun k => frequency slot.grid k

/-- Two slots have the same set of active frequencies (R122). -/
def sameFrequencies (a b : SlotMemory) : Bool :=
  (activeFrequencies a).all (fun f => (activeFrequencies b).contains f)
    && (activeFrequencies b).all (fun f => (activeFrequencies a).contains f)

/-- The slot just written, on the current grid. -/
def RxEngine.slotOf (rx : RxEngine) (code : Word) : SlotMemory := ⟨code, rx.grid⟩

/-- `rx_dup(code)`, the answer of the duplicate filter (R122). -/
def RxEngine.duplicate (rx : RxEngine) (code : Word) : Bool :=
  match rx.prev with
  | some slot => sameFrequencies slot (rx.slotOf code)
  | none => false

/-- `match(s)`: the candidate is the pattern's bin at the current progress (R123). -/
def RxEngine.fits (rx : RxEngine) (s : Option (Fin 32)) : Bool :=
  match s, rx.pb[rx.prog] with
  | some k, some p => k == p
  | _, _ => false

/-! ### What one slot does -/

/-- The receiver after a slot, the bytes written to `RX_BUF` from index `st.pu.nout` on, and the pending bits the
slot sets. -/
structure SlotResult where
  /-- The receiver. -/
  rx : RxEngine
  /-- Bytes of `RX_BUF`. -/
  bytes : List Byte
  /-- Bits of `IRQ_STATUS`. -/
  irq : BitVec 4
  deriving DecidableEq, Repr

/-- A slot that writes no byte and sets no pending bit. -/
def SlotResult.quiet (rx : RxEngine) : SlotResult := ⟨rx, [], 0#4⟩

/-- The match restarts: progress 0, and the diverging slot is tested against the pattern's first position (R124,
R127). -/
def RxEngine.retest (rx : RxEngine) (s : Option (Fin 32)) : RxEngine :=
  if { rx with prog := 0 }.fits s then { rx with prog := 1 } else { rx with prog := 0 }

/-- `locate_step(s)` (R124). -/
def locateStep (rx : RxEngine) (s : Option (Fin 32)) : SlotResult :=
  if rx.fits s then
    if h : rx.prog.val + 1 < 6 then .quiet { rx with prog := ⟨rx.prog.val + 1, h⟩ }
    else .quiet { rx with prog := 0, stage := .header, hu := Unpacker.fresh 1 20 }
  else .quiet (rx.retest s)

/-- Bytes of the header record written from index `i` on. -/
def storeHeaderBytes (hbytes : Vector Byte 20) : Nat → List Byte → Vector Byte 20
  | _, [] => hbytes
  | i, b :: bs => storeHeaderBytes (hbytes.setIfInBounds i b) (i + 1) bs

/-- The checks of a received header, in order; the payload length is read as a signed integer (R126). -/
def checkHeader (p : Params) : Option ErrorCode :=
  let mod := p.modulation.toInt
  let len := p.payloadLen.toInt
  if mod = 1 ∨ mod = 2 then some .unsupportedModulation
  else if ¬(0 ≤ mod ∧ mod ≤ 2) then some .badModulation
  else if !symbolBitsWithin Config.sbMaxRx p.symbolBits then some .badSymbolBits
  else if !finite p.baseFreq then some .badBaseFreq
  else if !stepLegal p.step then some .badStep
  else if ¬(0 ≤ len ∧ len ≤ Config.rxBytes) then some .badLength
  else none

/-- The bin 0 to 31 of a grid that is a frequency in Hz, if any (R126). -/
def binAt (g : Grid) (hz : Nat) : Option (Fin 32) :=
  (List.finRange 32).find? fun k => frequency g k.val == ((hz * unitsPerHz : Nat) : Int)

/-- The pattern's frequencies as bins of a grid (R126). -/
def patternBins (g : Grid) : Vector (Option (Fin 32)) 6 :=
  ⟨(Config.patternHz.toList.map (binAt g)).toArray, by simp⟩

/-- `rx_validate()` (R126). -/
def rxValidate (rx : RxEngine) : SlotResult :=
  let p := headerParams fun i => rx.hbytes.toList.getD i 0#8
  match checkHeader p with
  | some e => ⟨{ rx with neg := p, stage := .error, err := e.code, prog := 0 }, [], irqRxErr⟩
  | none =>
    let g : Grid := ⟨p.baseFreq, p.step⟩
    .quiet { rx with
      neg := p, stage := .payload, prog := 0, grid := g, pb := patternBins g
      pu := Unpacker.fresh p.symbolBits.toNat p.payloadLen.toNat }

/-- `header_step(s)` (R125). -/
def headerStep (rx : RxEngine) (s : Option (Fin 32)) : SlotResult :=
  match s with
  | none => .quiet rx
  | some k =>
    let r := rx.hu.push k.val
    let next : RxEngine := { rx with hu := r.1, hbytes := storeHeaderBytes rx.hbytes rx.hu.nout r.2 }
    if r.1.nout = 20 then rxValidate next else .quiet next

/-- The withheld symbols, `st.pb[0 .. st.prog - 1]` (R127, 10_state.md R49). -/
def RxEngine.withheld (rx : RxEngine) : List Nat :=
  (rx.pb.toList.take rx.prog.val).filterMap fun bin => bin.map Fin.val

/-- Symbols committed to the payload (R127). -/
def RxEngine.commit (rx : RxEngine) (symbols : List Nat) : SlotResult :=
  let r := rx.pu.pushAll symbols
  ⟨{ rx with pu := r.1 }, r.2, 0#4⟩

/-- `payload_step(s)` (R127). -/
def payloadStep (rx : RxEngine) (s : Option (Fin 32)) : SlotResult :=
  if rx.fits s then
    if h : rx.prog.val + 1 < 6 then .quiet { rx with prog := ⟨rx.prog.val + 1, h⟩ }
    else
      ⟨{ rx with prog := 0, stage := .done, outLen := BitVec.ofNat 32 rx.pu.nout }, [], irqRxDone⟩
  else
    let restarted := rx.retest s
    let data := match s with
      | some k => if restarted.prog = 0 then [k.val] else []
      | none => []
    restarted.commit (rx.withheld ++ data)

/-- One slot (R121): counted in every stage, filtered, and given to the stage's step. -/
def rxStep (rx : RxEngine) (code : Word) : SlotResult :=
  let counted : RxEngine := { rx with slots := rx.slots + 1#32 }
  let seen : RxEngine := { counted with prev := some (rx.slotOf code) }
  match rx.stage with
  | .done => .quiet counted
  | .error => .quiet counted
  | .locate => if rx.duplicate code then .quiet seen else locateStep seen (single code)
  | .header => if rx.duplicate code then .quiet seen else headerStep seen (single code)
  | .payload => if rx.duplicate code then .quiet seen else payloadStep seen (single code)

/-- RX_PUSH_SLOT (R121). The write is admitted whatever the TX engine does (R37). -/
def execRxPushSlot (code : Word) (s : State) : Host.Outcome State Fault Refusal :=
  let r := rxStep s.rx code
  .next (({ s.writeBytes .rx s.rx.pu.nout r.bytes with rx := r.rx }.pend r.irq).acknowledge)

/-- RX_RESET (R129): every RX row of the reset table; the header bytes, which that table leaves unspecified, and
`IRQ_STATUS` keep what they hold. -/
def execRxReset (_ignored : BitVec 30) (s : State) : Host.Outcome State Fault Refusal :=
  .next { s with rx := RxEngine.resetOver s.rx.hbytes }.acknowledge

end Sys2Proof.Machine
end

