-- ==== Sys2Proof/Machine/Control.lean ====
section
/-! DEFINITION. Command completion (45_control.md R135, R136, R137), the resets (R138; 70_reset_and_hazards.md R159,
R160) and the interrupt acknowledge (R139). -/

namespace Sys2Proof.Machine

/-! ### Completion -/

/-- The effect of NOP (R137): none. -/
def effectNop (s : State) : Except ErrorCode State := .ok s

/-- `effect(w)`: the rule of the command word, ILLEGAL_CMD for a word the table of R85 does not list (R135, R136). -/
def effect (w : Word) (s : State) : Except ErrorCode State :=
  match w.toNat with
  | 0 => effectNop s
  | 1 => effectSerializeHeader s
  | 2 => effectParseHeader s
  | 3 => effectPack s
  | 4 => effectUnpack s
  | 5 => effectSynth s
  | 6 => effectBuildFrame s
  | _ => .error .illegalCmd

/-- `complete()`: enabled while a command is pending (R135). -/
def State.complete (s : State) : State :=
  match s.tx.pending with
  | none => s
  | some w =>
    match effect w s with
    | .ok t => t.finish 0#8
    | .error e => s.finish e.code

/-! ### Resets -/

/-- The elements a pending command's rule would write, as byte ranges: address and length (R160). A command that
would end in an error writes nothing. -/
def destination (w : Word) (s : State) : List (Nat × Nat) :=
  let samples (shape : WaveShape) := shape.channelList.map fun c => ((Buffer.samp c).base, 4 * shape.instants)
  match w.toNat with
  | 1 => [(Buffer.hdr.base, 20)]
  | 3 => match checkPack s with | .ok n => [(Buffer.sym.base, 4 * n)] | .error _ => []
  | 4 => match checkUnpack s with | .ok count => [(Buffer.unp.base, count)] | .error _ => []
  | 5 => match checkSynth s with | .ok shape => samples shape | .error _ => []
  | 6 => match checkBuildFrame s with | .ok shape => samples shape | .error _ => []
  | _ => []

/-- The bytes drawn for a range that the spec leaves unspecified. -/
def unspecifiedBytes (draw a n : Nat) : List Byte := (List.range n).map fun j => Config.unspecifiedByte draw (a + j)

/-- Each range of a list takes unspecified values. -/
def Memory.unspecify (m : Memory) (draw : Nat) (ranges : List (Nat × Nat)) : Memory :=
  ranges.foldl (fun m r => m.store r.1 (unspecifiedBytes draw r.1 r.2)) m

/-- The header bytes drawn at a reset, which R51 leaves unspecified. -/
def unspecifiedHeader (draw : Nat) : Vector Byte 20 :=
  ⟨((List.range 20).map (Config.unspecifiedHeaderByte draw)).toArray, by simp⟩

/-- `soft_reset()` (R160): the destination of a pending command becomes unspecified, the command is dropped with no
completion, and every register and piece of internal state takes its reset value. -/
def State.softReset (s : State) : State :=
  { State.reset with
    rx := RxEngine.resetOver (unspecifiedHeader s.nextDraw)
    mem := match s.tx.pending with
      | some w => s.mem.unspecify s.nextDraw (destination w s)
      | none => s.mem
    port := s.port, agenda := s.agenda, nextDraw := s.nextDraw + 1, bufferDraw := s.bufferDraw }

/-- A power-on reset (R159): as the state after reset, with buffers of unspecified content. What the world outside
will do next is no part of the engine and stays. -/
def State.powerOn (s : State) : State :=
  { State.reset with
    rx := RxEngine.resetOver (unspecifiedHeader s.nextDraw)
    agenda := s.agenda, nextDraw := s.nextDraw + 1, bufferDraw := s.nextDraw }

/-! ### The instructions -/

/-- NOP: the write to `TX_CMD` is accepted (R137, R134). -/
def execNop (s : State) : Host.Outcome State Fault Refusal := .next (s.acceptCommand 0x00000000#32)

/-- An illegal command word: accepted like any other; it completes with ILLEGAL_CMD (R136, R134). -/
def execIllegalCmd (word : Word) (s : State) : Host.Outcome State Fault Refusal := .next (s.acceptCommand word)

/-- SOFT_RESET (R138). The write is admitted while a command is pending. -/
def execSoftReset (_ignored : BitVec 31) (s : State) : Host.Outcome State Fault Refusal :=
  .next s.softReset.acknowledge

/-- IRQ_ACK (R139): a written 1 clears its pending bit. -/
def execIrqAck (_ignored : BitVec 28) (clear : BitVec 4) (s : State) : Host.Outcome State Fault Refusal :=
  .next { s with irqStatus := s.irqStatus &&& ~~~clear }.acknowledge

end Sys2Proof.Machine
end

