-- ==== Sys2Proof/Machine/Dispatch.lean ====
section
/-! DEFINITION. The meaning of each instruction, one arm for each row of the opcode table. -/

namespace Sys2Proof.Machine

def exec (i : Instr) (s : State) : Host.Outcome State Fault Refusal :=
  match i with
  -- the commands: 32-bit writes to TX_CMD
  | .nop => Sys2Proof.Machine.execNop s
  | .serializeHeader => Sys2Proof.Machine.execSerializeHeader s
  | .parseHeader => Sys2Proof.Machine.execParseHeader s
  | .pack => Sys2Proof.Machine.execPack s
  | .unpack => Sys2Proof.Machine.execUnpack s
  | .synth => Sys2Proof.Machine.execSynth s
  | .buildFrame => Sys2Proof.Machine.execBuildFrame s
  | .illegalCmd word => Sys2Proof.Machine.execIllegalCmd word s
  -- the register operations
  | .rxPushSlot code => Sys2Proof.Machine.execRxPushSlot code s
  | .softReset ignored => Sys2Proof.Machine.execSoftReset ignored s
  | .rxReset ignored => Sys2Proof.Machine.execRxReset ignored s
  | .irqAck ignored clear => Sys2Proof.Machine.execIrqAck ignored clear s
  -- plain bus accesses
  | .busWrite8 addr data => Sys2Proof.Machine.execBusWrite8 addr data s
  | .busWrite16 addr data => Sys2Proof.Machine.execBusWrite16 addr data s
  | .busWrite32 addr data => Sys2Proof.Machine.execBusWrite32 addr data s
  | .busRead8 addr data => Sys2Proof.Machine.execBusRead8 addr data s
  | .busRead16 addr data => Sys2Proof.Machine.execBusRead16 addr data s
  | .busRead32 addr data => Sys2Proof.Machine.execBusRead32 addr data s

end Sys2Proof.Machine
end

