-- ==== Sys2Proof/Machine/Advance.lean ====
section
/-! DEFINITION. What the next step of the engine is (20_memory.md R69; 45_control.md R135): the next event of the
agenda, and where there is none the completion of a pending command. -/

namespace Sys2Proof.Machine

/-- The state once its next event has been taken from the agenda. -/
def State.takeEvent (s : State) : State := { s with agenda := s.agenda.tail }

/-- A host's transaction: decoded (30_encoding.md R87) and executed. -/
def State.runTransaction (s : State) (t : Transaction) : Host.Outcome State Fault Refusal :=
  match decode t with
  | .ok i => exec i s
  | .error why => .refused (.noSuchTransaction t why)

/-- One event. -/
def State.runEvent (s : State) : Event → Host.Outcome State Fault Refusal
  | .bus t => s.runTransaction t
  | .completion => .next s.complete
  | .powerOn => .next s.powerOn

/-- One step. With nothing on the agenda a pending command completes, since completion is eventually taken (R135);
an idle engine waits (70_reset_and_hazards.md R161). -/
def State.advance (s : State) : Host.Outcome State Fault Refusal :=
  match s.agenda.head? with
  | some e => s.takeEvent.runEvent e
  | none => .next s.complete

/-- An event put before all others. -/
def State.offer (s : State) (e : Event) : State := { s with agenda := e :: s.agenda }

end Sys2Proof.Machine
end

