-- ==== Sys2Proof/Machine/Step.lean ====
section
/-! DEFINITION. The step of the machine, and where the host places an instruction that the next step is to run. -/

namespace Sys2Proof.Machine

/-- One step of the engine's total order of steps (20_memory.md R69). -/
def step (s : State) : Host.Outcome State Fault Refusal := s.advance

/-- The transaction stands first on the agenda: the next step is that bus access. -/
def State.withFetchWord (s : State) (nbits w : Nat) : State := s.offer (.bus (tableWord nbits w))

end Sys2Proof.Machine
end

