-- ==== Sys2Proof/Safety.lean ====
section
/-! DEFINITION. The terms that claims use: what a run is, which states are sound, and what an instruction leaves
alone. -/

namespace Sys2Proof.Machine

/-! ### Runs -/

/-- `n` steps, stopping at the first that gives no next state. -/
def runSteps : Nat → State → Host.Outcome State Fault Refusal
  | 0, s => .next s
  | n + 1, s =>
    match step s with
    | .next t => runSteps n t
    | .fault f => .fault f
    | .refused r => .refused r

/-- Every bus event to come is a word that a bus port can carry (30_encoding.md R83, R87). -/
def State.agendaDecodes (s : State) : Prop := ∀ t, Event.bus t ∈ s.agenda → ∃ i, decode t = .ok i

/-- The receiver after a sequence of `RX_SLOT` writes, and all the bytes they write to `RX_BUF` (44_receiver.md
R121, R131). -/
def rxFeed : RxEngine → List Word → RxEngine × List Byte
  | rx, [] => (rx, [])
  | rx, code :: codes =>
    let r := rxStep rx code
    let rest := rxFeed r.rx codes
    (rest.1, r.bytes ++ rest.2)

/-- The slot code of a single bin (30_encoding.md R79). -/
def slotCode (k : Nat) : Word := BitVec.ofNat 32 (2 ^ k)

/-- The candidates a receiver on one grid accepts from slot codes that follow the accepted code `before`: oversampling
duplicates dropped, and of the others the single ones (44_receiver.md R122, R123). -/
def acceptedSymbols (before : Word) (codes : List Word) : List Nat :=
  ((before :: codes).destutter (· ≠ ·)).tail.filterMap fun code => (single code).map Fin.val

/-- The candidates the receiver accepts from slot codes on its current grid, whatever the slot it remembers and the grid
that one was read on: the first code passes the duplicate filter as it stands (44_receiver.md R122, R123). -/
def RxEngine.acceptedFrom (rx : RxEngine) : List Word → List Nat
  | [] => []
  | code :: codes =>
    (if rx.duplicate code then [] else ((single code).map Fin.val).toList) ++ acceptedSymbols code codes

/-! ### Frequencies -/

/-- `val(x)` of a finite binary32 pattern (00_scope.md R11): sign, exponent and fraction as IEEE-754 reads them. It means
nothing for an infinity or a NaN. -/
def binary32Value (x : Word) : ℚ :=
  let exponent := (x.extractLsb' 23 8).toNat
  let fraction : ℚ := (x.extractLsb' 0 23).toNat / 2 ^ 23
  let magnitude := if exponent = 0 then fraction / 2 ^ 126 else (1 + fraction) * 2 ^ exponent / 2 ^ 127
  if x.msb then -magnitude else magnitude

/-! ### Commands -/

/-- The word a command instruction writes to `TX_CMD` (30_encoding.md R85); none for the other instructions. -/
def commandWord : Instr → Option Word
  | .nop => some 0x00#32
  | .serializeHeader => some 0x01#32
  | .parseHeader => some 0x02#32
  | .pack => some 0x03#32
  | .unpack => some 0x04#32
  | .synth => some 0x05#32
  | .buildFrame => some 0x06#32
  | .illegalCmd word => some word
  | .rxPushSlot _ => none
  | .softReset _ => none
  | .rxReset _ => none
  | .irqAck _ _ => none
  | .busWrite8 _ _ => none
  | .busWrite16 _ _ => none
  | .busWrite32 _ _ => none
  | .busRead8 _ _ => none
  | .busRead16 _ _ => none
  | .busRead32 _ _ => none

/-- The instruction is a soft reset. -/
def isSoftReset : Instr → Bool
  | .softReset _ => true
  | .nop | .serializeHeader | .parseHeader | .pack | .unpack | .synth | .buildFrame | .illegalCmd _
  | .rxPushSlot _ | .rxReset _ | .irqAck _ _
  | .busWrite8 _ _ | .busWrite16 _ _ | .busWrite32 _ _ | .busRead8 _ _ | .busRead16 _ _ | .busRead32 _ _ => false

/-- The instruction acts on the receiver: a slot or a reset. -/
def actsOnReceiver : Instr → Bool
  | .rxPushSlot _ | .softReset _ | .rxReset _ => true
  | .nop | .serializeHeader | .parseHeader | .pack | .unpack | .synth | .buildFrame | .illegalCmd _ | .irqAck _ _
  | .busWrite8 _ _ | .busWrite16 _ _ | .busWrite32 _ _ | .busRead8 _ _ | .busRead16 _ _ | .busRead32 _ _ => false

/-- The access was admitted; the port's read data is `d`, which means nothing for a write. -/
def State.answered (s : State) (d : Word) : State := { s with port := some ⟨false, d⟩ }

/-- The access was a bus error (20_memory.md R59): read data 0, nothing else changed. -/
def State.rejected (s : State) : State := { s with port := some ⟨true, 0#32⟩ }

/-- An accepted command that has completed with an error, seen from the state before its acceptance: its status and
its interrupt bit; nothing else differs (45_control.md R134, R135). -/
def State.afterFailure (s : State) (cmd code : Byte) : State :=
  { s with
    tx := { s.tx with pending := none, done := true, err := code, lastCmd := cmd }
    irqStatus := s.irqStatus ||| 2#4 }

/-- An accepted command that has completed without error, seen from the state before its acceptance: the TX engine
with the registers its rule writes, the memory, its status and its interrupt bit (R134, R135). -/
def State.afterSuccess (s : State) (cmd : Byte) (tx : TxEngine) (mem : Memory) : State :=
  { s with
    tx := { tx with pending := none, done := true, err := 0#8, lastCmd := cmd }
    mem := mem, irqStatus := s.irqStatus ||| 1#4 }

/-- The five fields of a header, in the record's order (30_encoding.md R81). -/
def Params.fields (p : Params) : List Word := [p.symbolBits, p.baseFreq, p.step, p.modulation, p.payloadLen]

/-- The big-endian word of bytes `o` to `o + 3` of `HDR_BUF` (40_header_codec.md R93). -/
def State.headerWord (s : State) (o : Nat) : Word :=
  s.byteAt .hdr o ++ s.byteAt .hdr (o + 1) ++ s.byteAt .hdr (o + 2) ++ s.byteAt .hdr (o + 3)

/-- The big-endian word of bytes `o` to `o + 3` of `st.hbytes` (44_receiver.md R126). -/
def RxEngine.headerWord (rx : RxEngine) (o : Nat) : Word :=
  let byte (i : Nat) : Byte := rx.hbytes.toList.getD i 0#8
  byte o ++ byte (o + 1) ++ byte (o + 2) ++ byte (o + 3)

/-- The registers whose access column is RW (10_state.md R17). -/
def Reg.readWrite : Reg → Bool
  | .irqEnable
  | .txSymbolBits | .txBaseFreq | .txStep | .txModulation | .txPayloadLen | .txReplication | .txSampleRate
  | .txSymCount | .txHdrAvail => true
  | .id | .ctrl | .irqStatus | .txCmd | .txStatus | .txOutLen | .txOutChannels
  | .phSymbolBits | .phBaseFreq | .phStep | .phModulation | .phPayloadLen
  | .rxSlot | .rxStatus | .rxSymbolBits | .rxBaseFreq | .rxStep | .rxModulation | .rxPayloadLen | .rxOutLen
  | .rxGridBase | .rxGridStep | .rxGridBins | .rxHdrBits | .rxPayBytes | .rxSlotCount | .rxPrevCode => false
  | .txPhase _ | .txHold _ => false

/-- The number a sequence of bytes spells, first byte most significant. -/
def bytesValue (bytes : List Byte) : Nat := bytes.foldl (fun n b => 256 * n + b.toNat) 0

/-! ### What is left alone -/

/-- Every byte outside the address range `[lo, lo + n)` reads as before. -/
def KeepsBytesOutside (s t : State) (lo n : Nat) : Prop :=
  ∀ b i, ¬(lo ≤ b.base + i ∧ b.base + i < lo + n) → t.byteAt b i = s.byteAt b i

/-- Every byte of every buffer reads as before. -/
def KeepsBytes (s t : State) : Prop := ∀ b i, t.byteAt b i = s.byteAt b i

/-- Every byte outside the given address ranges reads as before. -/
def KeepsBytesOutsideAll (s t : State) (ranges : List (Nat × Nat)) : Prop :=
  ∀ b i, (∀ r ∈ ranges, ¬(r.1 ≤ b.base + i ∧ b.base + i < r.1 + r.2)) → t.byteAt b i = s.byteAt b i

/-- Every byte of the buffers that the busy window closes reads as before (20_memory.md R60). -/
def KeepsTxBuffers (s t : State) : Prop := ∀ b i, b.txSide = true → i < b.size → t.byteAt b i = s.byteAt b i

/-! ### Sound states -/

/-- Every listed address is a byte that its buffer stores. -/
def Memory.inside (m : Memory) : Prop := ∀ c ∈ m, ∃ b : Buffer, b.base ≤ c.1 ∧ c.1 < b.base + b.storable

/-- `TX_STATUS` is one of its legal words (10_state.md R33, R47; 45_control.md R134, R135): after a reset, while a
command is pending, or after a completion. -/
structure TxEngine.Sound (tx : TxEngine) : Prop where
  /-- While a command is pending: not done, no error, its opcode field recorded. -/
  busy : ∀ w, tx.pending = some w → tx.done = false ∧ tx.err = 0#8 ∧ tx.lastCmd = w.setWidth 8
  /-- Before the first command since a reset. -/
  fresh : tx.pending = none → tx.done = false → tx.err = 0#8 ∧ tx.lastCmd = 0#8 ∧ tx.outLen = 0#32
  /-- The codes of 60_exceptions.md R142. -/
  code : tx.err.toNat ≤ 0x0B

/-- The stage reads slots on the base grid. -/
def Stage.onBaseGrid : Stage → Bool
  | .locate | .header | .error => true
  | .payload | .done => false

/-- What holds of every receiver state that a run can reach (10_state.md R38 to R43, R48, R49; 44_receiver.md). -/
structure RxEngine.Sound (rx : RxEngine) : Prop where
  /-- Locate, Header and Error are on the base grid, with its pattern bins (R41). -/
  base : rx.stage.onBaseGrid = true →
    rx.grid = Grid.baseGrid ∧ rx.pb = #v[some 0, some 2, some 1, some 2, some 0, some 2]
  /-- Payload and Done are on the accepted header's grid (R41, R126). -/
  negotiated : rx.stage.onBaseGrid = false →
    rx.grid = ⟨rx.neg.baseFreq, rx.neg.step⟩ ∧ finite rx.grid.base = true ∧ stepLegal rx.grid.step = true
      ∧ rx.pb = patternBins rx.grid ∧ rx.pu.sb = rx.neg.symbolBits.toNat ∧ rx.pu.target = rx.neg.payloadLen.toNat
  /-- The header unpacker (R125, R162). -/
  headerUnpacker : rx.hu.sb = 1 ∧ rx.hu.target = 20 ∧ rx.hu.nacc < 8 ∧ rx.hu.nout ≤ 20
    ∧ (rx.stage = .header → rx.hu.nout < 20)
  /-- The payload unpacker (R126, R127). -/
  payloadUnpacker : 1 ≤ rx.pu.sb ∧ rx.pu.sb ≤ 4 ∧ rx.pu.target ≤ 4096 ∧ rx.pu.nacc < 8 ∧ rx.pu.nout ≤ rx.pu.target
  /-- No payload byte before Payload (R64). -/
  noBytes : rx.stage.onBaseGrid = true → rx.pu.nout = 0
  /-- `RX_OUT_LEN` (R40). -/
  outLen : rx.outLen = if rx.stage = .done then BitVec.ofNat 32 rx.pu.nout else 0#32
  /-- `RX_STATUS.ERR` (R38). -/
  err : rx.err = 0#8 ↔ rx.stage ≠ .error
  /-- The received header fields read 0 until the header completes (R39). -/
  unset : rx.stage = .locate ∨ rx.stage = .header → rx.neg = ⟨0#32, 0#32, 0#32, 0#32, 0#32⟩
  /-- Only the matching stages have progress. -/
  idle : rx.stage = .header ∨ rx.stage = .done ∨ rx.stage = .error → rx.prog = 0
  /-- Every withheld symbol is a bin (R127). -/
  withheldBins : ∀ i : Fin 6, i < rx.prog → (rx.pb[i]).isSome = true

/-- Every byte the receiver has unpacked is a byte it wrote: a bus read of `RX_BUF` never shows unspecified content
(20_memory.md R64). -/
def State.receivedBytesWritten (s : State) : Prop :=
  ∀ i, i < s.rx.pu.nout → (s.mem.peek (Buffer.rx.base + i)).isSome = true

/-- What holds of every state that a run from the reset state can reach. -/
structure State.Sound (s : State) : Prop where
  /-- The memory has its canonical form. -/
  canonical : s.mem.wf
  /-- It lists bytes of buffers only. -/
  inside : s.mem.inside
  /-- The TX engine's status is legal. -/
  tx : s.tx.Sound
  /-- The receiver is sound. -/
  rx : s.rx.Sound
  /-- The received bytes are in `RX_BUF`. -/
  received : s.receivedBytesWritten

end Sys2Proof.Machine
end

