-- ==== Sys2Proof/Certificates/Slice0/Obligations.lean ====
section
/-! DEFINITION. The statements for the provers. Each names the rules of spec/ it rests on. The field `port` holds the
answer to the last access (log entry 9); the fields `agenda`, `nextDraw` and `bufferDraw` are the model's own (log
entries 1 and 3): where a statement speaks of them, it is about the model. -/

open Sys2Proof Sys2Proof.Machine

/-! ### Encoding and the step -/

/-- Every instruction that stands for a transaction word is decoded from its word (30_encoding.md R85, R86, R87). -/
def Obligations.DecodeOfEncode : Prop := ∀ i : Instr, i.WellFormed → decode (encode i) = .ok i

/-- Every word that decodes is the word of a well-formed instruction: no bit of it is dropped (R83, R87). -/
def Obligations.EncodeOfDecode : Prop :=
  ∀ (t : Transaction) (i : Instr), decode t = .ok i → i.WellFormed ∧ encode i = t

/-- A word decodes exactly when its bits 63:60 are 0 and its `SIZE` is not 3 (R87, R89). -/
def Obligations.DecodeDefinedExactly : Prop :=
  ∀ t : Transaction, (∃ i, decode t = .ok i) ↔ spareField t = 0#4 ∧ sizeField t ≠ 3#2

/-- A few words written out from the fields of R83 and the addresses of 10_state.md R17. -/
def Obligations.SampleWordsDecode : Prop :=
  decode 0x0C00003400000003#64 = .ok .pack
    ∧ decode 0x0C00003400000107#64 = .ok (.illegalCmd 0x107#32)
    ∧ decode 0x0C00008000000004#64 = .ok (.rxPushSlot 4#32)
    ∧ decode 0x0C00000400000003#64 = .ok (.softReset 1#31)
    ∧ decode 0x0C00000400000006#64 = .ok (.rxReset 1#30)
    ∧ decode 0x0C00000800000001#64 = .ok (.irqAck 0#28 1#4)
    ∧ decode 0x0A00100200003DA5#64 = .ok (.busWrite16 0x1002#25 0x3DA5#32)
    ∧ decode 0x0000200500000000#64 = .ok (.busRead8 0x2005#25 0#32)
    ∧ decode 0x0600000000000000#64 = .error .sizeReserved

/-- A step runs the instruction its next bus event decodes to, on the state with that event taken (R87;
20_memory.md R69; log entry 1). -/
def Obligations.StepRunsDecodedInstruction : Prop :=
  ∀ (s : State) (t : Transaction) (i : Instr) (rest : List Event),
    s.agenda = .bus t :: rest → decode t = .ok i → step s = exec i { s with agenda := rest }

/-- The other steps: a completion, a power-on reset, an empty agenda, and a word no port can carry (20_memory.md R69;
45_control.md R135; the model's choice of events, log entries 1, 11, 14 and 15). -/
def Obligations.StepTakesOtherEvents : Prop :=
  ∀ s : State,
    (∀ rest, s.agenda = .completion :: rest → step s = .next ({ s with agenda := rest } : State).complete)
    ∧ (∀ rest, s.agenda = .powerOn :: rest → step s = .next ({ s with agenda := rest } : State).powerOn)
    ∧ (∀ t why rest, s.agenda = .bus t :: rest → decode t = .error why →
        step s = .refused (.noSuchTransaction t why))
    ∧ (s.agenda = [] → step s = .next s.complete)

/-! ### Commands -/

/-- A command word is accepted when no command is pending, whatever the word, and is a bus error otherwise; nothing
else changes (45_control.md R134; 20_memory.md R60). -/
def Obligations.CommandWriteAcceptedOrRefused : Prop :=
  ∀ (i : Instr) (w : Word) (s : State), commandWord i = some w →
    (s.tx.pending = none → ∃ d, exec i s = .next (({ s with
      tx := { s.tx with pending := some w, done := false, err := 0#8, lastCmd := w.setWidth 8 } } : State).answered d))
    ∧ (s.tx.pending.isSome = true → exec i s = .next s.rejected)

/-- NOP (45_control.md R137): it completes, and only its status and interrupt bit change. -/
def Obligations.NopCompletes : Prop :=
  ∀ s : State, s.tx.pending = none →
    ∃ t d, exec .nop s = .next t ∧ t.tx.pending = some 0#32
      ∧ t.complete = (s.afterSuccess 0x00#8 s.tx s.mem).answered d
      ∧ t.complete.readReg .txStatus = 0x00000002#32

/-- An illegal command word is accepted and completes with ILLEGAL_CMD and no other effect (R136). -/
def Obligations.IllegalCmdCompletes : Prop :=
  ∀ (word : Word) (s : State), 0x06 < word.toNat → s.tx.pending = none →
    ∃ t d, exec (.illegalCmd word) s = .next t ∧ t.tx.pending = some word
      ∧ t.complete = (s.afterFailure (word.setWidth 8) 0x01#8).answered d

/-- SERIALIZE_HEADER (40_header_codec.md R92): byte `4f + j` of `HDR_BUF` is bits `31 - 8j : 24 - 8j` of field `f`;
the other registers and bytes are unchanged. -/
def Obligations.SerializeHeaderCompletes : Prop :=
  ∀ s : State, s.tx.pending = none →
    ∃ t d m, exec .serializeHeader s = .next t ∧ t.tx.pending = some 1#32
      ∧ t.complete
        = (s.afterSuccess 0x01#8 { s.tx with hdrAvail := 20#32, outLen := 20#32, outChannels := 0#32 } m).answered d
      ∧ (∀ f j, f < 5 → j < 4 →
          t.complete.byteAt .hdr (4 * f + j) = (s.tx.params.fields.getD f 0#32).extractLsb' (24 - 8 * j) 8)
      ∧ KeepsBytesOutside s t.complete 0x0002000 20

/-- PARSE_HEADER (R93): HEADER_DECODE with fewer than 20 bytes, else the five big-endian words of `HDR_BUF`. -/
def Obligations.ParseHeaderCompletes : Prop :=
  ∀ s : State, s.tx.pending = none →
    ∃ t d, exec .parseHeader s = .next t ∧ t.tx.pending = some 2#32
      ∧ t.complete =
        if s.tx.hdrAvail.toNat < 20 then (s.afterFailure 0x02#8 0x0B#8).answered d
        else
          (s.afterSuccess 0x02#8
            { s.tx with
              parsed := ⟨s.headerWord 0, s.headerWord 4, s.headerWord 8, s.headerWord 12, s.headerWord 16⟩
              outLen := 0#32, outChannels := 0#32 }
            s.mem).answered d

/-- SERIALIZE_HEADER and then PARSE_HEADER give every field back, bit for bit, whatever happened between that left
`HDR_BUF` and `TX_HDR_AVAIL` alone (R94). -/
def Obligations.HeaderCommandsRoundTrip : Prop :=
  ∀ s t v u : State, s.tx.pending = none → exec .serializeHeader s = .next t →
    v.tx.pending = none → v.tx.hdrAvail = t.complete.tx.hdrAvail →
    (∀ i, i < 20 → v.byteAt .hdr i = t.complete.byteAt .hdr i) →
    exec .parseHeader v = .next u → u.complete.tx.parsed = s.tx.params

/-- PACK (41_symbol_codec.md R101): the checks in order, then the packed symbols in `SYM_BUF`. -/
def Obligations.PackCompletes : Prop :=
  ∀ s : State, s.tx.pending = none →
    ∃ t d, exec .pack s = .next t ∧ t.tx.pending = some 3#32 ∧
      let sb := s.tx.params.symbolBits.toInt
      let len := s.tx.params.payloadLen.toNat
      let r := s.tx.replication.toNat
      let n := (8 * len + (sb.toNat - 1)) / sb.toNat * r
      if ¬(1 ≤ sb ∧ sb ≤ 16) then t.complete = (s.afterFailure 0x03#8 0x04#8).answered d
      else if r = 0 then t.complete = (s.afterFailure 0x03#8 0x07#8).answered d
      else if 4096 < len then t.complete = (s.afterFailure 0x03#8 0x09#8).answered d
      else if 262144 < n then t.complete = (s.afterFailure 0x03#8 0x0A#8).answered d
      else
        (∃ m, t.complete = (s.afterSuccess 0x03#8
          { s.tx with symCount := BitVec.ofNat 32 n, outLen := BitVec.ofNat 32 n, outChannels := 0#32 } m).answered d)
        ∧ (∀ j, j < n → t.complete.wordAt .sym j
            = BitVec.ofNat 32 ((packSymbols (s.readBytes .tx 0 len) sb.toNat r).getD j 0))
        ∧ KeepsBytesOutside s t.complete 0x0100000 (4 * n)

/-- UNPACK (R102): the checks in order, then the unpacked bytes in `UNP_BUF`. What is unpacked (41_symbol_codec.md R99,
R100): of the symbols, raw duplicates dropped and then a leading sentinel, a sentinel stands for the symbol resolved
before it; the low `sB` bits of each resolved bin minus 1, most significant first, are the bit stream, and its first
`T` whole bytes come out. The same for one symbol given to an unpacker in any state. -/
def Obligations.UnpackCompletes : Prop :=
  (∀ s : State, s.tx.pending = none →
    ∃ t d, exec .unpack s = .next t ∧ t.tx.pending = some 4#32 ∧
      let sb := s.tx.params.symbolBits.toInt
      let count := s.tx.params.payloadLen.toNat
      let out := unpackSymbols ((s.readWords .sym 0 s.tx.symCount.toNat).map BitVec.toNat) sb.toNat count
      if ¬(1 ≤ sb ∧ sb ≤ 16) then t.complete = (s.afterFailure 0x04#8 0x04#8).answered d
      else if 4096 < count ∨ 262144 < s.tx.symCount.toNat then
        t.complete = (s.afterFailure 0x04#8 0x09#8).answered d
      else
        (∃ m, t.complete = (s.afterSuccess 0x04#8
          { s.tx with outLen := BitVec.ofNat 32 out.length, outChannels := 0#32 } m).answered d)
        ∧ (∀ j, j < out.length → t.complete.byteAt .unp j = out.getD j 0#8)
        ∧ out.length ≤ count
        ∧ KeepsBytesOutside s t.complete 0x0003000 out.length)
  ∧ (∀ (symbols : List Nat) (sb count : Nat),
      let kept := (symbols.destutter (· ≠ ·)).dropWhile (· == 0)
      let out := unpackSymbols symbols sb count
      ∃ resolved : List Nat, resolved.length = kept.length
        ∧ (∀ i, i < kept.length → resolved.getD i 0 =
            if kept.getD i 0 = 0 then resolved.getD (i - 1) 0 else kept.getD i 0)
        ∧ out.length = min count (sb * kept.length / 8)
        ∧ ∀ i, i < out.length → out.getD i 0#8 = BitVec.ofNat 8
            (resolved.foldl (fun n bin => 2 ^ sb * n + (bin - 1) % 2 ^ sb) 0 / 2 ^ (sb * kept.length - 8 * (i + 1))))
  ∧ ∀ (u : Unpacker) (symbol : Nat),
      (u.target ≤ u.nout ∨ u.prevRaw = some symbol → u.push symbol = (u, []))
      ∧ (u.nout < u.target → u.prevRaw ≠ some symbol → symbol = 0 → u.prevRes = none →
          u.push symbol = ({ u with prevRaw := some 0 }, []))
      ∧ ∀ res, u.nout < u.target → u.prevRaw ≠ some symbol → u.nacc < 8 →
          (symbol = 0 ∧ u.prevRes = some res ∨ symbol ≠ 0 ∧ res = symbol) →
          let bits := u.nacc + u.sb
          let n := u.acc.toNat * 2 ^ u.sb + (res - 1) % 2 ^ u.sb
          let whole := min (bits / 8) (u.target - u.nout)
          let left := if u.nout + whole = u.target then 0 else bits % 8
          let acc := if bits < 8 then n else n % 2 ^ left
          (u.push symbol).1 = { u with
              prevRaw := some symbol, prevRes := some res
              acc := BitVec.ofNat 8 acc, nacc := left, nout := u.nout + whole }
            ∧ (u.push symbol).2 = (List.range whole).map fun i => BitVec.ofNat 8 (n / 2 ^ (bits - 8 * (i + 1)))

/-- SYNTH (42_synthesizer.md R116): the checks in order, then the waveform of the Direct or BitParallel score, played
from phases and holds of 0. -/
def Obligations.SynthCompletes : Prop :=
  ∀ s : State, s.tx.pending = none →
    ∃ t d, exec .synth s = .next t ∧ t.tx.pending = some 5#32 ∧
      let mod := s.tx.params.modulation.toInt
      let n := s.tx.params.symbolBits.toInt
      let r := s.tx.replication.toNat
      let fs := s.tx.sampleRate.toNat
      let count := s.tx.symCount.toNat
      let g : Grid := ⟨s.tx.params.baseFreq, s.tx.params.step⟩
      let symbols := (s.readWords .sym 0 count).map BitVec.toNat
      let nch := if mod = 0 then 1 else n.toNat
      let instants := if mod = 0 then count else (count + (n.toNat - 1)) / n.toNat * r
      let score := if mod = 0 then directScore g fs symbols else bitParallelScore g fs n.toNat r symbols
      let played := playScore ⟨Vector.replicate 8 0#32, Vector.replicate 8 0#32⟩ score
      if ¬(0 ≤ mod ∧ mod ≤ 2) then t.complete = (s.afterFailure 0x05#8 0x03#8).answered d
      else if mod = 2 then t.complete = (s.afterFailure 0x05#8 0x02#8).answered d
      else if mod = 1 ∧ ¬(1 ≤ n ∧ n ≤ 8) then t.complete = (s.afterFailure 0x05#8 0x04#8).answered d
      else if finite g.base = false then t.complete = (s.afterFailure 0x05#8 0x05#8).answered d
      else if finite g.step = false ∨ scaled g.step ≤ 0 then t.complete = (s.afterFailure 0x05#8 0x06#8).answered d
      else if mod = 1 ∧ r = 0 then t.complete = (s.afterFailure 0x05#8 0x07#8).answered d
      else if fs = 0 then t.complete = (s.afterFailure 0x05#8 0x08#8).answered d
      else if 262144 < count then t.complete = (s.afterFailure 0x05#8 0x09#8).answered d
      else if 262144 < instants then t.complete = (s.afterFailure 0x05#8 0x0A#8).answered d
      else
        (∃ m, t.complete = (s.afterSuccess 0x05#8
          { s.tx with
            phase := played.1.phase, hold := played.1.hold
            outLen := BitVec.ofNat 32 instants, outChannels := BitVec.ofNat 32 nch } m).answered d)
        ∧ (∀ (c : Fin 8) (j : Nat), c.val < nch → j < instants →
            t.complete.wordAt (.samp c) j = (played.2.getD j (Vector.replicate 8 0#32))[c])
        ∧ KeepsBytesOutsideAll s t.complete
            ((List.range nch).map fun c => (0x1000000 + c * 0x100000, 4 * instants))

/-- BUILD_FRAME (43_frame_assembler.md R120): the checks in order, then the waveform of the four segments, played from
phases and holds of 0. -/
def Obligations.BuildFrameCompletes : Prop :=
  ∀ s : State, s.tx.pending = none →
    ∃ t d, exec .buildFrame s = .next t ∧ t.tx.pending = some 6#32 ∧
      let p := s.tx.params
      let mod := p.modulation.toInt
      let sb := p.symbolBits.toInt
      let r := s.tx.replication.toNat
      let fs := s.tx.sampleRate.toNat
      let len := p.payloadLen.toNat
      let g : Grid := ⟨p.baseFreq, p.step⟩
      let baseGrid : Grid := ⟨0x465AC000#32, 0x43FA0000#32⟩
      let bytes := s.readBytes .tx 0 len
      let nch := if mod = 0 then 1 else sb.toNat
      let instants := 172 * r + (8 * len + (sb.toNat - 1)) / sb.toNat * r
      let pattern := [0, 2, 1, 2, 0, 2].flatMap (List.replicate r)
      let payload :=
        if mod = 0 then directScore g fs (packSymbols bytes sb.toNat r)
        else bitParallelScore g fs sb.toNat r (packSymbols bytes 1 1)
      let score := directScore baseGrid fs pattern
        ++ directScore baseGrid fs (packSymbols (headerBytes p) 1 r) ++ payload ++ directScore baseGrid fs pattern
      let played := playScore ⟨Vector.replicate 8 0#32, Vector.replicate 8 0#32⟩ score
      if ¬(0 ≤ mod ∧ mod ≤ 2) then t.complete = (s.afterFailure 0x06#8 0x03#8).answered d
      else if mod = 2 then t.complete = (s.afterFailure 0x06#8 0x02#8).answered d
      else if ¬(1 ≤ sb ∧ sb ≤ if mod = 0 then 16 else 8) then t.complete = (s.afterFailure 0x06#8 0x04#8).answered d
      else if finite g.base = false then t.complete = (s.afterFailure 0x06#8 0x05#8).answered d
      else if finite g.step = false ∨ scaled g.step ≤ 0 then t.complete = (s.afterFailure 0x06#8 0x06#8).answered d
      else if r = 0 then t.complete = (s.afterFailure 0x06#8 0x07#8).answered d
      else if fs = 0 then t.complete = (s.afterFailure 0x06#8 0x08#8).answered d
      else if 4096 < len then t.complete = (s.afterFailure 0x06#8 0x09#8).answered d
      else if 262144 < instants then t.complete = (s.afterFailure 0x06#8 0x0A#8).answered d
      else
        (∃ m, t.complete = (s.afterSuccess 0x06#8
          { s.tx with
            phase := played.1.phase, hold := played.1.hold
            outLen := BitVec.ofNat 32 instants, outChannels := BitVec.ofNat 32 nch } m).answered d)
        ∧ (∀ (c : Fin 8) (j : Nat), c.val < nch → j < instants →
            t.complete.wordAt (.samp c) j = (played.2.getD j (Vector.replicate 8 0#32))[c])
        ∧ KeepsBytesOutsideAll s t.complete
            ((List.range nch).map fun c => (0x1000000 + c * 0x100000, 4 * instants))

/-- A command that ends with an error code has changed its status and set `TX_ERR`, and nothing else (60_exceptions.md
R143, R144, R148). -/
def Obligations.FailedCommandChangesStatusOnly : Prop :=
  ∀ (s : State) (w : Word), s.tx.pending = some w → s.complete.tx.err ≠ 0#8 →
    s.complete = { s with
      tx := { s.tx with pending := none, done := true, err := s.complete.tx.err }
      irqStatus := s.irqStatus ||| 2#4 }

/-! ### The symbol codec -/

/-- Without replication, group `g` of the padded payload has the value of its bits, and is emitted as bin 1 plus that
value, or as the sentinel when the symbol emitted before it is that very bin (41_symbol_codec.md R95, R96, R97). -/
def Obligations.PackedSymbolsRule : Prop :=
  ∀ (bytes : List Byte) (sb g : Nat), 1 ≤ sb →
    let groups := (8 * bytes.length + (sb - 1)) / sb
    let value := bytesValue bytes * 2 ^ (groups * sb - 8 * bytes.length) / 2 ^ (sb * (groups - 1 - g)) % 2 ^ sb
    let emitted := packSymbols bytes sb 1
    g < groups →
      emitted[g]? = some (if 1 ≤ g ∧ emitted[g - 1]? = some (1 + value) then 0 else 1 + value)

/-- The packed length, the range of the bins, and each emitted symbol held `r` times (R98). -/
def Obligations.PackLengthAndReplication : Prop :=
  ∀ (bytes : List Byte) (sb r : Nat), 1 ≤ sb → 1 ≤ r →
    (packSymbols bytes sb r).length = (8 * bytes.length + (sb - 1)) / sb * r
    ∧ (∀ e ∈ packSymbols bytes sb r, e ≤ 2 ^ sb)
    ∧ ∀ j, j < (packSymbols bytes sb r).length → (packSymbols bytes sb r)[j]? = (packSymbols bytes sb 1)[j / r]?

/-- No two consecutive emitted symbols are equal, and the first is never the sentinel (R97). -/
def Obligations.NoAdjacentEmittedRepeat : Prop :=
  ∀ (bytes : List Byte) (sb : Nat), 1 ≤ sb →
    (packSymbols bytes sb 1).IsChain (· ≠ ·) ∧ (packSymbols bytes sb 1).head? ≠ some 0

/-- Unpacking inverts packing, at every replication (R103). -/
def Obligations.UnpackInvertsPack : Prop :=
  ∀ (bytes : List Byte) (sb r : Nat), bytes.length ≤ 4096 → 1 ≤ sb → sb ≤ 16 → 1 ≤ r →
    unpackSymbols (packSymbols bytes sb r) sb bytes.length = bytes

/-! ### The synthesizer -/

/-- The tuning word is a nearest integer to `freq * 2^32 / fs`, modulo 2^32, and a tie goes to the even one
(42_synthesizer.md R106, 00_scope.md R12): frequencies are counted in units of 2^-149 Hz. A pattern is finite when its
exponent field is not all ones, `scaled` counts the value of a finite pattern in that unit, and bin `k` of a grid is
base and `k` steps (00_scope.md R11, 30_encoding.md R76). -/
def Obligations.TuningWordRoundsToNearestEven : Prop :=
  (∀ (g : Grid) (k fs : Nat), 1 ≤ fs →
    ∃ q : Int, tuningWord g k fs = BitVec.ofInt 32 q
      ∧ 2 * (frequency g k * 2 ^ 32 - q * (2 ^ 149 * fs)).natAbs ≤ 2 ^ 149 * fs
      ∧ (2 * (frequency g k * 2 ^ 32 - q * (2 ^ 149 * fs)).natAbs = 2 ^ 149 * fs → q % 2 = 0))
  ∧ (∀ x : Word, finite x = true ↔ x.extractLsb' 23 8 ≠ 0xFF#8)
  ∧ (∀ x : Word, finite x = true → (scaled x : ℚ) = binary32Value x * 2 ^ 149)
  ∧ ∀ (g : Grid) (k : Nat), finite g.base = true → finite g.step = true →
      (frequency g k : ℚ) = (binary32Value g.base + k * binary32Value g.step) * 2 ^ 149

/-- Over any score, from any oscillators, a channel's phase moves by the sum of the tuning words it plays, modulo 2^32:
nothing is reset or lost at a symbol boundary (R107, R111). At every instant a channel that plays outputs SINE of the
phase it has reached, any other outputs its hold value unchanged, and the last output stays in the hold register (R107,
R109, R110); every SINE value is finite and in [-1, 1] (R108). -/
def Obligations.PhaseMovesByTuningWords : Prop :=
  (∀ (o : Oscillators) (score : List Tones) (c : Fin 8),
    let played := playScore o score
    let phaseAfter (n : Nat) : Word :=
      o.phase[c] + (((score.take n).flatten.filter fun tone => tone.1 == c).map (·.2)).sum
    let holdBefore (n : Nat) : Word := ((o.hold :: played.2).getD n o.hold)[c]
    played.1.phase[c] = phaseAfter score.length
      ∧ played.1.hold[c] = holdBefore score.length
      ∧ played.2.length = score.length
      ∧ ∀ j tones, score[j]? = some tones →
          ((∃ tone ∈ tones, tone.1 = c) → (played.2.getD j o.hold)[c] = sine (phaseAfter (j + 1)))
          ∧ ((∀ tone ∈ tones, tone.1 ≠ c) → (played.2.getD j o.hold)[c] = holdBefore j))
  ∧ ∀ p : Word, finite (sine p) = true ∧ (scaled (sine p)).natAbs ≤ 2 ^ 149

/-- A channel that plays no tone keeps its phase and outputs its hold value at every instant (R109, R110). -/
def Obligations.SilentChannelsHold : Prop :=
  ∀ (o : Oscillators) (score : List Tones) (c : Fin 8), (∀ tones ∈ score, ∀ tone ∈ tones, tone.1 ≠ c) →
    (playScore o score).1.phase[c] = o.phase[c] ∧ (playScore o score).1.hold[c] = o.hold[c]
      ∧ (playScore o score).2.length = score.length
      ∧ ∀ frame ∈ (playScore o score).2, frame[c] = o.hold[c]

/-- The Direct scheme: one instant for each symbol, on channel 0, sample `j` at the sum of the first `j + 1` tuning
words (R107, R112). -/
def Obligations.DirectWaveform : Prop :=
  ∀ (g : Grid) (fs : Nat) (symbols : List Nat),
    let played := playScore Oscillators.atStart (directScore g fs symbols)
    let phaseAfter (n : Nat) : Word := ((symbols.take n).map fun k => tuningWord g k fs).sum
    played.2.length = symbols.length
      ∧ played.1.phase[(0 : Fin 8)] = phaseAfter symbols.length
      ∧ ∀ j, j < symbols.length → ∃ frame, played.2[j]? = some frame
          ∧ frame[(0 : Fin 8)] = sine (phaseAfter (j + 1)) ∧ ∀ c : Fin 8, c ≠ 0 → frame[c] = 0#32

/-- The lanes of the lumps: sentinels take the symbol before them in the stream, and the missing lanes of the last lump
are 1 (R113). -/
def Obligations.LumpLanes : Prop :=
  ∀ (n : Nat) (symbols : List Nat), 1 ≤ n →
    ∃ resolved : List Nat, resolved.length = symbols.length
      ∧ (∀ i, i < symbols.length → resolved.getD i 0 =
          if symbols.getD i 0 = 0 ∧ 1 ≤ i then resolved.getD (i - 1) 0 else symbols.getD i 0)
      ∧ (lumpsOf n symbols).length = (symbols.length + (n - 1)) / n
      ∧ ∀ j, j < (symbols.length + (n - 1)) / n → ∃ lanes, (lumpsOf n symbols)[j]? = some lanes ∧ lanes.length = n
          ∧ ∀ c, c < n → lanes.getD c 0 = if j * n + c < symbols.length then resolved.getD (j * n + c) 0 else 1

/-- The kind of each lump: ZERO when every lane is 1, else REPEAT when its lanes are those of the lump before it and
that one is no REPEAT, else DATA (R114). -/
def Obligations.LumpKinds : Prop :=
  ∀ (lumps : List (List Nat)),
    (classifyLumps none lumps).length = lumps.length
    ∧ ∀ j lanes kind, (classifyLumps none lumps)[j]? = some (lanes, kind) →
      lumps[j]? = some lanes
      ∧ (kind = .zero ↔ ∀ v ∈ lanes, v = 1)
      ∧ (kind = .again ↔ ¬(∀ v ∈ lanes, v = 1) ∧ 1 ≤ j
          ∧ ∃ before, (classifyLumps none lumps)[j - 1]? = some (lanes, before) ∧ before ≠ .again)

/-- The BitParallel scheme: each lump's tones for `r` instants (R114, R115): bin 1 or bin 0 on channel 0 for ZERO and
REPEAT, and for DATA bin `c + 2` on every channel `c` whose lane is 2. -/
def Obligations.BitParallelInstants : Prop :=
  ∀ (g : Grid) (fs n r : Nat) (symbols : List Nat), 1 ≤ n → n ≤ 8 → 1 ≤ r →
    (bitParallelScore g fs n r symbols).length = (symbols.length + (n - 1)) / n * r
    ∧ ∀ t, t < (symbols.length + (n - 1)) / n * r →
      ∃ lanes kind tones, (classifyLumps none (lumpsOf n symbols))[t / r]? = some (lanes, kind)
        ∧ (bitParallelScore g fs n r symbols)[t]? = some tones
        ∧ (kind = .zero → tones = [(0, tuningWord g 1 fs)])
        ∧ (kind = .again → tones = [(0, tuningWord g 0 fs)])
        ∧ (kind = .data → (tones.map (·.1)).Nodup ∧ ∀ (c : Fin 8) (w : Word),
            (c, w) ∈ tones ↔ lanes[c.val]? = some 2 ∧ w = tuningWord g (c.val + 2) fs)

/-- The instants of a frame (43_frame_assembler.md R117, R118): `172r` and those of the payload; the Preamble plays its
pattern on channel 0; and before the payload no other channel plays. -/
def Obligations.FrameSegments : Prop :=
  ∀ (s : State) (shape : WaveShape), checkBuildFrame s = .ok shape →
    let r := s.tx.replication.toNat
    let fs := s.tx.sampleRate.toNat
    s.frameScore.length = shape.instants
      ∧ (∀ t, t < 6 * r →
          s.frameScore[t]? = some [(0, tuningWord Grid.baseGrid ([0, 2, 1, 2, 0, 2].getD (t / r) 0) fs)])
      ∧ (∀ t, t < 166 * r → ∃ w, s.frameScore[t]? = some [(0, w)])
      ∧ ∀ t, shape.instants - 6 * r ≤ t → t < shape.instants →
          s.frameScore[t]? = some [(0, tuningWord Grid.baseGrid
            ([0, 2, 1, 2, 0, 2].getD ((t - (shape.instants - 6 * r)) / r) 0) fs)]

/-! ### The receiver -/

/-- RX_PUSH_SLOT (44_receiver.md R121): the write completes in every state; the slot is counted; only the receiver,
the bytes it unpacks and its interrupt bits change. -/
def Obligations.RxPushSlotCompletes : Prop :=
  ∀ (code : Word) (s : State),
    let r := rxStep s.rx code
    ∃ t m d, exec (.rxPushSlot code) s = .next t
      ∧ t = ({ s with rx := r.rx, mem := m, irqStatus := s.irqStatus ||| r.irq } : State).answered d
      ∧ r.rx.slots = s.rx.slots + 1#32
      ∧ (∀ j, j < r.bytes.length → t.byteAt .rx (s.rx.pu.nout + j) = r.bytes.getD j 0#8)
      ∧ KeepsBytesOutside s t (0x0004000 + s.rx.pu.nout) r.bytes.length

/-- A slot moves the stage only from Locate to Header, from Header to Payload or Error, and from Payload to Done; it
sets `RX_DONE` exactly on entry to Done and `RX_ERR` exactly on entry to Error; it unpacks payload bytes in Payload
only (R124 to R128; 10_state.md R21). In Locate and in Payload a duplicate moves nothing; any other slot extends the
match when its one bin is the pattern's next, and otherwise restarts it, at 1 when that bin is the pattern's first, else
at 0; the sixth match, and nothing else, enters Header or Done, with progress 0, and Done with `RX_OUT_LEN` =
`RX_PAY_BYTES` and nothing committed (R123, R124, R127). Header ends with the 20th header byte, and only so; in it a slot
that is no duplicate and has no single bin changes nothing of its own, and one with a single bin gives it to the header
unpacker, whose bytes go into `st.hbytes` from `st.hu.nout` on; the slot that ends Header leaves their five big-endian
words in `RX_SYMBOL_BITS` to `RX_PAYLOAD_LEN` (R125, R126). For each stage the rest of the receiver is unchanged: the
header unpacker, its bytes, the received fields, the grid and the pattern bins last through Payload (10_state.md R39,
R43). -/
def Obligations.StageTransitions : Prop :=
  ∀ (rx : RxEngine) (code : Word),
    let r := rxStep rx code
    let hits (j : Fin 6) : Prop := ∃ k : Fin 32, code = slotCode k.val ∧ rx.pb[j] = some k
    let seen : RxEngine := { rx with slots := rx.slots + 1#32, prev := some ⟨code, rx.grid⟩ }
    (match rx.stage with
      | .locate => r.rx.stage = .locate ∨ r.rx.stage = .header
      | .header => r.rx.stage = .header ∨ r.rx.stage = .payload ∨ r.rx.stage = .error
      | .payload => r.rx.stage = .payload ∨ r.rx.stage = .done
      | .done => r.rx.stage = .done
      | .error => r.rx.stage = .error)
    ∧ r.irq = (if rx.stage ≠ .done ∧ r.rx.stage = .done then 4#4
        else if rx.stage ≠ .error ∧ r.rx.stage = .error then 8#4 else 0#4)
    ∧ (rx.stage ≠ .payload → r.bytes = [])
    ∧ (rx.stage = .locate ∨ rx.stage = .payload →
        (rx.duplicate code = true → r.rx.stage = rx.stage ∧ r.rx.prog = rx.prog)
        ∧ (rx.duplicate code = false → hits rx.prog → rx.prog.val < 5 →
            r.rx.stage = rx.stage ∧ r.rx.prog.val = rx.prog.val + 1)
        ∧ (rx.duplicate code = false → hits rx.prog → rx.prog.val = 5 →
            r.rx.prog = 0 ∧ r.rx.stage = if rx.stage = .locate then .header else .done)
        ∧ (rx.duplicate code = false → ¬hits rx.prog →
            r.rx.stage = rx.stage ∧ (hits 0 → r.rx.prog = 1) ∧ (¬hits 0 → r.rx.prog = 0)))
    ∧ (rx.stage = .locate → r.rx = { seen with
        stage := r.rx.stage, prog := r.rx.prog
        hu := if r.rx.stage = .header then ⟨1, 20, none, none, 0#8, 0, 0⟩ else rx.hu })
    ∧ (rx.stage = .payload →
        r.rx = { seen with stage := r.rx.stage, prog := r.rx.prog, pu := r.rx.pu, outLen := r.rx.outLen }
        ∧ (r.rx.stage ≠ .done → r.rx.outLen = rx.outLen)
        ∧ (r.rx.stage = .done → r.rx.outLen = BitVec.ofNat 32 r.rx.pu.nout ∧ r.rx.pu = rx.pu ∧ r.bytes = []))
    ∧ (rx.stage = .header → rx.duplicate code = false →
        ((∀ k : Fin 32, code ≠ slotCode k.val) → r.rx = seen)
        ∧ ∀ k : Fin 32, code = slotCode k.val →
            let pushed := rx.hu.push k.val
            r.rx.hu = pushed.1
            ∧ (∀ i : Fin 20, r.rx.hbytes[i] =
                if rx.hu.nout ≤ i.val ∧ i.val < rx.hu.nout + pushed.2.length
                then pushed.2.getD (i.val - rx.hu.nout) 0#8 else rx.hbytes[i])
            ∧ (r.rx.stage = .header → r.rx = { seen with hu := r.rx.hu, hbytes := r.rx.hbytes })
            ∧ (r.rx.stage ≠ .header → r.rx.neg =
                ⟨r.rx.headerWord 0, r.rx.headerWord 4, r.rx.headerWord 8, r.rx.headerWord 12, r.rx.headerWord 16⟩)
            ∧ (r.rx.stage = .error → r.rx = { seen with
                stage := .error, prog := 0, hu := r.rx.hu, hbytes := r.rx.hbytes, neg := r.rx.neg, err := r.rx.err })
            ∧ (r.rx.stage = .payload → r.rx = { seen with
                stage := .payload, prog := 0, hu := r.rx.hu, hbytes := r.rx.hbytes, neg := r.rx.neg, grid := r.rx.grid
                pb := r.rx.pb, pu := r.rx.pu }))
    ∧ (rx.stage = .header → (r.rx.stage ≠ .header ↔
        rx.duplicate code = false ∧ ∃ k : Fin 32, code = slotCode k.val ∧ (rx.hu.push k.val).1.nout = 20))
    ∧ ∀ k : Fin 32, single code = some k ↔ code = slotCode k.val

/-- In Done and Error a slot changes the slot count and nothing else (R128). -/
def Obligations.TerminalStagesIgnoreSlots : Prop :=
  ∀ (code : Word) (s : State), s.rx.stage = .done ∨ s.rx.stage = .error →
    ∃ d, exec (.rxPushSlot code) s
      = .next (({ s with rx := { s.rx with slots := s.rx.slots + 1#32 } } : State).answered d)

/-- A slot is a duplicate exactly when its active frequencies, on the grid in force now, are those of the slot before
it, on the grid in force then; so across the change of grid between Header and Payload a copy of the last header symbol
is one still; and on one grid the filter compares codes. With no slot before there is none. The filter remembers the
slot, with its grid, in the stages where it runs, and a duplicate changes nothing else but the count (R122). -/
def Obligations.DuplicateFilterOnOneGrid : Prop :=
  ∀ (rx : RxEngine) (code : Word),
    let active (slot : SlotMemory) (f : Int) : Prop :=
      ∃ k, k < 32 ∧ slot.code.getLsbD k = true ∧ frequency slot.grid k = f
    (rx.prev = none → rx.duplicate code = false)
    ∧ (∀ slot, rx.prev = some slot →
        (rx.duplicate code = true ↔ ∀ f, active slot f ↔ active ⟨code, rx.grid⟩ f)
        ∧ (slot.grid = rx.grid → stepLegal rx.grid.step = true → (rx.duplicate code = true ↔ code = slot.code)))
    ∧ (rx.stage = .locate ∨ rx.stage = .header ∨ rx.stage = .payload →
        (rxStep rx code).rx.prev = some ⟨code, rx.grid⟩
        ∧ (rx.duplicate code = true →
            (rxStep rx code).rx = { rx with slots := rx.slots + 1#32, prev := some ⟨code, rx.grid⟩ }
            ∧ (rxStep rx code).bytes = [] ∧ (rxStep rx code).irq = 0#4))

/-- Both Locate properties (R132): from a reset, the receiver has left Locate exactly when the slot codes, oversampling
duplicates dropped, contain the pattern contiguously; and after five of its six positions a diverging single candidate
leaves Locate with progress 0. -/
def Obligations.LocateFindsThePattern : Prop :=
  ∀ (header : Vector Byte 20) (codes : List Word),
    ((rxFeed (RxEngine.resetOver header) codes).1.stage ≠ .locate ↔
      [1#32, 4#32, 2#32, 4#32, 1#32, 4#32] <:+: codes.destutter (· ≠ ·))
    ∧ ∀ x : Word,
        let rx := (rxFeed (RxEngine.resetOver header) (codes ++ [1#32, 4#32, 2#32, 4#32, 1#32])).1
        rx.stage = .locate → x ≠ 1#32 → x ≠ 4#32 →
          rx.prog = 5 ∧ (rxStep rx x).rx.stage = .locate ∧ (rxStep rx x).rx.prog = 0

/-- A header sent as R117 sends it, one slot for each symbol, is received: after the pattern, the 160 slots leave every
field of any header whose first bit is 0 in `RX_SYMBOL_BITS` to `RX_PAYLOAD_LEN`; the first check of R126 that fails
gives stage Error with its code, and with none the receiver is in Payload on the header's grid, with a fresh payload
unpacker and, as pattern bins, the bins 0 to 31 that are the pattern's frequencies; either way the header unpacker keeps
its 160 bits (10_state.md R43). (A first bit of 1 repeats the
pattern's last frequency and is lost, as in hazard 1 of 70_reset_and_hazards.md R169.) -/
def Obligations.HeaderReception : Prop :=
  ∀ (header : Vector Byte 20) (p : Params), p.symbolBits.msb = false →
    let rx := (rxFeed (RxEngine.resetOver header)
      ([1#32, 4#32, 2#32, 4#32, 1#32, 4#32] ++ (packSymbols (headerBytes p) 1 1).map slotCode)).1
    let rejected (code : Byte) : Prop :=
      rx.stage = .error ∧ rx.err = code ∧ rx.prog = 0 ∧ rx.grid = ⟨0x465AC000#32, 0x43FA0000#32⟩
    let sb := p.symbolBits.toInt
    let mod := p.modulation.toInt
    let len := p.payloadLen.toInt
    let patternHz : Vector Int 6 := #v[14000, 15000, 14500, 15000, 14000, 15000]
    rx.neg = p ∧ rx.hu.nout = 20 ∧ rx.hu.nacc = 0 ∧
      if mod = 1 ∨ mod = 2 then rejected 0x02#8
      else if ¬(0 ≤ mod ∧ mod ≤ 2) then rejected 0x03#8
      else if ¬(1 ≤ sb ∧ sb ≤ 4) then rejected 0x04#8
      else if finite p.baseFreq = false then rejected 0x05#8
      else if finite p.step = false ∨ scaled p.step ≤ 0 then rejected 0x06#8
      else if ¬(0 ≤ len ∧ len ≤ 4096) then rejected 0x09#8
      else rx.stage = .payload ∧ rx.err = 0#8 ∧ rx.prog = 0 ∧ rx.grid = ⟨p.baseFreq, p.step⟩
        ∧ (∀ (j : Fin 6) (k : Fin 32),
            rx.pb[j] = some k ↔ frequency ⟨p.baseFreq, p.step⟩ k.val = patternHz[j] * 2 ^ 149)
        ∧ rx.pu = ⟨sb.toNat, len.toNat, none, none, 0#8, 0, 0⟩

/-- While the receiver stays in Payload no accepted symbol is lost, added or reordered: the committed symbols, followed
by the withheld ones, are those withheld before, followed by the accepted ones; and what is committed is what the
payload unpacker consumed and the bytes it wrote (R127). The slot remembered from before may have been read on another
grid, as after the last header slot (R122). -/
def Obligations.PayloadConservesSymbols : Prop :=
  ∀ (rx : RxEngine) (codes : List Word), rx.stage = .payload → stepLegal rx.grid.step = true →
    (rxFeed rx codes).1.stage = .payload →
    ∃ committed : List Nat,
      committed ++ (rxFeed rx codes).1.withheld = rx.withheld ++ rx.acceptedFrom codes
        ∧ rx.pu.pushAll committed = ((rxFeed rx codes).1.pu, (rxFeed rx codes).2)

/-- When a header is accepted whose grid does not hold all six pattern frequencies as bins 0 to 31, `PAT_OK` reads 0
and no sequence of slots leaves Payload (70_reset_and_hazards.md R170). -/
def Obligations.NoPatternNeverDone : Prop :=
  ∀ (rx : RxEngine) (code : Word), rx.stage = .header → (rxStep rx code).rx.stage = .payload →
    (∃ hz ∈ [14000, 15000, 14500, 15000, 14000, 15000], ∀ k, k < 32 →
      frequency (rxStep rx code).rx.grid k ≠ hz * 2 ^ 149) →
    (rxStep rx code).rx.patOk = false
      ∧ ∀ codes, (rxFeed (rxStep rx code).rx codes).1.stage = .payload

/-- Everything but a slot, a receiver reset and a soft reset leaves the receiver and `RX_BUF` as they were: every other
instruction, and a command's completion (44_receiver.md R131). -/
def Obligations.ReceiverIgnoresOtherSteps : Prop :=
  (∀ (i : Instr) (s t : State), actsOnReceiver i = false → exec i s = .next t →
    t.rx = s.rx ∧ ∀ j, j < 4096 → t.byteAt .rx j = s.byteAt .rx j)
  ∧ ∀ s : State, s.complete.rx = s.rx ∧ ∀ j, j < 4096 → s.complete.byteAt .rx j = s.byteAt .rx j

/-- A completion and a slot write give the same state in both orders (60_exceptions.md R147). -/
def Obligations.SlotAndCompletionCommute : Prop :=
  ∀ (s t : State) (code : Word), s.mem.wf → s.rx.Sound → exec (.rxPushSlot code) s = .next t →
    exec (.rxPushSlot code) s.complete = .next t.complete

/-- RX_RESET (44_receiver.md R129): every RX row of the reset table, in every stage and while a command is pending;
`RX_STATUS` becomes 0x80 and `RX_BUF` reads as 0; nothing else changes, `IRQ_STATUS` included. -/
def Obligations.RxResetCompletes : Prop :=
  ∀ (ignored : BitVec 30) (s : State),
    ∃ t header d, exec (.rxReset ignored) s = .next t
      ∧ t = ({ s with rx :=
          { stage := .locate, prog := 0, prev := none, grid := ⟨0x465AC000#32, 0x43FA0000#32⟩
            pb := #v[some 0, some 2, some 1, some 2, some 0, some 2]
            hu := ⟨1, 20, none, none, 0#8, 0, 0⟩, hbytes := header, pu := ⟨1, 0, none, none, 0#8, 0, 0⟩
            neg := ⟨0#32, 0#32, 0#32, 0#32, 0#32⟩, err := 0#8, outLen := 0#32, slots := 0#32 } } : State).answered d
      ∧ t.readReg .rxStatus = 0x00000080#32
      ∧ ∀ i, t.busByte .rx i = 0#8

/-! ### Resets and interrupts -/

/-- SOFT_RESET (45_control.md R138; 70_reset_and_hazards.md R160): every register and every piece of internal state but
the header bytes takes its reset value, a pending command is dropped, and the buffers keep their content, but for the
elements a pending command was to write. (The agenda, the draw counters and the port's answer are the model's fields.
Which elements those are is the model's reading of R160, log entry 5, DEDUCED and unsafe in one case: a command that
would fail has an empty destination; UNPACK's is the whole target range, as R160 lists it.) -/
def Obligations.SoftResetCompletes : Prop :=
  ∀ (ignored : BitVec 31) (s : State),
    ∃ t m header d, exec (.softReset ignored) s = .next t
      ∧ t = ({ State.reset with
          rx := RxEngine.resetOver header, mem := m
          agenda := s.agenda, nextDraw := s.nextDraw + 1, bufferDraw := s.bufferDraw } : State).answered d
      ∧ (s.tx.pending = none → m = s.mem)
      ∧ (∀ w, s.tx.pending = some w → KeepsBytesOutsideAll s t (destination w s))

/-- The destination of a command is all that its completion writes, and it lies in the TX-side buffers; it is what R160
lists for the command, with the count the command computes. (A command that would end in an error has no destination:
that is the model's reading, log entry 5, DEDUCED.) -/
def Obligations.DestinationCoversCompletion : Prop :=
  ∀ (s : State) (w : Word), s.tx.pending = some w →
    let mod := s.tx.params.modulation.toInt
    let sb := s.tx.params.symbolBits.toNat
    let len := s.tx.params.payloadLen.toNat
    let r := s.tx.replication.toNat
    let count := s.tx.symCount.toNat
    let groups := (8 * len + (sb - 1)) / sb
    let samples (instants : Nat) : List (Nat × Nat) :=
      (List.range (if mod = 0 then 1 else sb)).map fun c => (0x1000000 + c * 0x100000, 4 * instants)
    KeepsBytesOutsideAll s s.complete (destination w s)
      ∧ (∀ range ∈ destination w s, ∃ b : Buffer, b.txSide = true ∧ range.1 = b.base ∧ range.2 ≤ b.storable)
      ∧ destination w s =
        if s.complete.tx.err ≠ 0#8 then []
        else match w.toNat with
          | 1 => [(0x0002000, 20)]
          | 3 => [(0x0100000, 4 * (groups * r))]
          | 4 => [(0x0003000, len)]
          | 5 => samples (if mod = 0 then count else (count + (sb - 1)) / sb * r)
          | 6 => samples (172 * r + groups * r)
          | _ => []

/-- A power-on reset (70_reset_and_hazards.md R159): as the state after reset, with nothing known of any buffer. (The
fresh draw is the model's choice, log entry 3.) -/
def Obligations.PowerOnResets : Prop :=
  ∀ (s : State) (rest : List Event), s.agenda = .powerOn :: rest →
    ∃ header, step s = .next { State.reset with
      rx := RxEngine.resetOver header, agenda := rest, nextDraw := s.nextDraw + 1, bufferDraw := s.nextDraw }

/-- What a read of each register gives after reset (10_state.md R51). -/
def Obligations.ResetRegisterValues : Prop :=
  (∀ k, k < 64 → State.reset.readPage (4 * k) =
    match 4 * k with
    | 0x000 => 0x46534B01#32
    | 0x010 => 1#32
    | 0x014 => 0x465AC000#32
    | 0x018 => 0x43FA0000#32
    | 0x024 => 1#32
    | 0x028 => 44100#32
    | 0x084 => 0x80#32
    | 0x0A0 => 0x465AC000#32
    | 0x0A4 => 0x43FA0000#32
    | 0x0A8 => 3#32
    | _ => 0#32)
  ∧ State.reset.tx.pending = none ∧ State.reset.rx.prev = none ∧ State.reset.irq = false

/-- IRQ_ACK clears the pending bits whose written value is 1 and changes nothing else, busy or not (45_control.md
R139). -/
def Obligations.IrqAckClears : Prop :=
  ∀ (ignored : BitVec 28) (clear : BitVec 4) (s : State),
    ∃ d, exec (.irqAck ignored clear) s = .next (({ s with irqStatus := s.irqStatus &&& ~~~clear } : State).answered d)

/-- The line `irq` is high exactly when some source is both pending and enabled (60_exceptions.md R146). -/
def Obligations.IrqLevel : Prop :=
  ∀ s : State, s.irq = true ↔ ∃ k, k < 4 ∧ s.irqStatus.getLsbD k = true ∧ s.irqEnable.getLsbD k = true

/-- A pending bit stays until an IRQ_ACK or a reset: no other instruction, and no completion, clears one (R146). -/
def Obligations.PendingBitsPersist : Prop :=
  (∀ (i : Instr) (s t : State), isSoftReset i = false → (∀ ignored clear, i ≠ .irqAck ignored clear) →
    exec i s = .next t → s.irqStatus &&& t.irqStatus = s.irqStatus)
  ∧ ∀ s : State, s.irqStatus &&& s.complete.irqStatus = s.irqStatus

/-- A host's access leaves the results of the TX engine alone, a soft reset apart; a completion writes `PH_*` only for
PARSE_HEADER, and phases and holds only for SYNTH and BUILD_FRAME (10_state.md R33 to R36; 42_synthesizer.md R105). -/
def Obligations.ResultsWrittenByTheirCommands : Prop :=
  (∀ (i : Instr) (s t : State), isSoftReset i = false → exec i s = .next t →
    t.tx.parsed = s.tx.parsed ∧ t.tx.phase = s.tx.phase ∧ t.tx.hold = s.tx.hold
      ∧ t.tx.outLen = s.tx.outLen ∧ t.tx.outChannels = s.tx.outChannels)
  ∧ ∀ s : State,
      (s.tx.pending ≠ some 2#32 → s.complete.tx.parsed = s.tx.parsed)
      ∧ (s.tx.pending ≠ some 5#32 → s.tx.pending ≠ some 6#32 →
          s.complete.tx.phase = s.tx.phase ∧ s.complete.tx.hold = s.tx.hold)

/-- While a command is pending no access changes the TX engine or a buffer it uses, a soft reset apart: its operands
are those at acceptance (20_memory.md R60; 45_control.md R134). -/
def Obligations.BusyWindowKeepsOperands : Prop :=
  ∀ (i : Instr) (s t : State), s.tx.pending.isSome = true → s.rx.Sound → isSoftReset i = false →
    exec i s = .next t → t.tx = s.tx ∧ KeepsTxBuffers s t

/-! ### Bus accesses -/

/-- A bus read answers with the value or with a bus error, and changes nothing else; the page answers with the
register, each field in its place and 0 in reserved bits and at reserved offsets, and a buffer with its bytes, least
significant byte first (45_control.md R140; 20_memory.md R55, R58; 10_state.md R17 to R46). (That a word of a word buffer
lies in its four bytes least significant first is the model's choice, log entry 12.) -/
def Obligations.BusReadsAnswer : Prop :=
  (∀ (s : State) (a : Addr) (d : Word),
    exec (.busRead8 a d) s = .next (if s.admits .read 1 a.toNat then s.answered (s.busValue 1 a.toNat) else s.rejected)
    ∧ exec (.busRead16 a d) s
      = .next (if s.admits .read 2 a.toNat then s.answered (s.busValue 2 a.toNat) else s.rejected)
    ∧ exec (.busRead32 a d) s
      = .next (if s.admits .read 4 a.toNat then s.answered (s.busValue 4 a.toNat) else s.rejected))
  ∧ (∀ (s : State) (k : Nat), k < 0x100 →
      s.busValue 4 k = match Reg.atOffset k with | some r => s.readReg r | none => 0#32)
  ∧ (∀ (s : State) (k : Nat), k < 0x30 → 4 * k ≠ 0x0A8 →
      let stage := match s.rx.stage with | .locate => 0 | .header => 1 | .payload => 2 | .done => 3 | .error => 4
      let patOk := ∀ j : Fin 6, (s.rx.pb[j]).isSome = true
      s.busValue 4 (4 * k) =
        match 4 * k with
        | 0x000 => 0x46534B01#32
        | 0x008 => BitVec.ofNat 32 s.irqStatus.toNat
        | 0x00C => BitVec.ofNat 32 s.irqEnable.toNat
        | 0x010 => s.tx.params.symbolBits
        | 0x014 => s.tx.params.baseFreq
        | 0x018 => s.tx.params.step
        | 0x01C => s.tx.params.modulation
        | 0x020 => s.tx.params.payloadLen
        | 0x024 => s.tx.replication
        | 0x028 => s.tx.sampleRate
        | 0x02C => s.tx.symCount
        | 0x030 => s.tx.hdrAvail
        | 0x038 => BitVec.ofNat 32 ((if s.tx.pending.isSome then 1 else 0) + (if s.tx.done then 2 else 0)
            + 2 ^ 8 * s.tx.err.toNat + 2 ^ 16 * s.tx.lastCmd.toNat)
        | 0x03C => s.tx.outLen
        | 0x040 => s.tx.outChannels
        | 0x044 => s.tx.parsed.symbolBits
        | 0x048 => s.tx.parsed.baseFreq
        | 0x04C => s.tx.parsed.step
        | 0x050 => s.tx.parsed.modulation
        | 0x054 => s.tx.parsed.payloadLen
        | 0x084 => BitVec.ofNat 32 (stage + 2 ^ 3 * s.rx.prog.val + (if s.rx.prev.isSome then 2 ^ 6 else 0)
            + (if patOk then 2 ^ 7 else 0) + 2 ^ 8 * s.rx.err.toNat)
        | 0x088 => s.rx.neg.symbolBits
        | 0x08C => s.rx.neg.baseFreq
        | 0x090 => s.rx.neg.step
        | 0x094 => s.rx.neg.modulation
        | 0x098 => s.rx.neg.payloadLen
        | 0x09C => s.rx.outLen
        | 0x0A0 => s.rx.grid.base
        | 0x0A4 => s.rx.grid.step
        | 0x0AC => BitVec.ofNat 32 (8 * s.rx.hu.nout + s.rx.hu.nacc)
        | 0x0B0 => BitVec.ofNat 32 s.rx.pu.nout
        | 0x0B4 => s.rx.slots
        | 0x0B8 => match s.rx.prev with | some slot => slot.code | none => 0#32
        | _ => 0#32)
  ∧ (∀ s : State, s.rx.Sound →
      let bins := (s.busValue 4 0x0A8).toNat
      let dataBins := 2 ^ s.rx.neg.symbolBits.toNat + 1
      if s.rx.stage = .payload ∨ s.rx.stage = .done then
        dataBins ≤ bins ∧ (∀ (j : Fin 6) (k : Fin 32), s.rx.pb[j] = some k → k.val + 1 ≤ bins)
          ∧ (bins = dataBins ∨ ∃ (j : Fin 6) (k : Fin 32), s.rx.pb[j] = some k ∧ bins = k.val + 1)
      else bins = 3)
  ∧ (∀ (s : State) (c : Fin 8),
      s.busValue 4 (0x0C0 + 4 * c.val) = s.tx.phase[c] ∧ s.busValue 4 (0x0E0 + 4 * c.val) = s.tx.hold[c])
  ∧ (∀ (s : State) (b : Buffer) (i : Nat), b.wordOnly = false →
      (i + 1 ≤ b.size → s.busValue 1 (b.base + i) = (s.busByte b i).setWidth 32)
      ∧ (i + 2 ≤ b.size → s.busValue 2 (b.base + i) = (s.busByte b (i + 1) ++ s.busByte b i).setWidth 32)
      ∧ (i + 4 ≤ b.size → s.busValue 4 (b.base + i)
        = s.busByte b (i + 3) ++ s.busByte b (i + 2) ++ s.busByte b (i + 1) ++ s.busByte b i))
  ∧ ∀ (s : State) (b : Buffer) (j : Nat), b.wordOnly = true → 4 * j < b.size →
      s.busValue 4 (b.base + 4 * j) = s.wordAt b j
        ∧ s.wordAt b j = s.byteAt b (4 * j + 3) ++ s.byteAt b (4 * j + 2) ++ s.byteAt b (4 * j + 1) ++ s.byteAt b (4 * j)

/-- What a bus read sees of a byte: 0 in `RX_BUF` from `RX_PAY_BYTES` on and in the reserved bytes of `HDR_BUF`, else
the byte (20_memory.md R62, R64; 45_control.md R140). -/
def Obligations.ReservedBytesReadZero : Prop :=
  ∀ (s : State) (i : Nat),
    (s.busByte .rx i = if i < s.rx.pu.nout ∧ i < 4096 then s.byteAt .rx i else 0#8)
    ∧ (s.busByte .hdr i = if i < 20 then s.byteAt .hdr i else 0#8)
    ∧ (i < 4096 → s.busByte .tx i = s.byteAt .tx i ∧ s.busByte .unp i = s.byteAt .unp i)

/-- An admitted write of `n` bytes to a buffer stores them, byte `k` from bits `8k+7:8k`, but those of a reserved index
of `HDR_BUF`; every other byte and every register is unchanged (45_control.md R141; 20_memory.md R55, R62). (For
`SYM_BUF` and `SAMP_BUF`, that byte `k` of a word holds its bits `8k+7:8k` is the model's choice, log entry 12: R55 says
that the order of bytes within a word of theirs never shows.) -/
def Obligations.BusWritesStoreBytes : Prop :=
  ∀ (s : State) (b : Buffer) (i n : Nat) (a : Addr) (data : Word), s.tx.pending = none → b ≠ .rx →
    a.toNat = b.base + i → i + n ≤ b.size →
    (n = 1 ∧ b.wordOnly = false ∨ n = 2 ∧ b.wordOnly = false ∧ i % 2 = 0 ∨ n = 4 ∧ i % 4 = 0) →
    ∃ t m d, (if n = 1 then exec (.busWrite8 a data) s else if n = 2 then exec (.busWrite16 a data) s
        else exec (.busWrite32 a data) s) = .next t
      ∧ t = ({ s with mem := m } : State).answered d
      ∧ (∀ k, k < n → i + k < b.storable → t.byteAt b (i + k) = data.extractLsb' (8 * k) 8)
      ∧ KeepsBytesOutside s t (b.base + i) (min n (b.storable - i))

/-- A plain 32-bit write of the page, not closed by the busy window: a read-write register takes all 32 bits
(`IRQ_ENABLE` bits 3:0), any other offset ignores it, and every other register, the pending bits, the receiver and the
memory are unchanged (45_control.md R141; 10_state.md R17, R18). -/
def Obligations.RegisterWritesStore : Prop :=
  ∀ (s : State) (a : Addr) (data : Word), a.toNat < 0x100 → a.toNat % 4 = 0 → (Instr.busWrite32 a data).WellFormed →
    (s.tx.pending = none ∨ ∀ r, Reg.atOffset a.toNat = some r → r.txSide = false) →
    ∃ t, exec (.busWrite32 a data) s = .next t
      ∧ t.mem = s.mem ∧ t.rx = s.rx ∧ t.irqStatus = s.irqStatus ∧ t.tx.pending = s.tx.pending
      ∧ t.agenda = s.agenda ∧ t.nextDraw = s.nextDraw ∧ t.bufferDraw = s.bufferDraw
      ∧ (∃ d, t.port = some ⟨false, d⟩)
      ∧ (∀ r, Reg.atOffset a.toNat ≠ some r → t.readReg r = s.readReg r)
      ∧ ∀ r, Reg.atOffset a.toNat = some r →
          t.readReg r = if r = .irqEnable then data &&& 0xF#32 else if r.readWrite then data else s.readReg r

/-- Which accesses the port admits: aligned, of an admitted width, mapped, no write to `RX_BUF`, and none of the busy
window; every other access, of every width and direction, has no effect but the error response (20_memory.md R53, R56,
R57, R59, R60; 10_state.md R17). -/
def Obligations.AdmittedExactly : Prop :=
  (∀ (s : State) (d : Direction) (n a : Nat), n = 1 ∨ n = 2 ∨ n = 4 →
    (s.admits d n a = true ↔
      a % n = 0 ∧
      let idle := s.tx.pending = none
      let txRegister := 0x010 ≤ a ∧ a < 0x038 ∨ 0x03C ≤ a ∧ a < 0x058 ∨ 0x0C0 ≤ a
      (a < 0x100 ∧ n = 4 ∧ (idle ∨ ¬txRegister)
        ∨ (0x1000 ≤ a ∧ a < 0x2000 ∨ 0x2000 ≤ a ∧ a < 0x2020 ∨ 0x3000 ≤ a ∧ a < 0x4000) ∧ idle
        ∨ 0x4000 ≤ a ∧ a < 0x5000 ∧ d = .read
        ∨ (0x100000 ≤ a ∧ a < 0x200000 ∨ 0x1000000 ≤ a ∧ a < 0x1800000) ∧ n = 4 ∧ idle)))
  ∧ ∀ (s : State) (a : Addr) (data : Word),
    (s.admits .read 1 a.toNat = false → exec (.busRead8 a data) s = .next s.rejected)
    ∧ (s.admits .read 2 a.toNat = false → exec (.busRead16 a data) s = .next s.rejected)
    ∧ (s.admits .read 4 a.toNat = false → exec (.busRead32 a data) s = .next s.rejected)
    ∧ (s.admits .write 1 a.toNat = false → exec (.busWrite8 a data) s = .next s.rejected)
    ∧ (s.admits .write 2 a.toNat = false → exec (.busWrite16 a data) s = .next s.rejected)
    ∧ (s.admits .write 4 a.toNat = false → exec (.busWrite32 a data) s = .next s.rejected)

/-! ### Invariants and progress -/

/-- Every step keeps the memory's canonical form (log entry 4). -/
def Obligations.StepKeepsMemoryCanonical : Prop := ∀ s t : State, s.mem.wf → step s = .next t → t.mem.wf

/-- Every step keeps `TX_STATUS` legal (10_state.md R33, R47; 60_exceptions.md R142). -/
def Obligations.StepKeepsTxSound : Prop := ∀ s t : State, s.tx.Sound → step s = .next t → t.tx.Sound

/-- Every step keeps the receiver sound (10_state.md R38 to R43, R48, R49; 44_receiver.md). -/
def Obligations.StepKeepsRxSound : Prop := ∀ s t : State, s.rx.Sound → step s = .next t → t.rx.Sound

/-- Every step keeps the memory inside the storable bytes of the buffers (20_memory.md R54), and the received bytes
written (R64). -/
def Obligations.StepKeepsMemoryPlacement : Prop :=
  ∀ s t : State, s.rx.Sound → s.mem.inside → s.receivedBytesWritten → step s = .next t →
    t.mem.inside ∧ t.receivedBytesWritten

/-- The reset state is sound in all these ways. -/
def Obligations.ResetIsSound : Prop := State.reset.Sound

/-- When the words to come are words of the port, the machine takes every event, one step each, never stops, and after
one step more no command is pending: a completion is eventually taken (45_control.md R135; 70_reset_and_hazards.md
R172; the agenda is the model's, log entry 1). -/
def Obligations.AgendaDrains : Prop :=
  ∀ s : State, s.agendaDecodes →
    ∃ t, runSteps (s.agenda.length + 1) s = .next t ∧ t.agenda = [] ∧ t.tx.pending = none
end

