-- ==== Sys2Proof/Laws/Bits.lean ====
section
/-! SUPPORT. Words and their bytes: little-endian bus bytes, big-endian header bytes. -/

namespace Sys2Proof.Machine

@[simp] theorem leBytes_length (n : Nat) (w : Word) : (leBytes n w).length = n := by simp [leBytes]

theorem leBytes_getElem? {n k : Nat} (w : Word) (h : k < n) : (leBytes n w)[k]? = some (w.extractLsb' (8 * k) 8) := by
  simp [leBytes, h]

/-- Bit `i` of a word read little-endian is bit `i mod 8` of byte `i / 8` (R55). -/
theorem wordOfLE_getLsbD (bytes : List Byte) (i : Nat) (hi : i < 32) :
    (wordOfLE bytes).getLsbD i = (bytes.getD (i / 8) 0#8).getLsbD (i % 8) := by
  induction bytes generalizing i with
  | nil => simp [wordOfLE]
  | cons b bs ih =>
    have hfold : wordOfLE (b :: bs) = (wordOfLE bs <<< 8) ||| b.setWidth 32 := rfl
    rw [hfold, BitVec.getLsbD_or, BitVec.getLsbD_shiftLeft, BitVec.getLsbD_setWidth]
    by_cases h : i < 8
    · simp [h, hi, Nat.div_eq_of_lt h, Nat.mod_eq_of_lt h]
    · obtain ⟨k, rfl⟩ : ∃ k, i = k + 8 := ⟨i - 8, by omega⟩
      rw [show k + 8 - 8 = k by omega, ih k (by omega), show (k + 8) / 8 = k / 8 + 1 by omega,
        show (k + 8) % 8 = k % 8 by omega]
      simp [hi]

/-- The word of a word's own `n` bytes is its low `8n` bits (R55, R140). -/
theorem wordOfLE_leBytes (n : Nat) (w : Word) : wordOfLE (leBytes n w) = (w.setWidth (8 * n)).setWidth 32 := by
  apply BitVec.eq_of_getLsbD_eq
  intro i hi
  rw [wordOfLE_getLsbD _ _ hi, BitVec.getLsbD_setWidth, BitVec.getLsbD_setWidth, List.getD_eq_getElem?_getD]
  by_cases h : i < 8 * n
  · rw [leBytes_getElem? w (by omega : i / 8 < n)]
    simp [hi, h, Nat.mod_lt, Nat.div_add_mod]
  · rw [List.getElem?_eq_none (by simp; omega)]
    simp [h]

@[simp] theorem wordOfLE_leBytes_four (w : Word) : wordOfLE (leBytes 4 w) = w := by
  rw [wordOfLE_leBytes]
  simp

@[simp] theorem flatMap_leBytes_length (words : List Word) : (words.flatMap (leBytes 4)).length = 4 * words.length := by
  induction words with
  | nil => rfl
  | cons w ws ih =>
    simp only [List.flatMap_cons, List.length_append, leBytes_length, ih, List.length_cons]
    omega

/-- Byte `j` of word `i` of a run of words. -/
theorem flatMap_leBytes_getElem? (words : List Word) (i j : Nat) (hj : j < 4) :
    (words.flatMap (leBytes 4))[4 * i + j]? = words[i]?.map fun w => w.extractLsb' (8 * j) 8 := by
  induction words generalizing i with
  | nil => simp
  | cons w ws ih =>
    rw [List.flatMap_cons]
    cases i with
    | zero =>
      rw [List.getElem?_append_left (by simp; omega), show 4 * 0 + j = j by omega, leBytes_getElem? w hj]
      rfl
    | succ i =>
      rw [List.getElem?_append_right (by simp; omega), leBytes_length, show 4 * (i + 1) + j - 4 = 4 * i + j by omega,
        ih i, List.getElem?_cons_succ]

@[simp] theorem beBytes_length (w : Word) : (beBytes w).length = 4 := rfl

@[simp] theorem headerBytes_length (p : Params) : (headerBytes p).length = 20 := rfl

/-- The big-endian bytes of a word give the word back (R81). -/
@[simp] theorem wordOfBE_extract (w : Word) :
    wordOfBE (w.extractLsb' 24 8) (w.extractLsb' 16 8) (w.extractLsb' 8 8) (w.extractLsb' 0 8) = w := by
  apply BitVec.eq_of_getLsbD_eq
  intro i hi
  simp only [wordOfBE, BitVec.getLsbD_append, BitVec.getLsbD_extractLsb']
  by_cases h0 : i < 8
  · simp [h0]
  · by_cases h1 : i < 16
    · simp [h0, show i - 8 < 8 by omega, show 8 + (i - 8) = i by omega]
    · by_cases h2 : i < 24
      · simp [h0, show ¬ i - 8 < 8 by omega, show i - 8 - 8 < 8 by omega, show 16 + (i - 8 - 8) = i by omega]
      · simp [h0, show ¬ i - 8 < 8 by omega, show ¬ i - 8 - 8 < 8 by omega, show i - 8 - 8 - 8 < 8 by omega,
          show 24 + (i - 8 - 8 - 8) = i by omega]

end Sys2Proof.Machine
end

