-- ==== Sys2Proof/Laws/Memory.lean ====
section
/-! SUPPORT. The laws of memory: a read after a store, the canonical form, and that it makes equal memories equal
data. -/

namespace Sys2Proof.Machine

/-! ### Runs of cells -/

theorem cellsFrom_bounds {a : Nat} {bytes : List Byte} {c : Host.Cell} (h : c ∈ cellsFrom a bytes) :
    a ≤ c.1 ∧ c.1 < a + bytes.length := by
  induction bytes generalizing a with
  | nil => simp [cellsFrom] at h
  | cons b bs ih =>
    rcases List.mem_cons.1 h with rfl | h
    · simp
    · have := ih h
      simp only [List.length_cons]
      omega

theorem cellsFrom_wf (a : Nat) (bytes : List Byte) : Memory.wf (cellsFrom a bytes) := by
  induction bytes generalizing a with
  | nil => exact List.Pairwise.nil
  | cons b bs ih => exact List.Pairwise.cons (fun c hc => by have := cellsFrom_bounds hc; simp; omega) (ih (a + 1))

/-! ### Looking a byte up -/

@[simp] theorem Memory.peek_nil (x : Nat) : Memory.peek [] x = none := rfl

theorem Memory.peek_cons (c : Host.Cell) (m : Memory) (x : Nat) :
    Memory.peek (c :: m) x = if c.1 = x then some c.2 else Memory.peek m x := by
  by_cases h : c.1 = x <;> simp [Memory.peek, h]

theorem Memory.peek_append (m n : Memory) (x : Nat) :
    Memory.peek (m ++ n) x = (Memory.peek m x).or (Memory.peek n x) := by
  induction m with
  | nil => simp [Memory.peek]
  | cons c m ih =>
    rw [List.cons_append, Memory.peek_cons, Memory.peek_cons, ih]
    split <;> simp

theorem Memory.peek_eq_none {m : Memory} {x : Nat} (h : ∀ c ∈ m, c.1 ≠ x) : Memory.peek m x = none := by
  induction m with
  | nil => rfl
  | cons c m ih =>
    rw [Memory.peek_cons, if_neg (h c (by simp)), ih fun d hd => h d (by simp [hd])]

theorem Memory.peek_filter {m : Memory} {x : Nat} {p : Host.Cell → Bool} (h : ∀ c : Host.Cell, c.1 = x → p c = true) :
    Memory.peek (m.filter p) x = Memory.peek m x := by
  induction m with
  | nil => rfl
  | cons c m ih =>
    rw [List.filter_cons]
    by_cases hc : c.1 = x
    · rw [if_pos (h c hc), Memory.peek_cons, Memory.peek_cons, if_pos hc, if_pos hc]
    · split
      · rw [Memory.peek_cons, Memory.peek_cons, if_neg hc, if_neg hc, ih]
      · rw [ih, Memory.peek_cons, if_neg hc]

theorem Memory.peek_cellsFrom {a x : Nat} {bytes : List Byte} (h : a ≤ x) :
    Memory.peek (cellsFrom a bytes) x = bytes[x - a]? := by
  induction bytes generalizing a with
  | nil => simp [cellsFrom]
  | cons b bs ih =>
    rw [cellsFrom, Memory.peek_cons]
    by_cases hx : a = x
    · subst hx
      simp
    · obtain ⟨k, rfl⟩ : ∃ k, x = a + 1 + k := ⟨x - (a + 1), by omega⟩
      rw [if_neg hx, ih (by omega), show a + 1 + k - a = k + 1 by omega, show a + 1 + k - (a + 1) = k by omega]
      simp

/-! ### A read after a store -/

/-- A stored byte is read back. -/
theorem Memory.peek_store_inside {m : Memory} {a x : Nat} {bytes : List Byte} (h1 : a ≤ x)
    (h2 : x < a + bytes.length) : Memory.peek (m.store a bytes) x = bytes[x - a]? := by
  cases bytes with
  | nil => simp at h2; omega
  | cons b bs =>
    rw [Memory.store, Memory.peek_append, Memory.peek_append,
      Memory.peek_eq_none (m := m.filter _) (fun c hc => by simp at hc; omega), Option.none_or,
      Memory.peek_cellsFrom h1, List.getElem?_eq_getElem (by omega)]
    simp

/-- A store leaves every other byte. -/
theorem Memory.peek_store_outside {m : Memory} {a x : Nat} {bytes : List Byte}
    (h : x < a ∨ a + bytes.length ≤ x) : Memory.peek (m.store a bytes) x = Memory.peek m x := by
  cases bytes with
  | nil => rfl
  | cons b bs =>
    have hcells : Memory.peek (cellsFrom a (b :: bs)) x = none :=
      Memory.peek_eq_none fun c hc => by have := cellsFrom_bounds hc; omega
    rw [Memory.store, Memory.peek_append, Memory.peek_append, hcells, Option.or_none]
    rcases h with h | h
    · rw [Memory.peek_filter (fun c hc => by simp; omega),
        Memory.peek_eq_none (m := m.filter _) (x := x) (fun c hc => by simp at hc; omega), Option.or_none]
    · rw [Memory.peek_eq_none (m := m.filter _) (x := x) (fun c hc => by simp at hc; simp at h; omega),
        Option.none_or, Memory.peek_filter (fun c hc => by simp at h ⊢; omega)]

/-! ### The canonical form -/

@[simp] theorem Memory.wf_nil : Memory.wf [] := List.Pairwise.nil

/-- Every store keeps the canonical form. -/
theorem Memory.store_wf {m : Memory} (h : Memory.wf m) (a : Nat) (bytes : List Byte) :
    Memory.wf (m.store a bytes) := by
  cases bytes with
  | nil => exact h
  | cons b bs =>
    refine List.pairwise_append.2 ⟨List.pairwise_append.2 ⟨h.filter _, cellsFrom_wf _ _, ?_⟩, h.filter _, ?_⟩
    · intro c hc d hd
      have := cellsFrom_bounds hd
      simp at hc
      omega
    · intro c hc d hd
      simp at hd
      rcases List.mem_append.1 hc with hc | hc
      · simp at hc
        omega
      · have := cellsFrom_bounds hc
        simp at this
        omega

/-- Drawing unspecified values keeps the canonical form. -/
theorem Memory.unspecify_wf {m : Memory} (h : Memory.wf m) (draw : Nat) (ranges : List (Nat × Nat)) :
    Memory.wf (m.unspecify draw ranges) := by
  unfold Memory.unspecify
  induction ranges generalizing m with
  | nil => exact h
  | cons r rest ih => exact ih (Memory.store_wf h _ _)

/-- A store lists no address but the old ones and its own. -/
theorem Memory.mem_store {m : Memory} {a : Nat} {bytes : List Byte} {c : Host.Cell} (h : c ∈ m.store a bytes) :
    c ∈ m ∨ (a ≤ c.1 ∧ c.1 < a + bytes.length) := by
  cases bytes with
  | nil => exact .inl h
  | cons b bs =>
    rcases List.mem_append.1 h with h | h
    · rcases List.mem_append.1 h with h | h
      · exact .inl (List.mem_filter.1 h).1
      · exact .inr (cellsFrom_bounds h)
    · exact .inl (List.mem_filter.1 h).1

/-- In canonical form a listed cell is what a read finds. -/
theorem Memory.peek_of_mem {m : Memory} (h : Memory.wf m) {c : Host.Cell} (hc : c ∈ m) :
    Memory.peek m c.1 = some c.2 := by
  induction m with
  | nil => simp at hc
  | cons d m ih =>
    rw [Memory.peek_cons]
    rcases List.mem_cons.1 hc with rfl | hc
    · simp
    · have := (List.pairwise_cons.1 h).1 c hc
      rw [if_neg (by omega), ih (List.pairwise_cons.1 h).2 hc]

/-- What a read finds is listed. -/
theorem Memory.mem_of_peek {m : Memory} {x : Nat} {v : Byte} (h : Memory.peek m x = some v) : (x, v) ∈ m := by
  induction m with
  | nil => simp at h
  | cons d m ih =>
    rw [Memory.peek_cons] at h
    split at h
    · cases h
      subst_vars
      simp
    · exact List.mem_cons_of_mem _ (ih h)

/-- Two canonical memories that read alike are the same data. -/
theorem Memory.eq_of_peek {m n : Memory} (hm : Memory.wf m) (hn : Memory.wf n)
    (h : ∀ x, Memory.peek m x = Memory.peek n x) : m = n := by
  have key : ∀ c : Host.Cell, c ∈ m ↔ c ∈ n := fun c =>
    ⟨fun hc => Memory.mem_of_peek ((h c.1).symm.trans (Memory.peek_of_mem hm hc)),
     fun hc => Memory.mem_of_peek ((h c.1).trans (Memory.peek_of_mem hn hc))⟩
  have nodup : ∀ {l : Memory}, Memory.wf l → l.Nodup := fun hl =>
    hl.imp fun hlt he => by rw [he] at hlt; omega
  refine ((List.perm_ext_iff_of_nodup (nodup hm) (nodup hn)).2 key).eq_of_pairwise ?_ hm hn
  intro a b _ _ hab hba
  omega

end Sys2Proof.Machine
end

