-- ==== Sys2Proof/Laws/State.lean ====
section
/-! SUPPORT. One lemma for each field of State under each update, so that no proof unfolds a record update. -/

namespace Sys2Proof.Machine

/-! ### `State.pend`: an event sets a pending bit -/

@[simp] theorem State.pend_irqStatus (s : State) (bit : BitVec 4) : (s.pend bit).irqStatus = s.irqStatus ||| bit := rfl
@[simp] theorem State.pend_irqEnable (s : State) (bit : BitVec 4) : (s.pend bit).irqEnable = s.irqEnable := rfl
@[simp] theorem State.pend_tx (s : State) (bit : BitVec 4) : (s.pend bit).tx = s.tx := rfl
@[simp] theorem State.pend_rx (s : State) (bit : BitVec 4) : (s.pend bit).rx = s.rx := rfl
@[simp] theorem State.pend_mem (s : State) (bit : BitVec 4) : (s.pend bit).mem = s.mem := rfl
@[simp] theorem State.pend_port (s : State) (bit : BitVec 4) : (s.pend bit).port = s.port := rfl
@[simp] theorem State.pend_agenda (s : State) (bit : BitVec 4) : (s.pend bit).agenda = s.agenda := rfl
@[simp] theorem State.pend_nextDraw (s : State) (bit : BitVec 4) : (s.pend bit).nextDraw = s.nextDraw := rfl
@[simp] theorem State.pend_bufferDraw (s : State) (bit : BitVec 4) : (s.pend bit).bufferDraw = s.bufferDraw := rfl

/-! ### `State.busError`: the bus error response -/

@[simp] theorem State.busError_irqStatus (s : State) : (s.busError).irqStatus = s.irqStatus := rfl
@[simp] theorem State.busError_irqEnable (s : State) : (s.busError).irqEnable = s.irqEnable := rfl
@[simp] theorem State.busError_tx (s : State) : (s.busError).tx = s.tx := rfl
@[simp] theorem State.busError_rx (s : State) : (s.busError).rx = s.rx := rfl
@[simp] theorem State.busError_mem (s : State) : (s.busError).mem = s.mem := rfl
@[simp] theorem State.busError_port (s : State) : (s.busError).port = some ⟨true, 0#32⟩ := rfl
@[simp] theorem State.busError_agenda (s : State) : (s.busError).agenda = s.agenda := rfl
@[simp] theorem State.busError_nextDraw (s : State) : (s.busError).nextDraw = s.nextDraw := rfl
@[simp] theorem State.busError_bufferDraw (s : State) : (s.busError).bufferDraw = s.bufferDraw := rfl

/-! ### `State.answer`: the response to a read -/

@[simp] theorem State.answer_irqStatus (s : State) (v : Word) : (s.answer v).irqStatus = s.irqStatus := rfl
@[simp] theorem State.answer_irqEnable (s : State) (v : Word) : (s.answer v).irqEnable = s.irqEnable := rfl
@[simp] theorem State.answer_tx (s : State) (v : Word) : (s.answer v).tx = s.tx := rfl
@[simp] theorem State.answer_rx (s : State) (v : Word) : (s.answer v).rx = s.rx := rfl
@[simp] theorem State.answer_mem (s : State) (v : Word) : (s.answer v).mem = s.mem := rfl
@[simp] theorem State.answer_port (s : State) (v : Word) : (s.answer v).port = some ⟨false, v⟩ := rfl
@[simp] theorem State.answer_agenda (s : State) (v : Word) : (s.answer v).agenda = s.agenda := rfl
@[simp] theorem State.answer_nextDraw (s : State) (v : Word) : (s.answer v).nextDraw = s.nextDraw := rfl
@[simp] theorem State.answer_bufferDraw (s : State) (v : Word) : (s.answer v).bufferDraw = s.bufferDraw := rfl

/-! ### `State.acknowledge`: the response to a write -/

@[simp] theorem State.acknowledge_irqStatus (s : State) : (s.acknowledge).irqStatus = s.irqStatus := rfl
@[simp] theorem State.acknowledge_irqEnable (s : State) : (s.acknowledge).irqEnable = s.irqEnable := rfl
@[simp] theorem State.acknowledge_tx (s : State) : (s.acknowledge).tx = s.tx := rfl
@[simp] theorem State.acknowledge_rx (s : State) : (s.acknowledge).rx = s.rx := rfl
@[simp] theorem State.acknowledge_mem (s : State) : (s.acknowledge).mem = s.mem := rfl
@[simp] theorem State.acknowledge_port (s : State) : (s.acknowledge).port = some ⟨false, 0#32⟩ := rfl
@[simp] theorem State.acknowledge_agenda (s : State) : (s.acknowledge).agenda = s.agenda := rfl
@[simp] theorem State.acknowledge_nextDraw (s : State) : (s.acknowledge).nextDraw = s.nextDraw := rfl
@[simp] theorem State.acknowledge_bufferDraw (s : State) : (s.acknowledge).bufferDraw = s.bufferDraw := rfl

/-! ### `State.writeBytes`: bytes written to a buffer -/

@[simp] theorem State.writeBytes_irqStatus (s : State) (b : Buffer) (i : Nat) (bytes : List Byte) : (s.writeBytes b i bytes).irqStatus = s.irqStatus := rfl
@[simp] theorem State.writeBytes_irqEnable (s : State) (b : Buffer) (i : Nat) (bytes : List Byte) : (s.writeBytes b i bytes).irqEnable = s.irqEnable := rfl
@[simp] theorem State.writeBytes_tx (s : State) (b : Buffer) (i : Nat) (bytes : List Byte) : (s.writeBytes b i bytes).tx = s.tx := rfl
@[simp] theorem State.writeBytes_rx (s : State) (b : Buffer) (i : Nat) (bytes : List Byte) : (s.writeBytes b i bytes).rx = s.rx := rfl
@[simp] theorem State.writeBytes_mem (s : State) (b : Buffer) (i : Nat) (bytes : List Byte) : (s.writeBytes b i bytes).mem = s.mem.store (b.base + i) bytes := rfl
@[simp] theorem State.writeBytes_port (s : State) (b : Buffer) (i : Nat) (bytes : List Byte) : (s.writeBytes b i bytes).port = s.port := rfl
@[simp] theorem State.writeBytes_agenda (s : State) (b : Buffer) (i : Nat) (bytes : List Byte) : (s.writeBytes b i bytes).agenda = s.agenda := rfl
@[simp] theorem State.writeBytes_nextDraw (s : State) (b : Buffer) (i : Nat) (bytes : List Byte) : (s.writeBytes b i bytes).nextDraw = s.nextDraw := rfl
@[simp] theorem State.writeBytes_bufferDraw (s : State) (b : Buffer) (i : Nat) (bytes : List Byte) : (s.writeBytes b i bytes).bufferDraw = s.bufferDraw := rfl

/-! ### `State.writeWords`: words written to a buffer -/

@[simp] theorem State.writeWords_irqStatus (s : State) (b : Buffer) (i : Nat) (words : List Word) : (s.writeWords b i words).irqStatus = s.irqStatus := rfl
@[simp] theorem State.writeWords_irqEnable (s : State) (b : Buffer) (i : Nat) (words : List Word) : (s.writeWords b i words).irqEnable = s.irqEnable := rfl
@[simp] theorem State.writeWords_tx (s : State) (b : Buffer) (i : Nat) (words : List Word) : (s.writeWords b i words).tx = s.tx := rfl
@[simp] theorem State.writeWords_rx (s : State) (b : Buffer) (i : Nat) (words : List Word) : (s.writeWords b i words).rx = s.rx := rfl
@[simp] theorem State.writeWords_mem (s : State) (b : Buffer) (i : Nat) (words : List Word) : (s.writeWords b i words).mem = s.mem.store (b.base + 4 * i) (words.flatMap (leBytes 4)) := rfl
@[simp] theorem State.writeWords_port (s : State) (b : Buffer) (i : Nat) (words : List Word) : (s.writeWords b i words).port = s.port := rfl
@[simp] theorem State.writeWords_agenda (s : State) (b : Buffer) (i : Nat) (words : List Word) : (s.writeWords b i words).agenda = s.agenda := rfl
@[simp] theorem State.writeWords_nextDraw (s : State) (b : Buffer) (i : Nat) (words : List Word) : (s.writeWords b i words).nextDraw = s.nextDraw := rfl
@[simp] theorem State.writeWords_bufferDraw (s : State) (b : Buffer) (i : Nat) (words : List Word) : (s.writeWords b i words).bufferDraw = s.bufferDraw := rfl

/-! ### `State.finish`: the status update that ends a command -/

@[simp] theorem State.finish_irqStatus (s : State) (code : Byte) : (s.finish code).irqStatus = s.irqStatus ||| (if code = 0#8 then irqTxDone else irqTxErr) := rfl
@[simp] theorem State.finish_irqEnable (s : State) (code : Byte) : (s.finish code).irqEnable = s.irqEnable := rfl
@[simp] theorem State.finish_tx (s : State) (code : Byte) : (s.finish code).tx = { s.tx with pending := none, done := true, err := code } := rfl
@[simp] theorem State.finish_rx (s : State) (code : Byte) : (s.finish code).rx = s.rx := rfl
@[simp] theorem State.finish_mem (s : State) (code : Byte) : (s.finish code).mem = s.mem := rfl
@[simp] theorem State.finish_port (s : State) (code : Byte) : (s.finish code).port = s.port := rfl
@[simp] theorem State.finish_agenda (s : State) (code : Byte) : (s.finish code).agenda = s.agenda := rfl
@[simp] theorem State.finish_nextDraw (s : State) (code : Byte) : (s.finish code).nextDraw = s.nextDraw := rfl
@[simp] theorem State.finish_bufferDraw (s : State) (code : Byte) : (s.finish code).bufferDraw = s.bufferDraw := rfl

/-! ### `State.takeEvent`: the next event is taken -/

@[simp] theorem State.takeEvent_irqStatus (s : State) : (s.takeEvent).irqStatus = s.irqStatus := rfl
@[simp] theorem State.takeEvent_irqEnable (s : State) : (s.takeEvent).irqEnable = s.irqEnable := rfl
@[simp] theorem State.takeEvent_tx (s : State) : (s.takeEvent).tx = s.tx := rfl
@[simp] theorem State.takeEvent_rx (s : State) : (s.takeEvent).rx = s.rx := rfl
@[simp] theorem State.takeEvent_mem (s : State) : (s.takeEvent).mem = s.mem := rfl
@[simp] theorem State.takeEvent_port (s : State) : (s.takeEvent).port = s.port := rfl
@[simp] theorem State.takeEvent_agenda (s : State) : (s.takeEvent).agenda = s.agenda.tail := rfl
@[simp] theorem State.takeEvent_nextDraw (s : State) : (s.takeEvent).nextDraw = s.nextDraw := rfl
@[simp] theorem State.takeEvent_bufferDraw (s : State) : (s.takeEvent).bufferDraw = s.bufferDraw := rfl

/-! ### `State.offer`: an event is put first -/

@[simp] theorem State.offer_irqStatus (s : State) (e : Event) : (s.offer e).irqStatus = s.irqStatus := rfl
@[simp] theorem State.offer_irqEnable (s : State) (e : Event) : (s.offer e).irqEnable = s.irqEnable := rfl
@[simp] theorem State.offer_tx (s : State) (e : Event) : (s.offer e).tx = s.tx := rfl
@[simp] theorem State.offer_rx (s : State) (e : Event) : (s.offer e).rx = s.rx := rfl
@[simp] theorem State.offer_mem (s : State) (e : Event) : (s.offer e).mem = s.mem := rfl
@[simp] theorem State.offer_port (s : State) (e : Event) : (s.offer e).port = s.port := rfl
@[simp] theorem State.offer_agenda (s : State) (e : Event) : (s.offer e).agenda = e :: s.agenda := rfl
@[simp] theorem State.offer_nextDraw (s : State) (e : Event) : (s.offer e).nextDraw = s.nextDraw := rfl
@[simp] theorem State.offer_bufferDraw (s : State) (e : Event) : (s.offer e).bufferDraw = s.bufferDraw := rfl

/-! ### `State.softReset`: the soft reset -/

@[simp] theorem State.softReset_irqStatus (s : State) : (s.softReset).irqStatus = 0#4 := rfl
@[simp] theorem State.softReset_irqEnable (s : State) : (s.softReset).irqEnable = 0#4 := rfl
@[simp] theorem State.softReset_tx (s : State) : (s.softReset).tx = TxEngine.reset := rfl
@[simp] theorem State.softReset_rx (s : State) : (s.softReset).rx = RxEngine.resetOver (unspecifiedHeader s.nextDraw) := rfl
@[simp] theorem State.softReset_port (s : State) : (s.softReset).port = s.port := rfl
@[simp] theorem State.softReset_agenda (s : State) : (s.softReset).agenda = s.agenda := rfl
@[simp] theorem State.softReset_nextDraw (s : State) : (s.softReset).nextDraw = s.nextDraw + 1 := rfl
@[simp] theorem State.softReset_bufferDraw (s : State) : (s.softReset).bufferDraw = s.bufferDraw := rfl

/-! ### `State.powerOn`: the power-on reset -/

@[simp] theorem State.powerOn_irqStatus (s : State) : (s.powerOn).irqStatus = 0#4 := rfl
@[simp] theorem State.powerOn_irqEnable (s : State) : (s.powerOn).irqEnable = 0#4 := rfl
@[simp] theorem State.powerOn_tx (s : State) : (s.powerOn).tx = TxEngine.reset := rfl
@[simp] theorem State.powerOn_rx (s : State) : (s.powerOn).rx = RxEngine.resetOver (unspecifiedHeader s.nextDraw) := rfl
@[simp] theorem State.powerOn_mem (s : State) : (s.powerOn).mem = [] := rfl
@[simp] theorem State.powerOn_port (s : State) : (s.powerOn).port = none := rfl
@[simp] theorem State.powerOn_agenda (s : State) : (s.powerOn).agenda = s.agenda := rfl
@[simp] theorem State.powerOn_nextDraw (s : State) : (s.powerOn).nextDraw = s.nextDraw + 1 := rfl
@[simp] theorem State.powerOn_bufferDraw (s : State) : (s.powerOn).bufferDraw = s.nextDraw := rfl

/-! ### Registers -/


@[simp] theorem State.writeReg_irqStatus (s : State) (v : Word) (r : Reg) : (s.writeReg v r).irqStatus = s.irqStatus := by
  cases r <;> rfl

@[simp] theorem State.writePage_irqStatus (s : State) (n : Nat) (v : Word) : (s.writePage n v).irqStatus = s.irqStatus := by
  unfold State.writePage
  split <;> simp

@[simp] theorem State.writeReg_rx (s : State) (v : Word) (r : Reg) : (s.writeReg v r).rx = s.rx := by
  cases r <;> rfl

@[simp] theorem State.writePage_rx (s : State) (n : Nat) (v : Word) : (s.writePage n v).rx = s.rx := by
  unfold State.writePage
  split <;> simp

@[simp] theorem State.writeReg_mem (s : State) (v : Word) (r : Reg) : (s.writeReg v r).mem = s.mem := by
  cases r <;> rfl

@[simp] theorem State.writePage_mem (s : State) (n : Nat) (v : Word) : (s.writePage n v).mem = s.mem := by
  unfold State.writePage
  split <;> simp

@[simp] theorem State.writeReg_port (s : State) (v : Word) (r : Reg) : (s.writeReg v r).port = s.port := by
  cases r <;> rfl

@[simp] theorem State.writePage_port (s : State) (n : Nat) (v : Word) : (s.writePage n v).port = s.port := by
  unfold State.writePage
  split <;> simp

@[simp] theorem State.writeReg_agenda (s : State) (v : Word) (r : Reg) : (s.writeReg v r).agenda = s.agenda := by
  cases r <;> rfl

@[simp] theorem State.writePage_agenda (s : State) (n : Nat) (v : Word) : (s.writePage n v).agenda = s.agenda := by
  unfold State.writePage
  split <;> simp

@[simp] theorem State.writeReg_nextDraw (s : State) (v : Word) (r : Reg) : (s.writeReg v r).nextDraw = s.nextDraw := by
  cases r <;> rfl

@[simp] theorem State.writePage_nextDraw (s : State) (n : Nat) (v : Word) : (s.writePage n v).nextDraw = s.nextDraw := by
  unfold State.writePage
  split <;> simp

@[simp] theorem State.writeReg_bufferDraw (s : State) (v : Word) (r : Reg) : (s.writeReg v r).bufferDraw = s.bufferDraw := by
  cases r <;> rfl

@[simp] theorem State.writePage_bufferDraw (s : State) (n : Nat) (v : Word) : (s.writePage n v).bufferDraw = s.bufferDraw := by
  unfold State.writePage
  split <;> simp

/-- A register write leaves every part of the TX engine that no host writes. -/
theorem State.writeReg_tx_frame (s : State) (v : Word) (r : Reg) :
    (s.writeReg v r).tx = { s.tx with
      params := (s.writeReg v r).tx.params, replication := (s.writeReg v r).tx.replication
      sampleRate := (s.writeReg v r).tx.sampleRate, symCount := (s.writeReg v r).tx.symCount
      hdrAvail := (s.writeReg v r).tx.hdrAvail } := by
  cases r <;> rfl

/-- The same of a write at an offset of the page. -/
theorem State.writePage_tx_frame (s : State) (n : Nat) (v : Word) :
    (s.writePage n v).tx = { s.tx with
      params := (s.writePage n v).tx.params, replication := (s.writePage n v).tx.replication
      sampleRate := (s.writePage n v).tx.sampleRate, symCount := (s.writePage n v).tx.symCount
      hdrAvail := (s.writePage n v).tx.hdrAvail } := by
  unfold State.writePage
  split
  · exact State.writeReg_tx_frame s v _
  · rfl

/-! ### Samples -/

/-- Writing samples changes memory only. -/
theorem State.writeSamples_frame (s : State) (frames : List (Vector Word 8)) (channels : List (Fin 8)) :
    s.writeSamples frames channels = { s with mem := (s.writeSamples frames channels).mem } := by
  unfold State.writeSamples
  induction channels generalizing s with
  | nil => rfl
  | cons c rest ih =>
    rw [List.foldl_cons, ih]
    rfl

@[simp] theorem State.writeSamples_irqStatus (s : State) (frames : List (Vector Word 8)) (channels : List (Fin 8)) :
    (s.writeSamples frames channels).irqStatus = s.irqStatus := by
  rw [State.writeSamples_frame]

@[simp] theorem State.writeSamples_irqEnable (s : State) (frames : List (Vector Word 8)) (channels : List (Fin 8)) :
    (s.writeSamples frames channels).irqEnable = s.irqEnable := by
  rw [State.writeSamples_frame]

@[simp] theorem State.writeSamples_tx (s : State) (frames : List (Vector Word 8)) (channels : List (Fin 8)) :
    (s.writeSamples frames channels).tx = s.tx := by
  rw [State.writeSamples_frame]

@[simp] theorem State.writeSamples_rx (s : State) (frames : List (Vector Word 8)) (channels : List (Fin 8)) :
    (s.writeSamples frames channels).rx = s.rx := by
  rw [State.writeSamples_frame]

@[simp] theorem State.writeSamples_port (s : State) (frames : List (Vector Word 8)) (channels : List (Fin 8)) :
    (s.writeSamples frames channels).port = s.port := by
  rw [State.writeSamples_frame]

@[simp] theorem State.writeSamples_agenda (s : State) (frames : List (Vector Word 8)) (channels : List (Fin 8)) :
    (s.writeSamples frames channels).agenda = s.agenda := by
  rw [State.writeSamples_frame]

@[simp] theorem State.writeSamples_nextDraw (s : State) (frames : List (Vector Word 8)) (channels : List (Fin 8)) :
    (s.writeSamples frames channels).nextDraw = s.nextDraw := by
  rw [State.writeSamples_frame]

@[simp] theorem State.writeSamples_bufferDraw (s : State) (frames : List (Vector Word 8)) (channels : List (Fin 8)) :
    (s.writeSamples frames channels).bufferDraw = s.bufferDraw := by
  rw [State.writeSamples_frame]

@[simp] theorem State.playWaveform_irqStatus (s : State) (shape : WaveShape) (score : List Tones) :
    (s.playWaveform shape score).irqStatus = s.irqStatus := by
  simp [State.playWaveform]

@[simp] theorem State.playWaveform_irqEnable (s : State) (shape : WaveShape) (score : List Tones) :
    (s.playWaveform shape score).irqEnable = s.irqEnable := by
  simp [State.playWaveform]

@[simp] theorem State.playWaveform_rx (s : State) (shape : WaveShape) (score : List Tones) :
    (s.playWaveform shape score).rx = s.rx := by
  simp [State.playWaveform]

@[simp] theorem State.playWaveform_port (s : State) (shape : WaveShape) (score : List Tones) :
    (s.playWaveform shape score).port = s.port := by
  simp [State.playWaveform]

@[simp] theorem State.playWaveform_agenda (s : State) (shape : WaveShape) (score : List Tones) :
    (s.playWaveform shape score).agenda = s.agenda := by
  simp [State.playWaveform]

@[simp] theorem State.playWaveform_nextDraw (s : State) (shape : WaveShape) (score : List Tones) :
    (s.playWaveform shape score).nextDraw = s.nextDraw := by
  simp [State.playWaveform]

@[simp] theorem State.playWaveform_bufferDraw (s : State) (shape : WaveShape) (score : List Tones) :
    (s.playWaveform shape score).bufferDraw = s.bufferDraw := by
  simp [State.playWaveform]

@[simp] theorem State.playWaveform_mem (s : State) (shape : WaveShape) (score : List Tones) :
    (s.playWaveform shape score).mem
      = (s.writeSamples (playScore Oscillators.atStart score).2 shape.channelList).mem := rfl

@[simp] theorem State.playWaveform_tx (s : State) (shape : WaveShape) (score : List Tones) :
    (s.playWaveform shape score).tx = { s.tx with
      phase := (playScore Oscillators.atStart score).1.phase, hold := (playScore Oscillators.atStart score).1.hold
      outLen := BitVec.ofNat 32 shape.instants, outChannels := BitVec.ofNat 32 shape.channels } := by
  simp [State.playWaveform]

/-! ### Reset -/

@[simp] theorem State.reset_mem : State.reset.mem = [] := rfl
@[simp] theorem State.reset_agenda : State.reset.agenda = [] := rfl
@[simp] theorem State.reset_tx : State.reset.tx = TxEngine.reset := rfl
@[simp] theorem State.reset_rx : State.reset.rx = RxEngine.resetOver (Vector.replicate 20 0#8) := rfl
@[simp] theorem TxEngine.reset_pending : TxEngine.reset.pending = none := rfl

end Sys2Proof.Machine
end

