-- ==== Sys2Proof/Laws/Ops.lean ====
section
/-! SUPPORT. What the shared operations do, each said once: the address map, buffer reads after buffer writes, the
acceptance of a command, and bus reads and writes. -/

namespace Sys2Proof.Machine

/-! ### The parameters as numbers -/

@[simp] theorem chMax_eq : Config.chMax = 8 := rfl
@[simp] theorem sbMaxTx_eq : Config.sbMaxTx = 16 := rfl
@[simp] theorem sbMaxRx_eq : Config.sbMaxRx = 4 := rfl
@[simp] theorem txBytes_eq : Config.txBytes = 4096 := rfl
@[simp] theorem unpBytes_eq : Config.unpBytes = 4096 := rfl
@[simp] theorem rxBytes_eq : Config.rxBytes = 4096 := rfl
@[simp] theorem hdrBytes_eq : Config.hdrBytes = 20 := rfl
@[simp] theorem symWords_eq : Config.symWords = 262144 := rfl
@[simp] theorem sampWords_eq : Config.sampWords = 262144 := rfl

/-! ### The address map -/

@[simp] theorem Buffer.size_tx : Buffer.tx.size = 4096 := rfl
@[simp] theorem Buffer.size_hdr : Buffer.hdr.size = 32 := rfl
@[simp] theorem Buffer.size_unp : Buffer.unp.size = 4096 := rfl
@[simp] theorem Buffer.size_rx : Buffer.rx.size = 4096 := rfl
@[simp] theorem Buffer.size_sym : Buffer.sym.size = 1048576 := rfl
@[simp] theorem Buffer.size_samp (c : Fin 8) : (Buffer.samp c).size = 1048576 := rfl
@[simp] theorem Buffer.storable_tx : Buffer.tx.storable = 4096 := rfl
@[simp] theorem Buffer.storable_hdr : Buffer.hdr.storable = 20 := rfl
@[simp] theorem Buffer.storable_unp : Buffer.unp.storable = 4096 := rfl
@[simp] theorem Buffer.storable_rx : Buffer.rx.storable = 4096 := rfl
@[simp] theorem Buffer.storable_sym : Buffer.sym.storable = 1048576 := rfl
@[simp] theorem Buffer.storable_samp (c : Fin 8) : (Buffer.samp c).storable = 1048576 := rfl

theorem Buffer.storable_le_size (b : Buffer) : b.storable ≤ b.size := by
  cases b <;> simp

/-- Distinct buffers share no address. -/
theorem Buffer.disjoint {b c : Buffer} (h : b ≠ c) {i j : Nat} (hi : i < b.size) (hj : j < c.size) :
    b.base + i ≠ c.base + j := by
  intro e
  apply h
  cases b <;> cases c <;>
    simp only [Buffer.base, Buffer.size_tx, Buffer.size_hdr, Buffer.size_unp, Buffer.size_rx, Buffer.size_sym,
      Buffer.size_samp] at hi hj e <;>
    first | rfl | (exfalso; omega) | skip
  exact congrArg _ (Fin.ext (by omega))

/-- The buffer found at an address holds it. -/
theorem target_buffer {a i : Nat} {b : Buffer} (h : target a = .buffer b i) :
    a = b.base + i ∧ i < b.size ∧ 0x100 ≤ a := by
  unfold target at h
  split at h
  · cases h
  · split at h
    · rename_i hlt c hfind
      injection h with h1 h2
      have := List.find?_some hfind
      simp at this
      subst h1
      omega
    · cases h

/-- Every address of a buffer's range is found to be in it. -/
theorem target_base (b : Buffer) {i : Nat} (h : i < b.size) : target (b.base + i) = .buffer b i := by
  have hlow : ¬ b.base + i < 0x100 := by cases b <;> simp only [Buffer.base] <;> omega
  unfold target
  rw [if_neg hlow]
  split
  · rename_i c hfind
    have hc := List.find?_some hfind
    simp at hc
    by_cases hbc : b = c
    · subst hbc
      simp
    · exact absurd (show b.base + i = c.base + (b.base + i - c.base) by omega) (Buffer.disjoint hbc h (by omega))
  · rename_i hfind
    have hb : b ∈ allBuffers := by
      cases b with
      | samp c => exact (by decide : ∀ c : Fin 8, Buffer.samp c ∈ allBuffers) c
      | _ => decide
    have := List.find?_eq_none.1 hfind b hb
    simp at this
    omega

/-- The page is found below 0x100, and only there. -/
theorem target_register {a n : Nat} (h : target a = .register n) : n = a ∧ a < 0x100 := by
  unfold target at h
  split at h
  · cases h
    exact ⟨rfl, ‹_›⟩
  · split at h <;> cases h

/-! ### Buffer reads after buffer writes -/

/-- A byte just written is read back. -/
theorem State.byteAt_writeBytes {s : State} {b : Buffer} {i x : Nat} {bytes : List Byte} (h1 : i ≤ x)
    (h2 : x < i + bytes.length) : (s.writeBytes b i bytes).byteAt b x = bytes.getD (x - i) 0#8 := by
  unfold State.byteAt
  rw [State.writeBytes_mem, Memory.peek_store_inside (by omega) (by omega),
    show b.base + x - (b.base + i) = x - i by omega, List.getElem?_eq_getElem (by omega)]
  simp [List.getD_eq_getElem?_getD, List.getElem?_eq_getElem (show x - i < bytes.length by omega)]

/-- A write leaves the other bytes of its buffer. -/
theorem State.byteAt_writeBytes_same {s : State} {b : Buffer} {i x : Nat} {bytes : List Byte}
    (h : x < i ∨ i + bytes.length ≤ x) : (s.writeBytes b i bytes).byteAt b x = s.byteAt b x := by
  unfold State.byteAt
  rw [State.writeBytes_mem, Memory.peek_store_outside (by omega), State.writeBytes_bufferDraw]

/-- A write inside a buffer leaves every other buffer. -/
theorem State.byteAt_writeBytes_other {s : State} {b c : Buffer} {i x : Nat} {bytes : List Byte} (hbc : b ≠ c)
    (hi : i + bytes.length ≤ b.size) (hx : x < c.size) :
    (s.writeBytes b i bytes).byteAt c x = s.byteAt c x := by
  have hout : c.base + x < b.base + i ∨ b.base + i + bytes.length ≤ c.base + x := by
    by_contra hcon
    exact Buffer.disjoint hbc (i := c.base + x - b.base) (j := x) (by omega) hx (by omega)
  unfold State.byteAt
  rw [State.writeBytes_mem, Memory.peek_store_outside hout, State.writeBytes_bufferDraw]

/-- A word just written is read back. -/
theorem State.wordAt_writeWords {s : State} {b : Buffer} {i x : Nat} {words : List Word} (h1 : i ≤ x)
    (h2 : x < i + words.length) : (s.writeWords b i words).wordAt b x = words.getD (x - i) 0#32 := by
  have hw : words[x - i]? = some (words[x - i]'(by omega)) := List.getElem?_eq_getElem (by omega)
  have hbytes : (s.writeWords b i words).readBytes b (4 * x) 4 = leBytes 4 (words[x - i]'(by omega)) := by
    unfold State.readBytes leBytes
    refine List.map_congr_left fun j hj => ?_
    have hj := List.mem_range.1 hj
    rw [State.writeWords, State.byteAt_writeBytes (by omega) (by simp; omega), List.getD_eq_getElem?_getD,
      show 4 * x + j - 4 * i = 4 * (x - i) + j by omega, flatMap_leBytes_getElem? _ _ _ hj, hw]
    rfl
  rw [State.wordAt, hbytes, wordOfLE_leBytes_four, List.getD_eq_getElem?_getD, hw]
  rfl

/-! ### Reads depend on memory and on the power-on draw only -/

theorem State.byteAt_congr {s t : State} (hm : s.mem = t.mem) (hd : s.bufferDraw = t.bufferDraw) (b : Buffer) (i : Nat) :
    s.byteAt b i = t.byteAt b i := by
  simp [State.byteAt, hm, hd]

theorem State.wordAt_congr {s t : State} {b : Buffer} {i : Nat}
    (h : ∀ j, j < 4 → s.byteAt b (4 * i + j) = t.byteAt b (4 * i + j)) : s.wordAt b i = t.wordAt b i := by
  unfold State.wordAt State.readBytes
  congr 1
  exact List.map_congr_left fun j hj => h j (List.mem_range.1 hj)

/-! ### The life of a command -/

/-- An idle TX engine accepts every command word (R134). -/
theorem State.acceptCommand_idle {s : State} (h : s.tx.pending = none) (w : Word) :
    s.acceptCommand w = { s with
      tx := { s.tx with pending := some w, done := false, err := 0#8, lastCmd := w.setWidth 8 }
      port := some ⟨false, 0#32⟩ } := by
  simp [State.acceptCommand, State.busy, h, State.acknowledge]

/-- A busy TX engine answers with a bus error (R60, R134). -/
theorem State.acceptCommand_busy {s : State} {v : Word} (h : s.tx.pending = some v) (w : Word) :
    s.acceptCommand w = s.busError := by
  simp [State.acceptCommand, State.busy, h]

/-- Completion is enabled only while a command is pending (R135). -/
theorem State.complete_idle {s : State} (h : s.tx.pending = none) : s.complete = s := by
  simp [State.complete, h]

/-- A command whose rule ends normally (R135). -/
theorem State.complete_ok {s t : State} {w : Word} (h : s.tx.pending = some w) (he : effect w s = .ok t) :
    s.complete = t.finish 0#8 := by
  simp [State.complete, h, he]

/-- A command whose rule raises an error has no other effect than its status (R135, R143, R148). -/
theorem State.complete_error {s : State} {w : Word} {e : ErrorCode} (h : s.tx.pending = some w)
    (he : effect w s = .error e) : s.complete = s.finish e.code := by
  simp [State.complete, h, he]

/-- Everything a completion can do. -/
theorem State.complete_cases (s : State) :
    (s.tx.pending = none ∧ s.complete = s) ∨
    (∃ w t, s.tx.pending = some w ∧ effect w s = .ok t ∧ s.complete = t.finish 0#8) ∨
    (∃ w e, s.tx.pending = some w ∧ effect w s = .error e ∧ s.complete = s.finish e.code) := by
  cases hp : s.tx.pending with
  | none => exact .inl ⟨rfl, State.complete_idle hp⟩
  | some w =>
    cases he : effect w s with
    | ok t => exact .inr (.inl ⟨w, t, rfl, he, State.complete_ok hp he⟩)
    | error e => exact .inr (.inr ⟨w, e, rfl, he, State.complete_error hp he⟩)

/-- No error has the code of success. -/
theorem ErrorCode.code_ne_zero (e : ErrorCode) : e.code ≠ 0#8 := by cases e <;> decide

/-! ### Bus accesses -/

/-- Everything a bus read can do: the value, or the bus error response (R59, R140). -/
theorem State.busRead_cases (s : State) (n a : Nat) :
    (s.admits .read n a = true ∧ s.busRead n a = s.answer (s.busValue n a)) ∨
    (s.admits .read n a = false ∧ s.busRead n a = s.busError) := by
  unfold State.busRead
  cases s.admits .read n a <;> simp

/-- What an admitted write stores (R141). -/
theorem State.busStore_cases (s : State) (n a : Nat) (data : Word) :
    (∃ offset, target a = .register offset ∧ s.busStore n a data = s.writePage offset data) ∨
    (∃ b i, target a = .buffer b i ∧ s.busStore n a data = s.writeBytes b i ((leBytes n data).take (b.storable - i))) ∨
    (target a = .unmapped ∧ s.busStore n a data = s) := by
  unfold State.busStore
  split
  · exact .inl ⟨_, ‹_›, rfl⟩
  · exact .inr (.inl ⟨_, _, ‹_›, rfl⟩)
  · exact .inr (.inr ⟨‹_›, rfl⟩)

/-- Everything a bus write can do (R59, R141). -/
theorem State.busWrite_cases (s : State) (n a : Nat) (data : Word) :
    (s.admits .write n a = true ∧ s.busWrite n a data = (s.busStore n a data).acknowledge) ∨
    (s.admits .write n a = false ∧ s.busWrite n a data = s.busError) := by
  unfold State.busWrite
  cases s.admits .write n a <;> simp

/-- An admitted access to a buffer is aligned, of an admitted width, and not closed by the busy window (R56, R57,
R60). -/
theorem State.admits_buffer {s : State} {d : Direction} {n a i : Nat} {b : Buffer} (ht : target a = .buffer b i)
    (h : s.admits d n a = true) :
    a % n = 0 ∧ (n = 4 ∨ b.wordOnly = false) ∧ (d = .read ∨ b.writable = true) ∧ (s.busy = false ∨ b.txSide = false) := by
  simp [State.admits, ht] at h
  obtain ⟨h1, ⟨h2, h3⟩, h4⟩ := h
  refine ⟨h1, h2, h3, ?_⟩
  cases hb : s.busy <;> simp_all

/-- An admitted access to the page is an aligned 32-bit access, to a register the busy window leaves open. -/
theorem State.admits_register {s : State} {d : Direction} {n a k : Nat} (ht : target a = .register k)
    (h : s.admits d n a = true) :
    a % 4 = 0 ∧ n = 4 ∧ ∀ r, Reg.atOffset k = some r → s.busy = false ∨ r.txSide = false := by
  simp [State.admits, ht] at h
  obtain ⟨h1, rfl, h2⟩ := h
  refine ⟨h1, rfl, fun r hr => ?_⟩
  rw [hr] at h2
  cases hb : s.busy <;> simp_all

end Sys2Proof.Machine
end

