-- ==== Sys2Proof/Laws/Symbol.lean ====
section
/-! SUPPORT. The pieces of the symbol codec: lengths of the bit stream and its groups, and what one step of an unpacker
can do. -/

namespace Sys2Proof.Machine

/-! ### Bits and groups -/

@[simp] theorem bitsOf_length (n v : Nat) : (bitsOf n v).length = n := by simp [bitsOf]

@[simp] theorem bitsOfBytes_length (bytes : List Byte) : (bitsOfBytes bytes).length = 8 * bytes.length := by
  induction bytes with
  | nil => rfl
  | cons b bs ih =>
    have : bitsOfBytes (b :: bs) = bitsOf 8 b.toNat ++ bitsOfBytes bs := rfl
    rw [this, List.length_append, bitsOf_length, ih, List.length_cons]
    omega

/-- Rounding up by division. -/
theorem ceilDiv_mul_eq {n d : Nat} (h : 0 < d) : ceilDiv n d * d = n + (d - n % d) % d := by
  unfold ceilDiv
  have hm := Nat.div_add_mod n d
  by_cases hz : n % d = 0
  · have hq : n = d * (n / d) := by omega
    rw [hz, Nat.sub_zero, Nat.mod_self, show n + d - 1 = d - 1 + d * (n / d) by omega,
      Nat.add_mul_div_left _ _ h, Nat.div_eq_of_lt (by omega : d - 1 < d), Nat.zero_add, Nat.mul_comm]
    omega
  · have hlt := Nat.mod_lt n h
    rw [Nat.mod_eq_of_lt (by omega : d - n % d < d), show n + d - 1 = (n % d - 1) + d * (n / d + 1) by
        rw [Nat.mul_add]; omega, Nat.add_mul_div_left _ _ h, Nat.div_eq_of_lt (by omega : n % d - 1 < d),
      Nat.zero_add, Nat.add_mul, Nat.mul_comm]
    omega

/-- The padded bit stream is a whole number of groups (R95). -/
theorem padBits_length {sb : Nat} (h : 0 < sb) (bits : List Bool) :
    (padBits sb bits).length = ceilDiv bits.length sb * sb := by
  rw [ceilDiv_mul_eq h]
  simp [padBits]

@[simp] theorem groupsOf_length {α : Type} (size count : Nat) (xs : List α) : (groupsOf size count xs).length = count := by
  induction count generalizing xs with
  | zero => rfl
  | succ n ih => simp [groupsOf, ih]

/-- Group `g` is the run of `size` elements from index `g * size` on. -/
theorem groupsOf_getElem? {α : Type} (size count : Nat) (xs : List α) {g : Nat} (h : g < count) :
    (groupsOf size count xs)[g]? = some ((xs.drop (g * size)).take size) := by
  induction count generalizing xs g with
  | zero => omega
  | succ n ih =>
    cases g with
    | zero => simp [groupsOf]
    | succ g =>
      rw [groupsOf, List.getElem?_cons_succ, ih _ (by omega), List.drop_drop, show size + g * size = (g + 1) * size by
        rw [Nat.add_mul, Nat.one_mul, Nat.add_comm]]

@[simp] theorem emitSymbols_length (prev : Option Nat) (ks : List Nat) : (emitSymbols prev ks).length = ks.length := by
  induction ks generalizing prev with
  | nil => rfl
  | cons k ks ih => simp [emitSymbols, ih]

/-- Each emitted symbol is the data bin or the sentinel (R97). -/
theorem emitSymbols_mem {prev : Option Nat} {ks : List Nat} {e : Nat} (h : e ∈ emitSymbols prev ks) : e = 0 ∨ e ∈ ks := by
  induction ks generalizing prev with
  | nil => exact absurd h (by simp [emitSymbols])
  | cons k ks ih =>
    rw [emitSymbols, List.mem_cons] at h
    rcases h with h | h
    · by_cases hp : prev = some k
      · exact .inl (by simpa [hp] using h)
      · exact .inr (by simp [h, hp])
    · exact (ih h).imp id (List.mem_cons_of_mem _)

/-- A number of `n` bits is below `2 ^ n`. -/
theorem valueOf_lt (bits : List Bool) : valueOf bits < 2 ^ bits.length := by
  suffices h : ∀ (v : Nat), bits.foldl (fun v b => 2 * v + b.toNat) v < (v + 1) * 2 ^ bits.length by
    simpa [valueOf] using h 0
  induction bits with
  | nil => intro v; simp
  | cons b bs ih =>
    intro v
    refine lt_of_lt_of_le (ih _) ?_
    rw [List.length_cons, Nat.pow_succ']
    have hb : b.toNat ≤ 1 := Bool.toNat_le b
    calc (2 * v + b.toNat + 1) * 2 ^ bs.length ≤ (2 * (v + 1)) * 2 ^ bs.length :=
          Nat.mul_le_mul_right _ (by omega)
      _ = (v + 1) * (2 * 2 ^ bs.length) := by ring

/-! ### The unpacker -/

/-- What bits entering an unpacker can do: it keeps its group size, target and previous symbols, counts every byte it
emits, never passes its target, and keeps a partial byte. -/
theorem Unpacker.pushBits_facts (u : Unpacker) (bits : List Bool) (hn : u.nacc < 8) (ho : u.nout < u.target) :
    (u.pushBits bits).1.sb = u.sb ∧ (u.pushBits bits).1.target = u.target
      ∧ (u.pushBits bits).1.prevRaw = u.prevRaw ∧ (u.pushBits bits).1.prevRes = u.prevRes
      ∧ (u.pushBits bits).1.nout = u.nout + (u.pushBits bits).2.length
      ∧ (u.pushBits bits).1.nout ≤ u.target ∧ (u.pushBits bits).1.nacc < 8 := by
  induction bits generalizing u with
  | nil => simp [Unpacker.pushBits, hn]; omega
  | cons b bs ih =>
    simp only [Unpacker.pushBits]
    split
    · split
      · simp
        omega
      · rename_i hfull
        have hrec := ih { u with acc := 0#8, nacc := 0, nout := u.nout + 1 } (by simp) (by simpa using hfull)
        simp only [List.length_cons]
        refine ⟨hrec.1, hrec.2.1, hrec.2.2.1, hrec.2.2.2.1, ?_, hrec.2.2.2.2.2⟩
        have := hrec.2.2.2.2.1
        simp at this
        omega
    · exact ih { u with acc := u.acc * 2#8 + (BitVec.ofBool b).setWidth 8, nacc := u.nacc + 1 } (by simp; omega) ho

/-- What one symbol can do to an unpacker that has not passed its target (R99). -/
theorem Unpacker.push_facts (u : Unpacker) (symbol : Nat) (hn : u.nacc < 8) (ho : u.nout ≤ u.target) :
    (u.push symbol).1.sb = u.sb ∧ (u.push symbol).1.target = u.target
      ∧ (u.push symbol).1.nout = u.nout + (u.push symbol).2.length
      ∧ (u.push symbol).1.nout ≤ u.target ∧ (u.push symbol).1.nacc < 8 := by
  unfold Unpacker.push
  split
  · simp [ho, hn]
  · split
    · simp [ho, hn]
    · simp only
      split
      · simp [ho, hn]
      · rename_i res _
        have h := Unpacker.pushBits_facts { u with prevRaw := some symbol, prevRes := some res }
          (bitsOf u.sb ((res - 1) % 2 ^ u.sb)) hn (by simp; omega)
        exact ⟨h.1, h.2.1, h.2.2.2.2.1, h.2.2.2.2.2.1, h.2.2.2.2.2.2⟩

/-- What several symbols can do to an unpacker that has not passed its target (R100). -/
theorem Unpacker.pushAll_facts (u : Unpacker) (symbols : List Nat) (hn : u.nacc < 8) (ho : u.nout ≤ u.target) :
    (u.pushAll symbols).1.sb = u.sb ∧ (u.pushAll symbols).1.target = u.target
      ∧ (u.pushAll symbols).1.nout = u.nout + (u.pushAll symbols).2.length
      ∧ (u.pushAll symbols).1.nout ≤ u.target ∧ (u.pushAll symbols).1.nacc < 8 := by
  induction symbols generalizing u with
  | nil => simp [Unpacker.pushAll, hn, ho]
  | cons x xs ih =>
    obtain ⟨h1, h2, h3, h4, h5⟩ := Unpacker.push_facts u x hn ho
    obtain ⟨r1, r2, r3, r4, r5⟩ := ih (u.push x).1 h5 (by omega)
    simp only [Unpacker.pushAll, List.length_append]
    exact ⟨r1.trans h1, r2.trans h2, by omega, by omega, r5⟩

/-- Symbols in turn: a run splits anywhere (R100). -/
theorem Unpacker.pushAll_append (u : Unpacker) (xs ys : List Nat) :
    u.pushAll (xs ++ ys) = (((u.pushAll xs).1.pushAll ys).1, (u.pushAll xs).2 ++ ((u.pushAll xs).1.pushAll ys).2) := by
  induction xs generalizing u with
  | nil => simp [Unpacker.pushAll]
  | cons x xs ih => simp [Unpacker.pushAll, ih]

@[simp] theorem Unpacker.pushAll_nil (u : Unpacker) : u.pushAll [] = (u, []) := rfl

/-- A stopped unpacker ignores every symbol (R99). -/
theorem Unpacker.push_stopped {u : Unpacker} (h : u.target ≤ u.nout) (symbol : Nat) : u.push symbol = (u, []) := by
  simp [Unpacker.push, h]

end Sys2Proof.Machine
end

