-- ==== Sys2Proof/Laws/Synth.lean ====
section
/-! SUPPORT. The pieces of the synthesizer: one tone, one instant, a score in parts, and the bytes a waveform writes. -/

namespace Sys2Proof.Machine

/-! ### Tones and scores -/

/-- A tone advances the phase of its own channel only (R107). -/
theorem Oscillators.tone_phase (o : Oscillators) (c : Fin 8) (w : Word) (d : Fin 8) :
    (o.tone (c, w)).phase[d] = if d = c then o.phase[d] + w else o.phase[d] := by
  by_cases h : d = c
  · subst h
    simp [Oscillators.tone]
  · have : c.val ≠ d.val := fun e => h (Fin.ext e.symm)
    simp [Oscillators.tone, h, this]

/-- A tone writes the hold value of its own channel only (R107). -/
theorem Oscillators.tone_hold (o : Oscillators) (c : Fin 8) (w : Word) (d : Fin 8) :
    (o.tone (c, w)).hold[d] = if d = c then sine (o.phase[d] + w) else o.hold[d] := by
  by_cases h : d = c
  · subst h
    simp [Oscillators.tone]
  · have : c.val ≠ d.val := fun e => h (Fin.ext e.symm)
    simp [Oscillators.tone, h, this]

@[simp] theorem playScore_nil (o : Oscillators) : playScore o [] = (o, []) := rfl

/-- A score plays in parts, each from the oscillators the one before it left (R111, R119). -/
theorem playScore_append (o : Oscillators) (xs ys : List Tones) :
    playScore o (xs ++ ys)
      = ((playScore (playScore o xs).1 ys).1, (playScore o xs).2 ++ (playScore (playScore o xs).1 ys).2) := by
  induction xs generalizing o with
  | nil => simp
  | cons x xs ih => simp [playScore, ih]

/-- One sample for each instant (R110). -/
@[simp] theorem playScore_length (o : Oscillators) (score : List Tones) : (playScore o score).2.length = score.length := by
  induction score generalizing o with
  | nil => rfl
  | cons x xs ih => simp [playScore, ih]

@[simp] theorem directScore_length (g : Grid) (fs : Nat) (symbols : List Nat) :
    (directScore g fs symbols).length = symbols.length := by
  simp [directScore]

@[simp] theorem resolveSentinels_length (prev : Option Nat) (ys : List Nat) :
    (resolveSentinels prev ys).length = ys.length := by
  induction ys generalizing prev with
  | nil => rfl
  | cons y ys ih => simp [resolveSentinels, ih]

@[simp] theorem classifyLumps_length (prev : Option (List Nat × LumpKind)) (lumps : List (List Nat)) :
    (classifyLumps prev lumps).length = lumps.length := by
  induction lumps generalizing prev with
  | nil => rfl
  | cons x xs ih => simp [classifyLumps, ih]

/-- Runs of equal length, joined. -/
theorem flatMap_replicate_length {α β : Type} (r : Nat) (f : α → β) (xs : List α) :
    (xs.flatMap fun x => List.replicate r (f x)).length = xs.length * r := by
  induction xs with
  | nil => simp
  | cons x xs ih => simp [ih, Nat.add_mul, Nat.add_comm]

/-! ### The bytes a waveform writes -/

/-- Samples are written to memory only. -/
theorem State.writeSamples_eq (s : State) (frames : List (Vector Word 8)) (channels : List (Fin 8)) :
    s.writeSamples frames channels = { s with mem := (s.writeSamples frames channels).mem } := by
  induction channels generalizing s with
  | nil => rfl
  | cons c cs ih =>
    have h : s.writeSamples frames (c :: cs) = (s.writeWords (.samp c) 0 (frames.map fun h => h[c])).writeSamples frames cs :=
      rfl
    rw [h, ih]
    rfl

/-- The channels that a waveform writes. -/
theorem WaveShape.mem_channelList {w : WaveShape} {c : Fin 8} : c ∈ w.channelList ↔ c.val < w.channels := by
  simp [WaveShape.channelList]

/-- A byte outside the written part of every written channel is as before (R110, R116). -/
theorem State.writeSamples_byteAt_outside (s : State) (frames : List (Vector Word 8)) (channels : List (Fin 8)) (b : Buffer)
    (i : Nat) (h : ∀ c ∈ channels, ¬((Buffer.samp c).base ≤ b.base + i ∧
      b.base + i < (Buffer.samp c).base + 4 * frames.length)) :
    (s.writeSamples frames channels).byteAt b i = s.byteAt b i := by
  induction channels generalizing s with
  | nil => rfl
  | cons c cs ih =>
    have hc := h c (by simp)
    have hstep : s.writeSamples frames (c :: cs)
        = (s.writeWords (.samp c) 0 (frames.map fun h => h[c])).writeSamples frames cs := rfl
    rw [hstep, ih _ fun d hd => h d (by simp [hd])]
    unfold State.byteAt
    rw [State.writeWords_mem, Memory.peek_store_outside (by rw [flatMap_leBytes_length, List.length_map]; omega),
      State.writeWords_bufferDraw]

/-- A sample is read back from its channel's buffer (R110). -/
theorem State.writeSamples_wordAt (s : State) (frames : List (Vector Word 8)) (channels : List (Fin 8))
    (hlen : frames.length ≤ Config.sampWords) {c : Fin 8} (hc : c ∈ channels) (hn : channels.Nodup) {j : Nat}
    (hj : j < frames.length) : (s.writeSamples frames channels).wordAt (.samp c) j = (frames[j])[c] := by
  induction channels generalizing s with
  | nil => simp at hc
  | cons d ds ih =>
    have hstep : s.writeSamples frames (d :: ds)
        = (s.writeWords (.samp d) 0 (frames.map fun h => h[d])).writeSamples frames ds := rfl
    rw [hstep]
    rw [List.nodup_cons] at hn
    rcases List.mem_cons.1 hc with rfl | hc
    · rw [State.wordAt_congr (t := s.writeWords (.samp c) 0 (frames.map fun h => h[c]))]
      · rw [State.wordAt_writeWords (Nat.zero_le _) (by simpa using hj), List.getD_eq_getElem?_getD]
        simp [hj]
      · intro k hk
        refine State.writeSamples_byteAt_outside _ _ _ _ _ fun d hd => ?_
        have hne : c ≠ d := fun e => hn.1 (e ▸ hd)
        have hb : (Buffer.samp c).base = 0x1000000 + c.val * 0x100000 := rfl
        have hb' : (Buffer.samp d).base = 0x1000000 + d.val * 0x100000 := rfl
        have : c.val ≠ d.val := fun e => hne (Fin.ext e)
        simp only [sampWords_eq] at hlen
        omega
    · exact ih _ hc hn.2

end Sys2Proof.Machine
end

