-- ==== Sys2Proof/Laws/Command.lean ====
section
/-! SUPPORT. What the effect of a command can be, said once. -/

namespace Sys2Proof.Machine

/-- Everything the effect of a command that ends normally can be (30_encoding.md R85; 45_control.md R135). -/
theorem effect_ok_cases {w : Word} {s t : State} (h : effect w s = .ok t) :
    (w.toNat = 0 ∧ t = s)
    ∨ (w.toNat = 1 ∧ t = { s.writeBytes .hdr 0 (headerBytes s.tx.params) with
        tx := { s.tx with hdrAvail := 20#32, outLen := 20#32, outChannels := 0#32 } })
    ∨ (w.toNat = 2 ∧ 20 ≤ s.tx.hdrAvail.toNat ∧ t = { s with
        tx := { s.tx with parsed := headerParams (s.byteAt .hdr), outLen := 0#32, outChannels := 0#32 } })
    ∨ (w.toNat = 3 ∧ ∃ n, checkPack s = .ok n ∧ t = { s.writeWords .sym 0 (s.packedSymbols.map (BitVec.ofNat 32)) with
        tx := { s.tx with symCount := BitVec.ofNat 32 n, outLen := BitVec.ofNat 32 n, outChannels := 0#32 } })
    ∨ (w.toNat = 4 ∧ ∃ count, checkUnpack s = .ok count ∧
        t = { s.writeBytes .unp 0 ((Unpacker.fresh s.tx.params.symbolBits.toNat count).pushAll s.storedSymbols).2 with
          tx := { s.tx with
            outLen := BitVec.ofNat 32
              ((Unpacker.fresh s.tx.params.symbolBits.toNat count).pushAll s.storedSymbols).1.nout
            outChannels := 0#32 } })
    ∨ (w.toNat = 5 ∧ ∃ shape, checkSynth s = .ok shape ∧ t = s.playWaveform shape s.synthScore)
    ∨ (w.toNat = 6 ∧ ∃ shape, checkBuildFrame s = .ok shape ∧ t = s.playWaveform shape s.frameScore) := by
  unfold effect at h
  split at h
  · rename_i hw
    simp only [effectNop, Except.ok.injEq] at h
    exact .inl ⟨hw, h.symm⟩
  · rename_i hw
    simp only [effectSerializeHeader, Except.ok.injEq] at h
    exact .inr (.inl ⟨hw, h.symm⟩)
  · rename_i hw
    simp only [effectParseHeader, hdrBytes_eq] at h
    split at h
    · cases h
    · injection h with h
      exact .inr (.inr (.inl ⟨hw, by omega, h.symm⟩))
  · rename_i hw
    simp only [effectPack] at h
    split at h
    · cases h
    · injection h with h
      exact .inr (.inr (.inr (.inl ⟨hw, _, ‹_›, h.symm⟩)))
  · rename_i hw
    simp only [effectUnpack] at h
    split at h
    · cases h
    · injection h with h
      exact .inr (.inr (.inr (.inr (.inl ⟨hw, _, ‹_›, h.symm⟩))))
  · rename_i hw
    simp only [effectSynth] at h
    split at h
    · cases h
    · injection h with h
      exact .inr (.inr (.inr (.inr (.inr (.inl ⟨hw, _, ‹_›, h.symm⟩)))))
  · rename_i hw
    simp only [effectBuildFrame] at h
    split at h
    · cases h
    · injection h with h
      exact .inr (.inr (.inr (.inr (.inr (.inr ⟨hw, _, ‹_›, h.symm⟩)))))
  · cases h

/-- A waveform changes the memory, the phases, the holds and the two output registers (R116, R120). -/
theorem State.playWaveform_eq (s : State) (shape : WaveShape) (score : List Tones) :
    s.playWaveform shape score = { s with
      mem := (s.writeSamples (playScore Oscillators.atStart score).2 shape.channelList).mem
      tx := { s.tx with
        phase := (playScore Oscillators.atStart score).1.phase, hold := (playScore Oscillators.atStart score).1.hold
        outLen := BitVec.ofNat 32 shape.instants, outChannels := BitVec.ofNat 32 shape.channels } } := by
  unfold State.playWaveform
  simp only
  rw [State.writeSamples_eq]

/-- An effect touches the TX engine's registers and the memory, never its status, its parameters or anything else
(R5, R135). -/
theorem effect_frame {w : Word} {s t : State} (h : effect w s = .ok t) :
    t = { s with tx := t.tx, mem := t.mem } ∧ t.tx.pending = s.tx.pending ∧ t.tx.done = s.tx.done
      ∧ t.tx.err = s.tx.err ∧ t.tx.lastCmd = s.tx.lastCmd ∧ t.tx.params = s.tx.params
      ∧ t.tx.replication = s.tx.replication ∧ t.tx.sampleRate = s.tx.sampleRate := by
  rcases effect_ok_cases h with ⟨-, rfl⟩ | ⟨-, rfl⟩ | ⟨-, -, rfl⟩ | ⟨-, n, -, rfl⟩ | ⟨-, n, -, rfl⟩ | ⟨-, n, -, rfl⟩ |
    ⟨-, n, -, rfl⟩
  · exact ⟨rfl, rfl, rfl, rfl, rfl, rfl, rfl, rfl⟩
  · exact ⟨rfl, rfl, rfl, rfl, rfl, rfl, rfl, rfl⟩
  · exact ⟨rfl, rfl, rfl, rfl, rfl, rfl, rfl, rfl⟩
  · exact ⟨rfl, rfl, rfl, rfl, rfl, rfl, rfl, rfl⟩
  · exact ⟨rfl, rfl, rfl, rfl, rfl, rfl, rfl, rfl⟩
  · rw [State.playWaveform_eq]
    exact ⟨rfl, rfl, rfl, rfl, rfl, rfl, rfl, rfl⟩
  · rw [State.playWaveform_eq]
    exact ⟨rfl, rfl, rfl, rfl, rfl, rfl, rfl, rfl⟩

/-- A completion changes the TX engine, the memory and the pending bits only (R5, R135). -/
theorem State.complete_frame (s : State) :
    s.complete = { s with tx := s.complete.tx, mem := s.complete.mem, irqStatus := s.complete.irqStatus } := by
  rcases State.complete_cases s with ⟨-, h⟩ | ⟨w, t, -, he, h⟩ | ⟨w, e, -, -, h⟩
  · rw [h]
  · rw [h]
    have := (effect_frame he).1
    rw [this]
    rfl
  · rw [h]
    rfl

end Sys2Proof.Machine
end

