-- ==== Sys2Proof/Laws/Decode.lean ====
section
/-! SUPPORT. Transaction words by their fields, and what each shape of row of the opcode table asks of them. -/

namespace Sys2Proof

/-! ### The fields -/

theorem transaction_getLsbD (w : Bool) (s : BitVec 2) (a : Addr) (d : Word) (i : Nat) :
    (transaction w s a d).getLsbD i =
      if i < 32 then d.getLsbD i
      else if i < 57 then a.getLsbD (i - 32)
      else if i < 59 then s.getLsbD (i - 57)
      else if i = 59 then w else false := by
  have h : (transaction w s a d).getLsbD i
      = BitVec.getLsbD (w := 4 + 1 + 2 + 25 + 32) (0#4 ++ BitVec.ofBool w ++ s ++ a ++ d) i := rfl
  rw [h]
  simp only [BitVec.getLsbD_append]
  by_cases h1 : i < 32
  · simp [h1]
  by_cases h2 : i < 57
  · simp [h1, h2, show i - 32 < 25 by omega]
  by_cases h3 : i < 59
  · rw [if_neg h1, if_neg (show ¬ i - 32 < 25 by omega), if_pos (show i - 32 - 25 < 2 by omega), if_neg h1, if_neg h2,
      if_pos h3, show i - 32 - 25 = i - 57 by omega]
  by_cases h4 : i = 59
  · subst h4
    simp
  · simp [h1, h2, h3, h4, show ¬ i - 32 < 25 by omega, show ¬ i - 32 - 25 < 2 by omega,
      show ¬ i - 32 - 25 - 2 < 1 by omega]

@[simp] theorem dataField_transaction (w : Bool) (s : BitVec 2) (a : Addr) (d : Word) :
    dataField (transaction w s a d) = d := by
  apply BitVec.eq_of_getLsbD_eq
  intro i hi
  rw [dataField, BitVec.getLsbD_extractLsb', transaction_getLsbD]
  simp [hi]

@[simp] theorem addrField_transaction (w : Bool) (s : BitVec 2) (a : Addr) (d : Word) :
    addrField (transaction w s a d) = a := by
  apply BitVec.eq_of_getLsbD_eq
  intro i hi
  rw [addrField, BitVec.getLsbD_extractLsb', transaction_getLsbD]
  simp [hi, show 32 + i < 57 by omega]

@[simp] theorem sizeField_transaction (w : Bool) (s : BitVec 2) (a : Addr) (d : Word) :
    sizeField (transaction w s a d) = s := by
  apply BitVec.eq_of_getLsbD_eq
  intro i hi
  rw [sizeField, BitVec.getLsbD_extractLsb', transaction_getLsbD]
  simp [hi, show ¬ 57 + i < 57 by omega, show ¬ 57 + i < 32 by omega, show 57 + i < 59 by omega]

@[simp] theorem spareField_transaction (w : Bool) (s : BitVec 2) (a : Addr) (d : Word) :
    spareField (transaction w s a d) = 0#4 := by
  apply BitVec.eq_of_getLsbD_eq
  intro i hi
  rw [spareField, BitVec.getLsbD_extractLsb', transaction_getLsbD]
  simp [show ¬ 60 + i < 57 by omega, show ¬ 60 + i < 32 by omega, show ¬ 60 + i < 59 by omega,
    show ¬ 60 + i = 59 by omega]

/-- A word is the transaction of its own fields when bits 63:60 are 0 (R83). -/
theorem transaction_eta {t : Transaction} (h : spareField t = 0#4) :
    transaction (t.getLsbD 59) (sizeField t) (addrField t) (dataField t) = t := by
  apply BitVec.eq_of_getLsbD_eq
  intro i hi
  rw [transaction_getLsbD]
  by_cases h1 : i < 32
  · simp [h1, dataField]
  by_cases h2 : i < 57
  · simp [h1, h2, addrField, show i - 32 < 25 by omega, show 32 + (i - 32) = i by omega]
  by_cases h3 : i < 59
  · simp [h1, h2, h3, sizeField, show i - 57 < 2 by omega, show 57 + (i - 57) = i by omega]
  by_cases h4 : i = 59
  · subst h4
    simp
  · have hz := congrArg (fun v : BitVec 4 => v.getLsbD (i - 60)) h
    simp [spareField, show i - 60 < 4 by omega, show 60 + (i - 60) = i by omega] at hz
    rw [if_neg h1, if_neg h2, if_neg h3, if_neg h4, ← hz]

/-- Two transactions are the same word exactly when their fields agree. -/
theorem transaction_inj {w w' : Bool} {s s' : BitVec 2} {a a' : Addr} {d d' : Word} :
    transaction w s a d = transaction w' s' a' d' ↔ w = w' ∧ s = s' ∧ a = a' ∧ d = d' := by
  constructor
  · intro h
    have hw := congrArg (fun t : Transaction => t.getLsbD 59) h
    rw [transaction_getLsbD, transaction_getLsbD] at hw
    refine ⟨by simpa using hw, ?_, ?_, ?_⟩
    · simpa using congrArg sizeField h
    · simpa using congrArg addrField h
    · simpa using congrArg dataField h
  · rintro ⟨rfl, rfl, rfl, rfl⟩
    rfl

/-! ### The masks of the table -/

theorem transaction_and_all (t : Transaction) : t &&& 0xFFFFFFFFFFFFFFFF#64 = t := by
  rw [show (0xFFFFFFFFFFFFFFFF#64 : Transaction) = BitVec.allOnes 64 by decide, BitVec.and_allOnes]

/-- A mask of bits 63:32 and some of the data bits keeps the request and those bits. -/
theorem transaction_and_data (w : Bool) (s : BitVec 2) (a : Addr) (d m : Word) :
    transaction w s a d &&& (0xFFFFFFFF#32 ++ m : BitVec 64) = transaction w s a (d &&& m) := by
  apply BitVec.eq_of_getLsbD_eq
  intro i hi
  have hm : (0xFFFFFFFF#32 ++ m : BitVec 64).getLsbD i = if i < 32 then m.getLsbD i else true := by
    rw [show (0xFFFFFFFF#32 ++ m : BitVec 64).getLsbD i = BitVec.getLsbD (w := 32 + 32) (0xFFFFFFFF#32 ++ m) i from rfl,
      BitVec.getLsbD_append]
    by_cases h : i < 32
    · simp [h]
    · rw [if_neg h, if_neg h]
      exact (by decide : ∀ j : Fin 32, (0xFFFFFFFF#32).getLsbD j.val = true) ⟨i - 32, by omega⟩
  rw [BitVec.getLsbD_and, transaction_getLsbD, transaction_getLsbD, hm]
  by_cases h : i < 32 <;> simp [h]

/-- The mask of bits 63:57 keeps the direction and the size. -/
theorem transaction_and_top (w : Bool) (s : BitVec 2) (a : Addr) (d : Word) :
    transaction w s a d &&& 0xFE00000000000000#64 = transaction w s 0#25 0#32 := by
  apply BitVec.eq_of_getLsbD_eq
  intro i hi
  have hm : (0xFE00000000000000#64).getLsbD i = decide (57 ≤ i) := by
    exact (by decide : ∀ j : Fin 64, (0xFE00000000000000#64).getLsbD j.val = decide (57 ≤ j.val)) ⟨i, hi⟩
  rw [BitVec.getLsbD_and, transaction_getLsbD, transaction_getLsbD, hm]
  by_cases h1 : i < 32
  · simp [h1]
    omega
  · by_cases h2 : i < 57
    · simp [h1, h2]
    · simp [h1, h2]
      omega

/-! ### What each shape of row asks -/

/-- A row whose mask covers the whole word. -/
theorem fits_all {r : Transaction → Instr} {w w' : Bool} {s s' : BitVec 2} {a a' : Addr} {d d' : Word} :
    Row.fits ⟨transaction w' s' a' d', 0xFFFFFFFFFFFFFFFF#64, r⟩ (transaction w s a d)
      = decide (w = w' ∧ s = s' ∧ a = a' ∧ d = d') := by
  simp only [Row.fits, transaction_and_all]
  exact decide_eq_decide.2 transaction_inj

/-- A row whose mask covers bits 63:32 and the data bits `m`. -/
theorem fits_data {r : Transaction → Instr} {w w' : Bool} {s s' : BitVec 2} {a a' : Addr} {d d' m : Word} :
    Row.fits ⟨transaction w' s' a' d', (0xFFFFFFFF#32 ++ m : BitVec 64), r⟩ (transaction w s a d)
      = decide (w = w' ∧ s = s' ∧ a = a' ∧ d &&& m = d') := by
  simp only [Row.fits, transaction_and_data]
  exact decide_eq_decide.2 transaction_inj

/-- A row whose mask covers bits 63:32. -/
theorem fits_request {r : Transaction → Instr} {w w' : Bool} {s s' : BitVec 2} {a a' : Addr} {d : Word} :
    Row.fits ⟨transaction w' s' a' 0#32, 0xFFFFFFFF00000000#64, r⟩ (transaction w s a d)
      = decide (w = w' ∧ s = s' ∧ a = a') := by
  rw [show (0xFFFFFFFF00000000#64 : Transaction) = (0xFFFFFFFF#32 ++ 0#32 : BitVec 64) by decide, fits_data]
  exact decide_eq_decide.2 (by simp)

/-- A row whose mask covers bits 63:32 and `DATA[0]`. -/
theorem fits_bit {r : Transaction → Instr} {w w' : Bool} {s s' : BitVec 2} {a a' : Addr} {d d' : Word} :
    Row.fits ⟨transaction w' s' a' d', 0xFFFFFFFF00000001#64, r⟩ (transaction w s a d)
      = decide (w = w' ∧ s = s' ∧ a = a' ∧ d &&& 1#32 = d') := by
  rw [show (0xFFFFFFFF00000001#64 : Transaction) = (0xFFFFFFFF#32 ++ 1#32 : BitVec 64) by decide, fits_data]

/-- A row whose mask covers bits 63:32 and `DATA[1:0]`. -/
theorem fits_twoBits {r : Transaction → Instr} {w w' : Bool} {s s' : BitVec 2} {a a' : Addr} {d d' : Word} :
    Row.fits ⟨transaction w' s' a' d', 0xFFFFFFFF00000003#64, r⟩ (transaction w s a d)
      = decide (w = w' ∧ s = s' ∧ a = a' ∧ d &&& 3#32 = d') := by
  rw [show (0xFFFFFFFF00000003#64 : Transaction) = (0xFFFFFFFF#32 ++ 3#32 : BitVec 64) by decide, fits_data]

/-- A row whose mask covers bits 63:57. -/
theorem fits_top {r : Transaction → Instr} {w w' : Bool} {s s' : BitVec 2} {a : Addr} {d : Word} :
    Row.fits ⟨transaction w' s' 0#25 0#32, 0xFE00000000000000#64, r⟩ (transaction w s a d)
      = decide (w = w' ∧ s = s') := by
  simp only [Row.fits, transaction_and_top]
  refine decide_eq_decide.2 (transaction_inj.trans ?_)
  simp

/-- The table with every pattern and mask written by fields. -/
theorem opcodeTable_by_fields :
    opcodeTable =
      [⟨transaction true 2#2 0x034#25 0#32, 0xFFFFFFFFFFFFFFFF#64, fun _ => .nop⟩,
       ⟨transaction true 2#2 0x034#25 1#32, 0xFFFFFFFFFFFFFFFF#64, fun _ => .serializeHeader⟩,
       ⟨transaction true 2#2 0x034#25 2#32, 0xFFFFFFFFFFFFFFFF#64, fun _ => .parseHeader⟩,
       ⟨transaction true 2#2 0x034#25 3#32, 0xFFFFFFFFFFFFFFFF#64, fun _ => .pack⟩,
       ⟨transaction true 2#2 0x034#25 4#32, 0xFFFFFFFFFFFFFFFF#64, fun _ => .unpack⟩,
       ⟨transaction true 2#2 0x034#25 5#32, 0xFFFFFFFFFFFFFFFF#64, fun _ => .synth⟩,
       ⟨transaction true 2#2 0x034#25 6#32, 0xFFFFFFFFFFFFFFFF#64, fun _ => .buildFrame⟩,
       ⟨transaction true 2#2 0x034#25 0#32, 0xFFFFFFFF00000000#64, fun t => .illegalCmd (dataField t)⟩,
       ⟨transaction true 2#2 0x080#25 0#32, 0xFFFFFFFF00000000#64, fun t => .rxPushSlot (dataField t)⟩,
       ⟨transaction true 2#2 0x004#25 1#32, 0xFFFFFFFF00000001#64,
         fun t => .softReset (t.extractLsb' 1 31)⟩,
       ⟨transaction true 2#2 0x004#25 2#32, 0xFFFFFFFF00000003#64,
         fun t => .rxReset (t.extractLsb' 2 30)⟩,
       ⟨transaction true 2#2 0x008#25 0#32, 0xFFFFFFFF00000000#64,
         fun t => .irqAck (t.extractLsb' 4 28) (t.extractLsb' 0 4)⟩,
       ⟨transaction true 0#2 0#25 0#32, 0xFE00000000000000#64, fun t => .busWrite8 (addrField t) (dataField t)⟩,
       ⟨transaction true 1#2 0#25 0#32, 0xFE00000000000000#64, fun t => .busWrite16 (addrField t) (dataField t)⟩,
       ⟨transaction true 2#2 0#25 0#32, 0xFE00000000000000#64, fun t => .busWrite32 (addrField t) (dataField t)⟩,
       ⟨transaction false 0#2 0#25 0#32, 0xFE00000000000000#64, fun t => .busRead8 (addrField t) (dataField t)⟩,
       ⟨transaction false 1#2 0#25 0#32, 0xFE00000000000000#64, fun t => .busRead16 (addrField t) (dataField t)⟩,
       ⟨transaction false 2#2 0#25 0#32, 0xFE00000000000000#64, fun t => .busRead32 (addrField t) (dataField t)⟩] := by
  rfl

end Sys2Proof
end

