-- ==== Sys2Proof/Laws/PerInstr.lean ====
section
/-! SUPPORT. Statements for all instructions, proved one constructor at a time. -/

namespace Sys2Proof.Laws

/-- The word of every instruction is one that a bus port can carry: bits 63:60 are 0 and `SIZE` is not 3
(30_encoding.md R83, R89). -/
def PortWord.Statement (i : Instr) : Prop := spareField (encode i) = 0#4 ∧ sizeField (encode i) ≠ 3#2

/-- A request of `SIZE` 0 to 2 is such a word. -/
theorem portWord_transaction {w : Bool} {s : BitVec 2} {a : Addr} {d : Word} (h : s ≠ 3#2) :
    spareField (transaction w s a d) = 0#4 ∧ sizeField (transaction w s a d) ≠ 3#2 := by
  rw [spareField_transaction, sizeField_transaction]
  exact ⟨rfl, h⟩

theorem PortWord.nop : PortWord.Statement .nop :=
  portWord_transaction (by decide)

theorem PortWord.serializeHeader : PortWord.Statement .serializeHeader :=
  portWord_transaction (by decide)

theorem PortWord.parseHeader : PortWord.Statement .parseHeader :=
  portWord_transaction (by decide)

theorem PortWord.pack : PortWord.Statement .pack :=
  portWord_transaction (by decide)

theorem PortWord.unpack : PortWord.Statement .unpack :=
  portWord_transaction (by decide)

theorem PortWord.synth : PortWord.Statement .synth :=
  portWord_transaction (by decide)

theorem PortWord.buildFrame : PortWord.Statement .buildFrame :=
  portWord_transaction (by decide)

theorem PortWord.illegalCmd (word : Word) : PortWord.Statement (.illegalCmd word) :=
  portWord_transaction (by decide)

theorem PortWord.rxPushSlot (code : Word) : PortWord.Statement (.rxPushSlot code) :=
  portWord_transaction (by decide)

theorem PortWord.softReset (ignored : BitVec 31) : PortWord.Statement (.softReset ignored) :=
  portWord_transaction (by decide)

theorem PortWord.rxReset (ignored : BitVec 30) : PortWord.Statement (.rxReset ignored) :=
  portWord_transaction (by decide)

theorem PortWord.irqAck (ignored : BitVec 28) (clear : BitVec 4) : PortWord.Statement (.irqAck ignored clear) :=
  portWord_transaction (by decide)

theorem PortWord.busWrite8 (addr : Addr) (data : Word) : PortWord.Statement (.busWrite8 addr data) :=
  portWord_transaction (by decide)

theorem PortWord.busWrite16 (addr : Addr) (data : Word) : PortWord.Statement (.busWrite16 addr data) :=
  portWord_transaction (by decide)

theorem PortWord.busWrite32 (addr : Addr) (data : Word) : PortWord.Statement (.busWrite32 addr data) :=
  portWord_transaction (by decide)

theorem PortWord.busRead8 (addr : Addr) (data : Word) : PortWord.Statement (.busRead8 addr data) :=
  portWord_transaction (by decide)

theorem PortWord.busRead16 (addr : Addr) (data : Word) : PortWord.Statement (.busRead16 addr data) :=
  portWord_transaction (by decide)

theorem PortWord.busRead32 (addr : Addr) (data : Word) : PortWord.Statement (.busRead32 addr data) :=
  portWord_transaction (by decide)

end Sys2Proof.Laws
end

