-- ==== Sys2Proof/Laws/Receiver.lean ====
section
/-! SUPPORT. What one slot can do to the receiver, said once for each stage. -/

namespace Sys2Proof.Machine

/-- The receiver with the slot counted and remembered by the duplicate filter (R121, R122). -/
def RxEngine.sawSlot (rx : RxEngine) (code : Word) : RxEngine :=
  { rx with slots := rx.slots + 1#32, prev := some ⟨code, rx.grid⟩ }

/-- Everything one slot can do (R121). -/
theorem rxStep_cases (rx : RxEngine) (code : Word) :
    ((rx.stage = .done ∨ rx.stage = .error) ∧ rxStep rx code = .quiet { rx with slots := rx.slots + 1#32 })
    ∨ ((rx.stage = .locate ∨ rx.stage = .header ∨ rx.stage = .payload) ∧ rx.duplicate code = true
        ∧ rxStep rx code = .quiet (rx.sawSlot code))
    ∨ (rx.stage = .locate ∧ rx.duplicate code = false
        ∧ rxStep rx code = locateStep (rx.sawSlot code) (single code))
    ∨ (rx.stage = .header ∧ rx.duplicate code = false
        ∧ rxStep rx code = headerStep (rx.sawSlot code) (single code))
    ∨ (rx.stage = .payload ∧ rx.duplicate code = false
        ∧ rxStep rx code = payloadStep (rx.sawSlot code) (single code)) := by
  cases hs : rx.stage <;> cases hd : rx.duplicate code <;>
    simp [rxStep, hs, hd, RxEngine.sawSlot, RxEngine.slotOf]

/-- A match needs a single candidate that is the pattern's bin (R123). -/
theorem RxEngine.fits_iff (rx : RxEngine) (s : Option (Fin 32)) :
    rx.fits s = true ↔ ∃ k, s = some k ∧ rx.pb[rx.prog] = some k := by
  cases s with
  | none => simp [RxEngine.fits]
  | some k =>
    cases hp : rx.pb[rx.prog] with
    | none => simp [RxEngine.fits, hp]
    | some p =>
      simp only [RxEngine.fits, hp, beq_iff_eq, Option.some.injEq]
      exact ⟨fun h => ⟨k, rfl, h.symm⟩, fun ⟨x, hx, hp⟩ => hx.trans hp.symm⟩

/-- The restarted match has progress 0, or 1 after a slot that is the pattern's first bin (R124, R127). -/
theorem RxEngine.retest_cases (rx : RxEngine) (s : Option (Fin 32)) :
    (rx.retest s = { rx with prog := 1 } ∧ ∃ k, s = some k ∧ rx.pb[(0 : Fin 6)] = some k)
    ∨ (rx.retest s = { rx with prog := 0 } ∧ ¬∃ k, s = some k ∧ rx.pb[(0 : Fin 6)] = some k) := by
  unfold RxEngine.retest
  have h := RxEngine.fits_iff { rx with prog := 0 } s
  split
  · exact .inl ⟨rfl, h.1 ‹_›⟩
  · exact .inr ⟨rfl, fun hk => absurd (h.2 hk) ‹_›⟩

/-- Everything a slot can do in Locate (R124). -/
theorem locateStep_cases (rx : RxEngine) (s : Option (Fin 32)) :
    (∃ h : rx.prog.val + 1 < 6, rx.fits s = true ∧ locateStep rx s = .quiet { rx with prog := ⟨rx.prog.val + 1, h⟩ })
    ∨ (rx.prog.val = 5 ∧ rx.fits s = true
        ∧ locateStep rx s = .quiet { rx with prog := 0, stage := .header, hu := Unpacker.fresh 1 20 })
    ∨ (rx.fits s = false ∧ locateStep rx s = .quiet (rx.retest s)) := by
  unfold locateStep
  cases hf : rx.fits s
  · exact .inr (.inr ⟨rfl, rfl⟩)
  · have := rx.prog.isLt
    by_cases h : rx.prog.val + 1 < 6
    · exact .inl ⟨h, rfl, by simp [h]⟩
    · exact .inr (.inl ⟨by omega, rfl, by simp [h]⟩)

/-- Everything a slot can do in Payload (R127). -/
theorem payloadStep_cases (rx : RxEngine) (s : Option (Fin 32)) :
    (∃ h : rx.prog.val + 1 < 6, rx.fits s = true ∧ payloadStep rx s = .quiet { rx with prog := ⟨rx.prog.val + 1, h⟩ })
    ∨ (rx.prog.val = 5 ∧ rx.fits s = true
        ∧ payloadStep rx s
          = ⟨{ rx with prog := 0, stage := .done, outLen := BitVec.ofNat 32 rx.pu.nout }, [], irqRxDone⟩)
    ∨ (rx.fits s = false ∧ (rx.retest s).prog = 1 ∧ payloadStep rx s = (rx.retest s).commit rx.withheld)
    ∨ (rx.fits s = false ∧ (rx.retest s).prog = 0
        ∧ payloadStep rx s = (rx.retest s).commit (rx.withheld ++ (s.map Fin.val).toList)) := by
  unfold payloadStep
  cases hf : rx.fits s
  · rcases RxEngine.retest_cases rx s with ⟨h, k, rfl, -⟩ | ⟨h, -⟩
    · refine .inr (.inr (.inl ⟨rfl, by rw [h], ?_⟩))
      simp [h]
    · refine .inr (.inr (.inr ⟨rfl, by rw [h], ?_⟩))
      cases s <;> simp [h]
  · have := rx.prog.isLt
    by_cases h : rx.prog.val + 1 < 6
    · exact .inl ⟨h, rfl, by simp [h]⟩
    · exact .inr (.inl ⟨by omega, rfl, by simp [h]⟩)

/-- Everything a slot can do in Header (R125). -/
theorem headerStep_cases (rx : RxEngine) (s : Option (Fin 32)) :
    (s = none ∧ headerStep rx s = .quiet rx)
    ∨ (∃ k, s = some k ∧ (rx.hu.push k.val).1.nout ≠ 20 ∧ headerStep rx s
        = .quiet { rx with
            hu := (rx.hu.push k.val).1, hbytes := storeHeaderBytes rx.hbytes rx.hu.nout (rx.hu.push k.val).2 })
    ∨ (∃ k, s = some k ∧ (rx.hu.push k.val).1.nout = 20 ∧ headerStep rx s
        = rxValidate { rx with
            hu := (rx.hu.push k.val).1, hbytes := storeHeaderBytes rx.hbytes rx.hu.nout (rx.hu.push k.val).2 }) := by
  cases s with
  | none => exact .inl ⟨rfl, rfl⟩
  | some k =>
    by_cases h : (rx.hu.push k.val).1.nout = 20
    · exact .inr (.inr ⟨k, rfl, h, by simp [headerStep, h]⟩)
    · exact .inr (.inl ⟨k, rfl, h, by simp [headerStep, h]⟩)

/-- Everything the header check can do (R126). -/
theorem rxValidate_cases (rx : RxEngine) :
    ∃ p : Params, p = headerParams (fun i => rx.hbytes.toList.getD i 0#8) ∧
      ((∃ e, checkHeader p = some e
          ∧ rxValidate rx = ⟨{ rx with neg := p, stage := .error, err := e.code, prog := 0 }, [], irqRxErr⟩)
      ∨ (checkHeader p = none ∧ rxValidate rx = .quiet { rx with
          neg := p, stage := .payload, prog := 0, grid := ⟨p.baseFreq, p.step⟩, pb := patternBins ⟨p.baseFreq, p.step⟩
          pu := Unpacker.fresh p.symbolBits.toNat p.payloadLen.toNat })) := by
  refine ⟨_, rfl, ?_⟩
  unfold rxValidate
  simp only
  split
  · exact .inl ⟨_, ‹_›, rfl⟩
  · exact .inr ⟨‹_›, rfl⟩

/-- What an accepted header must be (R126). -/
theorem checkHeader_none {p : Params} (h : checkHeader p = none) :
    p.modulation.toInt = 0 ∧ 1 ≤ p.symbolBits.toInt ∧ p.symbolBits.toInt ≤ 4 ∧ finite p.baseFreq = true
      ∧ stepLegal p.step = true ∧ 0 ≤ p.payloadLen.toInt ∧ p.payloadLen.toInt ≤ 4096 := by
  unfold checkHeader at h
  simp only [symbolBitsWithin, sbMaxRx_eq, rxBytes_eq] at h
  repeat' split at h
  all_goals try cases h
  simp_all
  omega

end Sys2Proof.Machine
end

