-- ==== Sys2Proof/Machine/Script.lean ====
section
/-! DEFINITION. The host-script language (30_encoding.md R91): each statement and the transaction words it stands for.
The engine does not read scripts; they are how a host's accesses are written down. The text form (comments, number
bases, the short forms W4 and R4, which name the same words) is not modelled. -/

namespace Sys2Proof.Machine

/-- The command names of `CMD name` (R85). -/
inductive CommandName
  | nop | serializeHeader | parseHeader | pack | unpack | synth | buildFrame
  deriving DecidableEq, Repr

/-- `opcode(name)` (R85). -/
def CommandName.opcode : CommandName → Word
  | .nop => 0x00000000#32
  | .serializeHeader => 0x00000001#32
  | .parseHeader => 0x00000002#32
  | .pack => 0x00000003#32
  | .unpack => 0x00000004#32
  | .synth => 0x00000005#32
  | .buildFrame => 0x00000006#32

/-- The statements of a host script (R91). A read may state the result it expects. -/
inductive Statement
  | wr (addr : Addr) (data : Word)
  | wrh (addr : Addr) (data : BitVec 16)
  | wrb (addr : Addr) (data : Byte)
  | rd (addr : Addr) (expect : Option Word)
  | rdh (addr : Addr) (expect : Option (BitVec 16))
  | rdb (addr : Addr) (expect : Option Byte)
  | cmd (name : CommandName)
  | slot (code : Word)
  | feed (codes : List Word)
  | sreset
  | rxreset
  | ack (mask : Word)
  | waitTx
  | loadb (base : Addr) (bytes : List Byte)
  | loadw (base : Addr) (words : List Word)
  deriving DecidableEq, Repr

/-- `WRB base, b0`, `WRB base+1, b1`, ... -/
def loadBytes : Addr → List Byte → List Transaction
  | _, [] => []
  | a, b :: bs => transaction true 0#2 a (b.setWidth 32) :: loadBytes (a + 1#25) bs

/-- `WR base, w0`, `WR base+4, w1`, ... -/
def loadWords : Addr → List Word → List Transaction
  | _, [] => []
  | a, w :: ws => transaction true 2#2 a w :: loadWords (a + 4#25) ws

/-- The transaction words of a statement. `WAIT_TX` is given by the one read it repeats. -/
def Statement.transactions : Statement → List Transaction
  | .wr addr data => [transaction true 2#2 addr data]
  | .wrh addr data => [transaction true 1#2 addr (data.setWidth 32)]
  | .wrb addr data => [transaction true 0#2 addr (data.setWidth 32)]
  | .rd addr _ => [transaction false 2#2 addr 0#32]
  | .rdh addr _ => [transaction false 1#2 addr 0#32]
  | .rdb addr _ => [transaction false 0#2 addr 0#32]
  | .cmd name => [transaction true 2#2 0x034#25 name.opcode]
  | .slot code => [transaction true 2#2 0x080#25 code]
  | .feed codes => codes.map fun code => transaction true 2#2 0x080#25 code
  | .sreset => [transaction true 2#2 0x004#25 0x1#32]
  | .rxreset => [transaction true 2#2 0x004#25 0x2#32]
  | .ack mask => [transaction true 2#2 0x008#25 mask]
  | .waitTx => [transaction false 2#2 0x038#25 0#32]
  | .loadb base bytes => loadBytes base bytes
  | .loadw base words => loadWords base words

/-- The result a read states, as the port's read data (R91, R140). -/
def Statement.expected : Statement → Option Word
  | .rd _ expect => expect
  | .rdh _ expect => expect.map fun v => v.setWidth 32
  | .rdb _ expect => expect.map fun v => v.setWidth 32
  | .wr _ _ | .wrh _ _ | .wrb _ _ | .cmd _ | .slot _ | .feed _ | .sreset | .rxreset | .ack _ | .waitTx
  | .loadb _ _ | .loadw _ _ => none

/-- The events of a statement. `WAIT_TX` reads `TX_STATUS` `busyPolls` times while the command runs, the command
completes, and the last read sees `BUSY` = 0 (R91, R135). -/
def Statement.events (busyPolls : Nat) : Statement → List Event
  | .waitTx =>
    let poll : Event := .bus (transaction false 2#2 0x038#25 0#32)
    List.replicate busyPolls poll ++ [.completion, poll]
  | other => other.transactions.map .bus

end Sys2Proof.Machine
end

