-- ==== Sys2Proof/Tests/Slice0.lean ====
section
/-! SUPPORT. Tests of the model. Expected values are those of spec/95_test_vectors.md, named by their section, or
follow by hand from the rule named. The last part shows, for each statement with hypotheses, a state and operands that
meet them, at the ends of each clause's range. -/

namespace Sys2Proof.Machine.Tests

open Sys2Proof Sys2Proof.Machine

/-! ### Helpers -/

/-- A property of the state an instruction gives. -/
def gives (o : Host.Outcome State Fault Refusal) (p : State → Bool) : Bool :=
  match o with
  | .next t => p t
  | _ => false

/-- A property of the state once an accepted command has completed. -/
def completes (i : Instr) (s : State) (p : State → Bool) : Bool := gives (exec i s) fun t => p t.complete

/-- The reset state with the TX parameters changed. -/
def withTx (f : TxEngine → TxEngine) : State := { State.reset with tx := f State.reset.tx }

/-- The reset state with symbolBits, payload length and replication. -/
def withPack (sb len r : Word) : State :=
  withTx fun tx => { tx with params := { tx.params with symbolBits := sb, payloadLen := len }, replication := r }

/-- The reset state with symbol words stored and counted. -/
def withSymbols (s : State) (symbols : List Word) : State :=
  let t := s.writeWords .sym 0 symbols
  { t with tx := { t.tx with symCount := BitVec.ofNat 32 symbols.length } }

/-- The reset state with a command pending. -/
def pendingState (w : Word) : State := withTx fun tx => { tx with pending := some w, lastCmd := w.setWidth 8 }

/-- A receiver state. -/
def withRx (f : RxEngine → RxEngine) : State := { State.reset with rx := f State.reset.rx }

/-- The receiver on the base grid in a stage, with progress and a previous slot. -/
def rxAt (stage : Stage) (prog : Fin 6) (before : Word) : RxEngine :=
  { State.reset.rx with
    stage := stage, prog := prog, prev := some ⟨before, Grid.baseGrid⟩, pb := patternBins Grid.baseGrid
    pu := Unpacker.fresh 1 1, neg := ⟨1#32, Config.baseB, Config.baseS, 0#32, 1#32⟩ }

/-! ### Well-formedness: each check refuses an ill-formed term -/

theorem test_wf_refuses_command_word : (Instr.illegalCmd 6#32).wellFormed = false := by decide
theorem test_wf_refuses_write_TX_CMD : (Instr.busWrite32 0x034#25 9#32).wellFormed = false := by decide
theorem test_wf_refuses_write_RX_SLOT : (Instr.busWrite32 0x080#25 0#32).wellFormed = false := by decide
theorem test_wf_refuses_write_IRQ_STATUS : (Instr.busWrite32 0x008#25 0#32).wellFormed = false := by decide
theorem test_wf_refuses_soft_reset_write : (Instr.busWrite32 0x004#25 1#32).wellFormed = false := by decide
theorem test_wf_refuses_rx_reset_write : (Instr.busWrite32 0x004#25 2#32).wellFormed = false := by decide
theorem test_wf_admits_CTRL_write_without_trigger : (Instr.busWrite32 0x004#25 4#32).wellFormed = true := by decide

/-! ### Decoding: one word for each constructor, written out from the fields of 30_encoding.md R83 -/

theorem test_decode_nop : decode 0x0C00003400000000#64 = .ok .nop := by decide
theorem test_decode_serializeHeader : decode 0x0C00003400000001#64 = .ok .serializeHeader := by decide
theorem test_decode_parseHeader : decode 0x0C00003400000002#64 = .ok .parseHeader := by decide
theorem test_decode_pack : decode 0x0C00003400000003#64 = .ok .pack := by decide
theorem test_decode_unpack : decode 0x0C00003400000004#64 = .ok .unpack := by decide
theorem test_decode_synth : decode 0x0C00003400000005#64 = .ok .synth := by decide
theorem test_decode_buildFrame : decode 0x0C00003400000006#64 = .ok .buildFrame := by decide
theorem test_decode_illegalCmd : decode 0x0C00003400000100#64 = .ok (.illegalCmd 0x100#32) := by decide
theorem test_decode_rxPushSlot : decode 0x0C00008000000004#64 = .ok (.rxPushSlot 4#32) := by decide
theorem test_decode_softReset : decode 0x0C00000400000003#64 = .ok (.softReset 1#31) := by decide
theorem test_decode_rxReset : decode 0x0C00000400000002#64 = .ok (.rxReset 0#30) := by decide
theorem test_decode_irqAck : decode 0x0C000008FFFFFFF1#64 = .ok (.irqAck 0xFFFFFFF#28 1#4) := by decide
theorem test_decode_busWrite8 : decode 0x080010000000003D#64 = .ok (.busWrite8 0x1000#25 0x3D#32) := by decide
theorem test_decode_busWrite16 : decode 0x0A0010020000BEEF#64 = .ok (.busWrite16 0x1002#25 0xBEEF#32) := by decide
theorem test_decode_busWrite32 : decode 0x0C0000280000DAC0#64 = .ok (.busWrite32 0x028#25 56000#32) := by decide
theorem test_decode_busRead8 : decode 0x0000200500000000#64 = .ok (.busRead8 0x2005#25 0#32) := by decide
theorem test_decode_busRead16 : decode 0x0200200400000000#64 = .ok (.busRead16 0x2004#25 0#32) := by decide
theorem test_decode_busRead32 : decode 0x0570000000000000#64 = .ok (.busRead32 0x1700000#25 0#32) := by decide
theorem test_decode_refuses_size_3 : decode 0x0E00100000000000#64 = .error .sizeReserved := by decide
theorem test_decode_refuses_spare_bits : decode 0x1C00003400000000#64 = .error .spareBitsSet := by decide

/-! ### Commands (2.1 to 2.7, 2.9) -/

theorem test_nop : completes .nop State.reset
    (fun t => t.readReg .txStatus == 0x00000002#32 && t.irqStatus == 1#4) = true := by decide
theorem test_pending_status : gives (exec .pack State.reset)
    (fun t => t.readReg .txStatus == 0x00030001#32) = true := by decide
theorem test_illegalCmd : completes (.illegalCmd 0x07#32) State.reset
    (fun t => t.readReg .txStatus == 0x00070102#32 && t.irqStatus == 2#4) = true := by decide
theorem test_illegalCmd_high_bits : completes (.illegalCmd 0x100#32) State.reset
    (fun t => t.readReg .txStatus == 0x00000102#32) = true := by decide
theorem test_serializeHeader : completes .serializeHeader (withPack 1#32 4#32 1#32)
    (fun t => t.readBytes .hdr 0 20 == [0, 0, 0, 1, 0x46, 0x5A, 0xC0, 0, 0x43, 0xFA, 0, 0, 0, 0, 0, 0, 0, 0, 0, 4]
      && t.tx.hdrAvail == 20#32 && t.readReg .txStatus == 0x00010002#32) = true := by decide
theorem test_parseHeader_short : completes .parseHeader (withTx fun tx => { tx with hdrAvail := 19#32 })
    (fun t => t.readReg .txStatus == 0x00020B02#32 && t.tx.parsed == State.reset.tx.parsed) = true := by decide
theorem test_parseHeader : completes .parseHeader
    ((withTx fun tx => { tx with hdrAvail := 20#32 }).writeBytes .hdr 0
      [0, 0, 0, 4, 0x46, 0x6A, 0x60, 0, 0x43, 0xFA, 0, 0, 0, 0, 0, 0, 0, 0, 0x10, 0])
    (fun t => t.tx.parsed == ⟨4#32, 0x466A6000#32, 0x43FA0000#32, 0#32, 0x1000#32⟩) = true := by decide
theorem test_pack : completes .pack ((withPack 2#32 1#32 1#32).writeBytes .tx 0 [0x3D])
    (fun t => t.readWords .sym 0 4 == [1, 4, 0, 2] && t.tx.symCount == 4#32 && t.tx.outLen == 4#32) = true := by decide
theorem test_pack_padding_and_replication : packSymbols [0x3D#8] 3 2 = [2, 2, 8, 8, 3, 3] := by decide
theorem test_unpack : completes .unpack (withSymbols (withPack 1#32 1#32 1#32) [0, 1, 0, 2, 0, 2, 0, 1, 2])
    (fun t => t.byteAt .unp 0 == 0x3D#8 && t.tx.outLen == 1#32) = true := by decide
theorem test_unpack_large_bins : unpackSymbols [5, 6, 5, 6, 5, 6, 5, 6] 1 1 = [0x55#8] := by decide
theorem test_tuningWord_tie : tuningWord ⟨0x3E800000#32, 0x43FA0000#32⟩ 0 0x80000000 = 0#32 := by decide
theorem test_tuningWord_negative : tuningWord ⟨0xC47A0000#32, 0x43FA0000#32⟩ 0 44100 = 0xFA31EC43#32 := by decide
theorem test_synth_direct : completes .synth
    (withSymbols (withTx fun tx => { tx with sampleRate := 56000#32 }) [0, 1, 2, 2, 0])
    (fun t => t.tx.phase[0] == 0x4B6DB6DC#32 && t.tx.outLen == 5#32 && t.tx.outChannels == 1#32) = true := by decide
theorem test_synth_bitParallel : completes .synth
    (withSymbols (withTx fun tx => { tx with
      sampleRate := 56000#32, params := { tx.params with symbolBits := 2#32, modulation := 1#32 } })
      [1, 0, 2, 0, 2, 0, 1, 2])
    (fun t => t.tx.phase[0] == 0xC6DB6DB7#32 && t.tx.phase[1] == 0x8DB6DB6E#32 && t.tx.outLen == 4#32) = true := by
  decide
theorem test_buildFrame_cascade : completes .buildFrame
    (withTx fun tx => { tx with params := { tx.params with modulation := 2#32 } })
    (fun t => t.readReg .txStatus == 0x00060202#32 && t.mem == []) = true := by decide
theorem test_buildFrame_shape : checkBuildFrame (withPack 16#32 1#32 1#32) = .ok ⟨1, 173⟩ := by decide

/-! ### The receiver (2.8) -/

theorem test_rx_pattern_completes : gives (exec (.rxPushSlot 4#32) { State.reset with rx := rxAt .locate 5 1#32 })
    (fun t => t.readReg .rxStatus == 0x000000C1#32) = true := by decide
theorem test_rx_retest : (rxStep (rxAt .locate 2 4#32) 1#32).rx.prog = 1 := by decide
theorem test_rx_reinserts_withheld : (rxStep (rxAt .payload 2 4#32) 1#32).rx.pu.prevRaw = some 2
    ∧ (rxStep (rxAt .payload 2 4#32) 1#32).rx.prog = 1 := by decide
theorem test_rx_done : gives (exec (.rxPushSlot 4#32) { State.reset with rx := rxAt .payload 5 1#32 })
    (fun t => t.rx.stage == .done && t.irqStatus == 4#4) = true := by decide
theorem test_rx_duplicate_across_grids :
    RxEngine.duplicate { rxAt .payload 0 4#32 with grid := ⟨Config.baseB, 0x437A0000#32⟩ } 16#32 = true := by decide
theorem test_pattern_bins_250Hz : patternBins ⟨Config.baseB, 0x437A0000#32⟩
    = #v[some 0, some 4, some 2, some 4, some 0, some 4] := by decide
theorem test_header_length_negative :
    checkHeader ⟨1#32, Config.baseB, Config.baseS, 0#32, 0xFFFFFFFF#32⟩ = some .badLength := by decide
theorem test_rxReset : gives (exec (.rxReset 0#30) { State.reset with rx := rxAt .done 0 4#32, irqStatus := 4#4 })
    (fun t => t.readReg .rxStatus == 0x00000080#32 && t.irqStatus == 4#4) = true := by decide

/-! ### System operations and bus accesses (2.9, 2.10) -/

theorem test_softReset : gives (exec (.softReset 1#31) { pendingState 0#32 with irqStatus := 5#4 })
    (fun t => t.readReg .txStatus == 0#32 && t.irqStatus == 0#4 && t.readReg .rxStatus == 0x80#32) = true := by decide
theorem test_irqAck : gives (exec (.irqAck 0#28 1#4) { State.reset with irqStatus := 5#4 })
    (fun t => t.irqStatus == 4#4) = true := by decide
theorem test_irqAck_ignores_high_bits : gives (exec (.irqAck 0xFFFFFFF#28 0#4) { State.reset with irqStatus := 5#4 })
    (fun t => t.irqStatus == 5#4) = true := by decide
theorem test_busWrite8 : gives (exec (.busWrite8 0x1000#25 0x3D#32) State.reset)
    (fun t => t.mem == [(0x1000, 0x3D#8)]) = true := by decide
theorem test_busWrite8_RX_BUF : gives (exec (.busWrite8 0x4000#25 1#32) State.reset)
    (fun t => t == State.reset.busError) = true := by decide
theorem test_busWrite16 : gives (exec (.busWrite16 0x1002#25 0xBEEF#32) State.reset)
    (fun t => t.mem == [(0x1002, 0xEF#8), (0x1003, 0xBE#8)]) = true := by decide
theorem test_busWrite32 : gives (exec (.busWrite32 0x028#25 56000#32) State.reset)
    (fun t => t.tx.sampleRate == 56000#32) = true := by decide
theorem test_busWrite32_reserved_header_bytes : gives (exec (.busWrite32 0x2014#25 0xFFFFFFFF#32) State.reset)
    (fun t => t.mem == [] && t.port == some ⟨false, 0#32⟩) = true := by decide
theorem test_busRead8 : gives (exec (.busRead8 0x2005#25 0#32) (State.reset.writeBytes .hdr 4 [0x46, 0x5A, 0xC0, 0]))
    (fun t => t.port == some ⟨false, 0x5A#32⟩) = true := by decide
theorem test_busRead16_misaligned : gives (exec (.busRead16 0x2005#25 0#32) State.reset)
    (fun t => t.port == some ⟨true, 0#32⟩) = true := by decide
theorem test_busRead16 : gives (exec (.busRead16 0x2006#25 0#32) (State.reset.writeBytes .hdr 4 [0x46, 0x5A, 0xC0, 0]))
    (fun t => t.port == some ⟨false, 0x00C0#32⟩) = true := by decide
theorem test_busRead32 : gives (exec (.busRead32 0x2004#25 0#32) (State.reset.writeBytes .hdr 4 [0x46, 0x5A, 0xC0, 0]))
    (fun t => t.port == some ⟨false, 0x00C05A46#32⟩) = true := by decide
theorem test_busRead32_unmapped : gives (exec (.busRead32 0x1800000#25 0#32) State.reset)
    (fun t => t.port == some ⟨true, 0#32⟩) = true := by decide

/-! ### The step -/

theorem test_step_runs_next_word : gives (step (State.reset.withFetchWord 64 0x0C00003400000003))
    (fun t => gives (exec .pack State.reset) fun u => t == u) = true := by decide

/-! ### The hypotheses of the statements can be met -/

/-- A receiver one bit before the end of a header with a 300 Hz step: `H = (1, 14000 Hz, 300 Hz, 0, 1)`, whose last
bit is 1 (2.8). -/
def lastHeaderBit : RxEngine :=
  { State.reset.rx with
    stage := .header, prev := some ⟨1#32, Grid.baseGrid⟩
    hu := ⟨1, 20, some 0, some 1, 0#8, 7, 19⟩
    hbytes := #v[0, 0, 0, 1, 0x46, 0x5A, 0xC0, 0, 0x43, 0x96, 0, 0, 0, 0, 0, 0, 0, 0, 0, 0] }

/-- A state in Payload with two bits of a symbol withheld, a command pending and one buffer byte written. -/
def busyPayload : State :=
  { State.reset with
    rx := rxAt .payload 2 4#32, mem := [(0x1000, 0x3D#8)]
    tx := { State.reset.tx with pending := some 3#32, lastCmd := 3#8 } }

theorem test_witness_DecodeOfEncode :
    (Instr.illegalCmd 7#32).WellFormed ∧ (Instr.busWrite32 0x004#25 4#32).WellFormed
      ∧ (Instr.busRead8 0x1FFFFFF#25 0xFFFFFFFF#32).WellFormed := by decide
theorem test_witness_EncodeOfDecode : decode 0x0C000034FFFFFFFF#64 = .ok (.illegalCmd 0xFFFFFFFF#32) := by decide
theorem test_witness_StepRunsDecodedInstruction :
    (State.reset.offer (.bus 0x0C00003400000000#64)).agenda = .bus 0x0C00003400000000#64 :: []
      ∧ decode 0x0C00003400000000#64 = .ok .nop := by decide
theorem test_witness_StepTakesOtherEvents :
    (State.reset.offer .completion).agenda = [.completion] ∧ (State.reset.offer .powerOn).agenda = [.powerOn]
      ∧ (State.reset.offer (.bus 0xF000000000000000#64)).agenda = [.bus 0xF000000000000000#64]
      ∧ decode 0xF000000000000000#64 = .error .spareBitsSet ∧ State.reset.agenda = [] := by decide
theorem test_witness_CommandWriteAcceptedOrRefused :
    commandWord .nop = some 0#32 ∧ commandWord (.illegalCmd 0xFFFFFFFF#32) = some 0xFFFFFFFF#32
      ∧ State.reset.tx.pending = none ∧ (pendingState 0#32).tx.pending.isSome = true := by decide
theorem test_witness_idle_for_command_completions : State.reset.tx.pending = none := by decide
theorem test_witness_IllegalCmdCompletes :
    0x06 < (7#32).toNat ∧ 0x06 < (0xFFFFFFFF#32).toNat ∧ State.reset.tx.pending = none := by decide
theorem test_witness_ParseHeaderCompletes :
    completes .parseHeader (withTx fun tx => { tx with hdrAvail := 19#32 }) (fun t => t.tx.err == 0x0B#8) = true
      ∧ completes .parseHeader (withTx fun tx => { tx with hdrAvail := 20#32 }) (fun t => t.tx.err == 0#8) = true := by
  decide
theorem test_witness_HeaderCommandsRoundTrip : ∃ t u, exec .serializeHeader State.reset = .next t
    ∧ t.complete.tx.pending = none ∧ exec .parseHeader t.complete = .next u := ⟨_, _, rfl, rfl, rfl⟩
theorem test_witness_PackCompletes :
    checkPack (withPack 0#32 0#32 1#32) = .error .badSymbolBits
      ∧ checkPack (withPack 17#32 0#32 1#32) = .error .badSymbolBits
      ∧ checkPack (withPack 16#32 4096#32 0#32) = .error .badReplication
      ∧ checkPack (withPack 1#32 4097#32 1#32) = .error .badLength
      ∧ checkPack (withPack 1#32 4096#32 9#32) = .error .overflow
      ∧ checkPack (withPack 1#32 4096#32 8#32) = .ok 262144 ∧ checkPack (withPack 16#32 0#32 1#32) = .ok 0 := by decide
theorem test_witness_UnpackCompletes :
    let counted (n : Word) (s : State) : State := { s with tx := { s.tx with symCount := n } }
    checkUnpack (withPack 0#32 0#32 1#32) = .error .badSymbolBits
      ∧ checkUnpack (withPack 17#32 0#32 1#32) = .error .badSymbolBits
      ∧ checkUnpack (withPack 1#32 4097#32 1#32) = .error .badLength
      ∧ checkUnpack (counted 262145#32 (withPack 1#32 0#32 1#32)) = .error .badLength
      ∧ checkUnpack (counted 262144#32 (withPack 16#32 4096#32 1#32)) = .ok 4096 := by decide
theorem test_witness_UnpackCompletes_stream :
    (([0, 0, 2, 0, 0, 9, 9, 1, 0] : List Nat).destutter (· ≠ ·)).dropWhile (· == 0) = [2, 0, 9, 1, 0]
      ∧ unpackSymbols [0, 0, 2, 0, 0, 9, 9, 1, 0] 2 1 = [0x50#8] := by decide
theorem test_witness_UnpackCompletes_push :
    Unpacker.push ⟨3, 2, some 1, some 1, 0x7F#8, 7, 1⟩ 8 = (⟨3, 2, some 8, some 8, 0#8, 0, 2⟩, [0xFF#8])
      ∧ Unpacker.push ⟨3, 2, some 1, some 7, 1#8, 4, 0⟩ 0 = (⟨3, 2, some 0, some 7, 0x0E#8, 7, 0⟩, [])
      ∧ Unpacker.push ⟨3, 2, none, none, 0#8, 0, 0⟩ 0 = (⟨3, 2, some 0, none, 0#8, 0, 0⟩, [])
      ∧ Unpacker.push ⟨3, 2, some 5, some 5, 0#8, 0, 0⟩ 5 = (⟨3, 2, some 5, some 5, 0#8, 0, 0⟩, [])
      ∧ Unpacker.push ⟨3, 2, some 5, some 5, 0#8, 0, 2⟩ 6 = (⟨3, 2, some 5, some 5, 0#8, 0, 2⟩, []) := by decide
theorem test_witness_SynthCompletes :
    let synth (mod sb base step r fs n : Word) : State := withTx fun tx => { tx with
      params := ⟨sb, base, step, mod, 0#32⟩, replication := r, sampleRate := fs, symCount := n }
    let B := Config.baseB
    let S := Config.baseS
    checkSynth (synth 3 1 B S 1 1 0) = .error .badModulation
      ∧ checkSynth (synth 0xFFFFFFFF 1 B S 1 1 0) = .error .badModulation
      ∧ checkSynth (synth 2 1 B S 1 1 0) = .error .unsupportedModulation
      ∧ checkSynth (synth 1 9 B S 1 1 0) = .error .badSymbolBits
      ∧ checkSynth (synth 1 0 B S 1 1 0) = .error .badSymbolBits
      ∧ checkSynth (synth 0 1 0x7F800000 S 1 1 0) = .error .badBaseFreq
      ∧ checkSynth (synth 0 1 B 0x80000000 1 1 0) = .error .badStep
      ∧ checkSynth (synth 0 1 B 0x7FC00000 1 1 0) = .error .badStep
      ∧ checkSynth (synth 1 8 B S 0 1 0) = .error .badReplication
      ∧ checkSynth (synth 0 1 B S 1 0 0) = .error .badSampleRate
      ∧ checkSynth (synth 0 1 B S 1 1 262145) = .error .badLength
      ∧ checkSynth (synth 1 1 B S 2 1 262144) = .error .overflow
      ∧ checkSynth (synth 0 0 0xC47A0000 1 0 1 262144) = .ok ⟨1, 262144⟩
      ∧ checkSynth (synth 1 8 B S 8 1 262144) = .ok ⟨8, 262144⟩ := by decide
theorem test_witness_BuildFrameCompletes :
    let frame (mod sb base step r fs len : Word) : State := withTx fun tx => { tx with
      params := ⟨sb, base, step, mod, len⟩, replication := r, sampleRate := fs }
    let B := Config.baseB
    let S := Config.baseS
    checkBuildFrame (frame 3 1 B S 1 1 0) = .error .badModulation
      ∧ checkBuildFrame (frame 2 1 B S 1 1 0) = .error .unsupportedModulation
      ∧ checkBuildFrame (frame 0 17 B S 1 1 0) = .error .badSymbolBits
      ∧ checkBuildFrame (frame 1 9 B S 1 1 0) = .error .badSymbolBits
      ∧ checkBuildFrame (frame 0 1 0x7F800000 S 1 1 0) = .error .badBaseFreq
      ∧ checkBuildFrame (frame 0 1 B 0 1 1 0) = .error .badStep
      ∧ checkBuildFrame (frame 0 1 B S 0 1 0) = .error .badReplication
      ∧ checkBuildFrame (frame 0 1 B S 1 0 0) = .error .badSampleRate
      ∧ checkBuildFrame (frame 0 1 B S 1 1 4097) = .error .badLength
      ∧ checkBuildFrame (frame 0 1 B S 8 1 4096) = .error .overflow
      ∧ checkBuildFrame (frame 0 1 B S 7 1 4096) = .ok ⟨1, 230580⟩
      ∧ checkBuildFrame (frame 1 8 B S 1 1 2) = .ok ⟨8, 174⟩ := by decide
theorem test_witness_FailedCommandChangesStatusOnly :
    (pendingState 7#32).tx.pending = some 7#32 ∧ (pendingState 7#32).complete.tx.err ≠ 0#8 := by decide
theorem test_witness_PackedSymbolsRule :
    let emitted := packSymbols [0x3D#8] 1 1
    7 < (8 * [0x3D#8].length + (1 - 1)) / 1 ∧ emitted[1]? = some 0 ∧ emitted[0]? = some 1 := by decide
theorem test_witness_PackLengthAndReplication : 5 < (packSymbols [0x3D#8] 3 2).length := by decide
theorem test_witness_NoAdjacentEmittedRepeat : 1 ≤ 1 ∧ packSymbols [0x00#8] 1 1 = [1, 0, 1, 0, 1, 0, 1, 0] := by decide
theorem test_witness_TuningWordRoundsToNearestEven :
    1 ≤ 44100 ∧ tuningWord Grid.baseGrid 0 44100 = 0x51451451#32
      ∧ finite 0xFF7FFFFF#32 = true ∧ finite 0x00000001#32 = true ∧ finite 0x7F800000#32 = false
      ∧ scaled 0x80000001#32 = -1 ∧ scaled 0x00800000#32 = 2 ^ 23 ∧ scaled 0x465AC000#32 = 14000 * 2 ^ 149 := by decide
theorem test_witness_UnpackInvertsPack : unpackSymbols (packSymbols [0xA5#8, 0x0F#8] 16 3) 16 2 = [0xA5#8, 0x0F#8] := by
  decide
theorem test_witness_SilentChannelsHold :
    ∀ tones ∈ ([[(0, 5#32)], []] : List Tones), ∀ tone ∈ tones, tone.1 ≠ 7 := by simp
theorem test_witness_PhaseMovesByTuningWords :
    let score : List Tones := [[(0, 5#32)], [(7, 2#32)], []]
    score[1]? = some [(7, 2#32)] ∧ (∃ tone ∈ score.getD 1 [], tone.1 = 7)
      ∧ score[0]? = some [(0, 5#32)] ∧ ∀ tone ∈ score.getD 0 [], tone.1 ≠ 7 := by simp
theorem test_witness_LumpKinds :
    classifyLumps none [[1, 1], [2, 2], [2, 2], [2, 2]]
      = [([1, 1], .zero), ([2, 2], .data), ([2, 2], .again), ([2, 2], .data)] := by decide
theorem test_witness_BitParallelInstants :
    1 < ([2, 1].length + (8 - 1)) / 8 * 2 ∧ classifyLumps none (lumpsOf 8 [2, 1]) = [([2, 1, 1, 1, 1, 1, 1, 1], .data)] := by
  decide
theorem test_witness_LumpLanes : lumpsOf 3 [1, 0, 2, 0, 2, 0, 1, 2] = [[1, 1, 2], [2, 2, 2], [1, 2, 1]] := by decide
theorem test_witness_FrameSegments : checkBuildFrame State.reset = .ok ⟨1, 172⟩ := by decide
theorem test_witness_StageTransitions_match :
    let hits (rx : RxEngine) (code : Word) (j : Fin 6) : Prop :=
      ∃ k : Fin 32, code = slotCode k.val ∧ rx.pb[j] = some k
    (∀ stage ∈ [Stage.locate, .payload], hits (rxAt stage 5 32#32) 4#32 5 ∧ hits (rxAt stage 4 32#32) 1#32 4)
      ∧ (∀ stage ∈ [Stage.locate, .payload], (rxAt stage 5 32#32).duplicate 4#32 = false
        ∧ (rxAt stage 5 32#32).prog.val = 5 ∧ (rxAt stage 4 32#32).prog.val < 5) := by decide
theorem test_witness_StageTransitions_mismatch :
    let hits (rx : RxEngine) (code : Word) (j : Fin 6) : Prop :=
      ∃ k : Fin 32, code = slotCode k.val ∧ rx.pb[j] = some k
    ¬hits (rxAt .payload 1 32#32) 1#32 1 ∧ hits (rxAt .payload 1 32#32) 1#32 0
      ∧ ¬hits (rxAt .locate 5 32#32) 6#32 5 ∧ ¬hits (rxAt .locate 5 32#32) 6#32 0
      ∧ (rxAt .locate 5 6#32).duplicate 6#32 = true := by decide
theorem test_witness_StageTransitions_header :
    (rxStep lastHeaderBit 4#32).rx.stage ≠ .header ∧ (rxStep lastHeaderBit 1#32).rx.stage = .header
      ∧ lastHeaderBit.duplicate 4#32 = false ∧ (4#32 : Word) = slotCode 2 ∧ (lastHeaderBit.hu.push 2).1.nout = 20 := by
  decide
theorem test_witness_StageTransitions_header_bits :
    let bit : RxEngine := { lastHeaderBit with hu := ⟨1, 20, some 0, some 1, 0#8, 7, 3⟩ }
    bit.duplicate 6#32 = false ∧ (∀ k : Fin 32, (6#32 : Word) ≠ slotCode k.val) ∧ (rxStep bit 6#32).rx.hu = bit.hu
      ∧ bit.duplicate 4#32 = false ∧ (rxStep bit 4#32).rx.stage = .header
      ∧ (rxStep bit 4#32).rx.hbytes[(3 : Fin 20)] = 1#8 := by decide
theorem test_witness_StageTransitions_fields_last :
    (rxStep lastHeaderBit 4#32).rx.hu.nout = 20 ∧ (rxStep lastHeaderBit 4#32).rx.hu.nacc = 0
      ∧ (rxStep lastHeaderBit 4#32).rx.neg = ⟨1#32, 0x465AC000#32, 0x43960000#32, 0#32, 1#32⟩
      ∧ (rxStep (rxStep lastHeaderBit 4#32).rx 1#32).rx.neg = (rxStep lastHeaderBit 4#32).rx.neg := by decide
theorem test_witness_TerminalStagesIgnoreSlots :
    (rxAt .done 0 4#32).stage = .done ∧ (rxAt .error 0 4#32).stage = .error := by decide
theorem test_witness_DuplicateFilterOnOneGrid :
    (∀ stage ∈ [Stage.locate, .header, .payload], (rxAt stage 0 4#32).prev = some ⟨4#32, Grid.baseGrid⟩
      ∧ (rxAt stage 0 4#32).grid = Grid.baseGrid ∧ stepLegal (rxAt stage 0 4#32).grid.step = true
      ∧ (rxAt stage 0 4#32).duplicate 4#32 = true ∧ (rxAt stage 0 4#32).duplicate 2#32 = false)
    ∧ State.reset.rx.prev = none := by decide
theorem test_witness_DuplicateFilterOnOneGrid_across_grids :
    let rx : RxEngine := { rxAt .payload 0 4#32 with grid := ⟨Config.baseB, 0x437A0000#32⟩ }
    rx.prev = some ⟨4#32, Grid.baseGrid⟩ ∧ frequency Grid.baseGrid 2 = frequency rx.grid 4
      ∧ rx.duplicate 16#32 = true ∧ rx.duplicate 4#32 = false := by decide
theorem test_witness_LocateFindsThePattern :
    (rxFeed (RxEngine.resetOver (Vector.replicate 20 0#8)) ([] ++ [1#32, 4#32, 2#32, 4#32, 1#32])).1.stage = .locate
      ∧ (2#32 : Word) ≠ 1#32 ∧ (2#32 : Word) ≠ 4#32 := by decide
theorem test_witness_HeaderReception :
    let header (sb base step mod len : Word) : Params := ⟨sb, base, step, mod, len⟩
    let B := Config.baseB
    let S := Config.baseS
    checkHeader (header 0 0x7F800000 0 1 0xFFFFFFFF) = some .unsupportedModulation
      ∧ checkHeader (header 0 0x7F800000 0 2 0xFFFFFFFF) = some .unsupportedModulation
      ∧ checkHeader (header 0 B S 3 0) = some .badModulation
      ∧ checkHeader (header 0 B S 0xFFFFFFFF 0) = some .badModulation
      ∧ checkHeader (header 0 0x7F800000 S 0 0) = some .badSymbolBits
      ∧ checkHeader (header 5 0x7F800000 S 0 0) = some .badSymbolBits
      ∧ checkHeader (header 4 0x7F800000 0 0 0) = some .badBaseFreq
      ∧ checkHeader (header 1 B 0x80000000 0 4097) = some .badStep
      ∧ checkHeader (header 1 B 0x7FC00000 0 4097) = some .badStep
      ∧ checkHeader (header 1 B S 0 4097) = some .badLength
      ∧ checkHeader (header 1 B S 0 0xFFFFFFFF) = some .badLength
      ∧ checkHeader (header 4 B S 0 4096) = none ∧ checkHeader (header 1 B 0x00000001 0 0) = none
      ∧ (header 4 B S 0 4096).symbolBits.msb = false := by decide
theorem test_witness_PayloadConservesSymbols :
    let rx := rxAt .payload 2 4#32
    stepLegal rx.grid.step = true ∧ rx.prev = some ⟨4#32, rx.grid⟩ ∧ (rxFeed rx [1#32, 6#32]).1.stage = .payload
      ∧ rx.withheld = [0, 2] ∧ rx.acceptedFrom [4#32, 1#32, 6#32] = [0] := by decide
theorem test_witness_PayloadConservesSymbols_across_grids :
    let rx : RxEngine := { rxAt .payload 0 4#32 with grid := ⟨Config.baseB, 0x437A0000#32⟩ }
    stepLegal rx.grid.step = true ∧ (rxFeed rx [16#32, 16#32, 8#32]).1.stage = .payload
      ∧ rx.acceptedFrom [16#32, 16#32, 8#32] = [3] ∧ rx.acceptedFrom [4#32, 8#32] = [2, 3] := by decide
theorem test_witness_NoPatternNeverDone :
    lastHeaderBit.stage = .header ∧ (rxStep lastHeaderBit 4#32).rx.stage = .payload
      ∧ ∀ k, k < 32 → frequency (rxStep lastHeaderBit 4#32).rx.grid k ≠ 14500 * 2 ^ 149 := by decide
theorem test_witness_ReceiverIgnoresOtherSteps :
    actsOnReceiver .nop = false ∧ gives (exec .nop State.reset) (fun _ => true) = true := by decide
theorem test_witness_SoftResetCompletes :
    (pendingState 1#32).tx.pending = some 1#32 ∧ destination 1#32 (pendingState 1#32) = [(0x2000, 20)]
      ∧ State.reset.tx.pending = none := by decide
theorem test_witness_DestinationCoversCompletion :
    (pendingState 3#32).tx.pending = some 3#32 ∧ (pendingState 7#32).tx.pending = some 7#32
      ∧ (pendingState 7#32).complete.tx.err ≠ 0#8 ∧ destination 7#32 (pendingState 7#32) = [] := by decide
theorem test_witness_DestinationCoversCompletion_lists :
    let pack (w : Word) : State := { withPack 3#32 4#32 2#32 with tx := { (withPack 3#32 4#32 2#32).tx with pending := some w } }
    destination 3#32 (pack 3#32) = [(0x100000, 88)] ∧ (pack 3#32).complete.tx.err = 0#8
      ∧ destination 4#32 (pack 4#32) = [(0x3000, 4)] ∧ (pack 4#32).complete.tx.err = 0#8
      ∧ destination 1#32 (pack 1#32) = [(0x2000, 20)] ∧ destination 2#32 (pack 2#32) = []
      ∧ destination 5#32 (pack 5#32) = [(0x1000000, 0)] ∧ destination 6#32 (pack 6#32) = [(0x1000000, 1464)] := by decide
theorem test_witness_PowerOnResets : (State.reset.offer .powerOn).agenda = .powerOn :: [] := by decide
theorem test_witness_PendingBitsPersist :
    isSoftReset (.rxPushSlot 1#32) = false ∧ (∀ ignored clear, Instr.rxPushSlot 1#32 ≠ .irqAck ignored clear)
      ∧ gives (exec (.rxPushSlot 1#32) State.reset) (fun _ => true) = true :=
  ⟨rfl, by simp, by decide⟩
theorem test_witness_ResultsWrittenByTheirCommands :
    isSoftReset .synth = false ∧ (pendingState 3#32).tx.pending ≠ some 2#32
      ∧ (pendingState 3#32).tx.pending ≠ some 5#32 ∧ (pendingState 3#32).tx.pending ≠ some 6#32 := by decide
theorem test_witness_BusReadsAnswer :
    Buffer.hdr.wordOnly = false ∧ 31 + 1 ≤ Buffer.hdr.size ∧ 30 + 2 ≤ Buffer.hdr.size ∧ 28 + 4 ≤ Buffer.hdr.size
      ∧ Buffer.rx.wordOnly = false ∧ 4095 + 1 ≤ Buffer.rx.size ∧ 4094 + 2 ≤ Buffer.rx.size ∧ 4092 + 4 ≤ Buffer.rx.size
      ∧ (Buffer.samp 7).wordOnly = true ∧ 4 * 262143 < (Buffer.samp 7).size ∧ 0xFC < 0x100 := by decide
theorem test_witness_BusReadsAnswer_fields :
    let s : State := { State.reset with
      rx := { rxAt .payload 4 2#32 with err := 0x0B#8 }
      tx := { State.reset.tx with done := true, err := 0x09#8, lastCmd := 0x07#8 } }
    s.busValue 4 0x038 = 0x00070902#32 ∧ s.busValue 4 0x084 = 0x00000BE2#32 ∧ s.busValue 4 0x0A8 = 3#32
      ∧ s.busValue 4 0x0B8 = 2#32 ∧ s.busValue 4 0x0BC = 0#32 := by decide
theorem test_witness_BusWritesStoreBytes :
    (0x201F#25 : Addr).toNat = Buffer.hdr.base + 31 ∧ 31 + 1 ≤ Buffer.hdr.size ∧ Buffer.hdr.wordOnly = false
      ∧ (0x1FFE#25 : Addr).toNat = Buffer.tx.base + 0xFFE ∧ 0xFFE + 2 ≤ Buffer.tx.size
      ∧ (0x17FFFFC#25 : Addr).toNat = (Buffer.samp 7).base + 0xFFFFC ∧ 0xFFFFC + 4 ≤ (Buffer.samp 7).size := by decide
theorem test_witness_RegisterWritesStore :
    (Instr.busWrite32 0x00C#25 0xFF#32).WellFormed ∧ (Instr.busWrite32 0x0FC#25 0#32).WellFormed
      ∧ (0x0FC#25 : Addr).toNat % 4 = 0 ∧ Reg.atOffset 0x00C = some .irqEnable ∧ Reg.irqEnable.txSide = false
      ∧ Reg.atOffset 0x058 = none := by decide
theorem test_witness_AdmittedExactly :
    State.reset.admits .read 1 0x4FFF = true ∧ State.reset.admits .write 1 0x4FFF = false
      ∧ State.reset.admits .read 2 0x2020 = false ∧ State.reset.admits .write 4 0x17FFFFC = true
      ∧ (pendingState 0#32).admits .read 4 0x034 = false ∧ (pendingState 0#32).admits .read 4 0x038 = true := by decide

/-- A receiver in Payload that satisfies everything `RxEngine.Sound` asks. -/
theorem test_witness_payload_receiver_sound : busyPayload.rx.Sound where
  base := by decide
  negotiated := by decide
  headerUnpacker := by decide
  payloadUnpacker := by decide
  noBytes := by decide
  outLen := by decide
  err := by decide
  unset := by decide
  idle := by decide
  withheldBins := by decide

/-- A busy TX engine that satisfies everything `TxEngine.Sound` asks. -/
theorem test_witness_busy_tx_sound : busyPayload.tx.Sound where
  busy := fun w h => by
    obtain rfl : (3#32 : Word) = w := Option.some.inj h
    decide
  fresh := by decide
  code := by decide

theorem test_witness_StepKeepsMemory : busyPayload.mem.wf ∧ busyPayload.mem.inside ∧ busyPayload.receivedBytesWritten := by
  refine ⟨by decide, ?_, fun i hi => absurd hi (Nat.not_lt_zero i)⟩
  intro c hc
  obtain rfl : c = (0x1000, 0x3D#8) := List.mem_singleton.1 hc
  exact ⟨.tx, by decide, by decide⟩

theorem test_witness_SlotAndCompletionCommute : ∃ t, exec (.rxPushSlot 1#32) busyPayload = .next t := ⟨_, rfl⟩
theorem test_witness_BusyWindowKeepsOperands :
    busyPayload.tx.pending.isSome = true ∧ gives (exec (.busWrite32 0x00C#25 1#32) busyPayload) (fun _ => true) = true := by
  decide
theorem test_witness_steps_happen : gives (step busyPayload) (fun t => t.tx.pending == none) = true := by decide

theorem test_witness_AgendaDrains :
    ({ State.reset with agenda := [.bus 0x0C00003400000000#64, .completion] } : State).agendaDecodes := by
  intro t ht
  have : t = 0x0C00003400000000#64 := by simpa using ht
  exact ⟨.nop, by rw [this]; decide⟩

end Sys2Proof.Machine.Tests
end

