-- ==== Sys2Proof/Proofs/HeaderCodec.lean ====
section
/-! The header codec (40_header_codec.md): what SERIALIZE_HEADER and PARSE_HEADER leave when they complete, and that the
second undoes the first. -/

namespace Sys2Proof.Machine

/-! ### A command from its acceptance to its completion (45_control.md R134, R135) -/

/-- An effect that ends normally reaches the state after completion only through its registers and its memory. -/
theorem State.complete_acceptCommand_ok {s t : State} {w : Word} (h : s.tx.pending = none)
    (he : effect w (s.acceptCommand w) = .ok t) :
    (s.acceptCommand w).complete = (s.afterSuccess (w.setWidth 8) t.tx t.mem).answered 0#32 := by
  obtain ⟨hframe, -, -, -, hlast, -⟩ := effect_frame he
  have hpending : (s.acceptCommand w).tx.pending = some w := by rw [State.acceptCommand_idle h]
  have hcmd : t.tx.lastCmd = w.setWidth 8 := by rw [hlast, State.acceptCommand_idle h]
  rw [State.complete_ok hpending he, hframe, State.acceptCommand_idle h, State.afterSuccess, ← hcmd]
  rfl

/-- An effect that fails leaves its code and the status of a failure, and nothing else (R143, R148). -/
theorem State.complete_acceptCommand_error {s : State} {w : Word} {e : ErrorCode} (h : s.tx.pending = none)
    (he : effect w (s.acceptCommand w) = .error e) :
    (s.acceptCommand w).complete = (s.afterFailure (w.setWidth 8) e.code).answered 0#32 := by
  have hpending : (s.acceptCommand w).tx.pending = some w := by rw [State.acceptCommand_idle h]
  rw [State.complete_error hpending he, State.acceptCommand_idle h, State.finish, if_neg e.code_ne_zero]
  rfl

theorem exec_serializeHeader (s : State) : exec .serializeHeader s = .next (s.acceptCommand 1#32) := rfl

theorem exec_parseHeader (s : State) : exec .parseHeader s = .next (s.acceptCommand 2#32) := rfl

/-- A write to a buffer leaves every byte outside its own address range, whatever buffer that byte is indexed from. -/
theorem State.byteAt_writeBytes_outside {s : State} {b c : Buffer} {i x : Nat} {bytes : List Byte}
    (h : ¬(b.base + i ≤ c.base + x ∧ c.base + x < b.base + i + bytes.length)) :
    (s.writeBytes b i bytes).byteAt c x = s.byteAt c x := by
  unfold State.byteAt
  rw [State.writeBytes_mem, Memory.peek_store_outside (by omega), State.writeBytes_bufferDraw]

/-! ### The header record by fields (30_encoding.md R81) -/

theorem beBytes_getElem? (w : Word) {j : Nat} (hj : j < 4) :
    (beBytes w)[j]? = some (w.extractLsb' (24 - 8 * j) 8) := by
  interval_cases j <;> rfl

theorem flatMap_beBytes_getElem? (words : List Word) (f : Nat) {j : Nat} (hj : j < 4) :
    (words.flatMap beBytes)[4 * f + j]? = words[f]?.map fun w => w.extractLsb' (24 - 8 * j) 8 := by
  induction words generalizing f with
  | nil => simp
  | cons w ws ih =>
    rw [List.flatMap_cons]
    cases f with
    | zero =>
      rw [List.getElem?_append_left (by rw [beBytes_length]; omega), Nat.mul_zero, Nat.zero_add, beBytes_getElem? w hj]
      rfl
    | succ f =>
      rw [List.getElem?_append_right (by rw [beBytes_length]; omega), beBytes_length,
        show 4 * (f + 1) + j - 4 = 4 * f + j by omega, ih f, List.getElem?_cons_succ]

theorem headerBytes_eq_flatMap (p : Params) : headerBytes p = p.fields.flatMap beBytes := rfl

/-- Byte `4f + j` of a record is bits `31 - 8j : 24 - 8j` of field `f`. -/
theorem headerBytes_getD (p : Params) {f j : Nat} (hf : f < 5) (hj : j < 4) :
    (headerBytes p).getD (4 * f + j) 0#8 = (p.fields.getD f 0#32).extractLsb' (24 - 8 * j) 8 := by
  have hfield : p.fields[f]? = some (p.fields[f]'hf) := List.getElem?_eq_getElem hf
  rw [headerBytes_eq_flatMap, List.getD_eq_getElem?_getD, List.getD_eq_getElem?_getD, flatMap_beBytes_getElem? _ _ hj,
    hfield]
  rfl

/-- A function that gives a word's big-endian bytes at field `f` gives that word as the field. -/
theorem headerField_of_bytes {byte : Nat → Byte} {f : Nat} {w : Word}
    (h : ∀ j, j < 4 → byte (4 * f + j) = w.extractLsb' (24 - 8 * j) 8) : headerField byte f = w := by
  have h0 := h 0 (by decide)
  have h1 := h 1 (by decide)
  have h2 := h 2 (by decide)
  have h3 := h 3 (by decide)
  rw [Nat.add_zero] at h0
  rw [headerField, h0, h1, h2, h3]
  exact wordOfBE_extract w

/-- Reading a record back gives the parameters it was written from. -/
theorem headerParams_of_record {byte : Nat → Byte} {p : Params} (h : ∀ i, i < 20 → byte i = (headerBytes p).getD i 0#8) :
    headerParams byte = p := by
  have hfield : ∀ f, f < 5 → headerField byte f = p.fields.getD f 0#32 := fun f hf =>
    headerField_of_bytes fun j hj => (h _ (by omega)).trans (headerBytes_getD p hf hj)
  rw [headerParams, hfield 0 (by decide), hfield 1 (by decide), hfield 2 (by decide), hfield 3 (by decide),
    hfield 4 (by decide)]
  rfl

/-! ### SERIALIZE_HEADER (40_header_codec.md R92) -/

theorem State.complete_serializeHeader {s : State} (h : s.tx.pending = none) :
    (s.acceptCommand 1#32).complete
      = (s.afterSuccess 0x01#8 { s.tx with hdrAvail := 20#32, outLen := 20#32, outChannels := 0#32 }
          (s.writeBytes .hdr 0 (headerBytes s.tx.params)).mem).answered 0#32 := by
  have he : effect 1#32 (s.acceptCommand 1#32) = effectSerializeHeader (s.acceptCommand 1#32) := rfl
  rw [State.complete_acceptCommand_ok h he, State.acceptCommand_idle h]
  rfl

/-- The completed command has written the record and no other byte. -/
theorem State.byteAt_complete_serializeHeader {s : State} (h : s.tx.pending = none) (b : Buffer) (i : Nat) :
    (s.acceptCommand 1#32).complete.byteAt b i = (s.writeBytes .hdr 0 (headerBytes s.tx.params)).byteAt b i := by
  rw [State.complete_serializeHeader h]
  exact State.byteAt_congr rfl rfl b i

theorem State.hdr_complete_serializeHeader {s : State} (h : s.tx.pending = none) {i : Nat} (hi : i < 20) :
    (s.acceptCommand 1#32).complete.byteAt .hdr i = (headerBytes s.tx.params).getD i 0#8 := by
  rw [State.byteAt_complete_serializeHeader h,
    State.byteAt_writeBytes (Nat.zero_le i) (by rw [headerBytes_length]; omega), Nat.sub_zero]

/-- Settles O10: the completion is the record's write and three registers, and the record is read by fields. -/
theorem serializeHeaderCompletes : Obligations.SerializeHeaderCompletes := by
  intro s h
  refine ⟨s.acceptCommand 1#32, 0#32, (s.writeBytes .hdr 0 (headerBytes s.tx.params)).mem, exec_serializeHeader s, ?_,
    State.complete_serializeHeader h, fun f j hf hj => ?_, fun b i hout => ?_⟩
  · rw [State.acceptCommand_idle h]
  · rw [State.hdr_complete_serializeHeader h (by omega), headerBytes_getD _ hf hj]
  · rw [State.byteAt_complete_serializeHeader h, State.byteAt_writeBytes_outside hout]

/-! ### PARSE_HEADER (R93) -/

theorem State.complete_parseHeader_short {s : State} (h : s.tx.pending = none) (hshort : s.tx.hdrAvail.toNat < 20) :
    (s.acceptCommand 2#32).complete = (s.afterFailure 0x02#8 0x0B#8).answered 0#32 := by
  have he : effect 2#32 (s.acceptCommand 2#32) = .error .headerDecode := by
    rw [State.acceptCommand_idle h]
    exact if_pos hshort
  exact State.complete_acceptCommand_error h he

theorem State.complete_parseHeader {s : State} (h : s.tx.pending = none) (hfull : ¬ s.tx.hdrAvail.toNat < 20) :
    (s.acceptCommand 2#32).complete
      = (s.afterSuccess 0x02#8 { s.tx with parsed := headerParams (s.byteAt .hdr), outLen := 0#32, outChannels := 0#32 }
          s.mem).answered 0#32 := by
  have he : effect 2#32 (s.acceptCommand 2#32) = .ok { s.acceptCommand 2#32 with
      tx := { (s.acceptCommand 2#32).tx with
        parsed := headerParams ((s.acceptCommand 2#32).byteAt .hdr), outLen := 0#32, outChannels := 0#32 } } := by
    rw [State.acceptCommand_idle h]
    exact if_neg hfull
  rw [State.complete_acceptCommand_ok h he, State.acceptCommand_idle h]
  rfl

/-- The five fields of `HDR_BUF` are its big-endian words. -/
theorem headerParams_hdr (s : State) : headerParams (s.byteAt .hdr)
    = ⟨s.headerWord 0, s.headerWord 4, s.headerWord 8, s.headerWord 12, s.headerWord 16⟩ := rfl

/-- Settles O11: one completion below 20 available bytes, the other from 20 on. -/
theorem parseHeaderCompletes : Obligations.ParseHeaderCompletes := by
  intro s h
  refine ⟨s.acceptCommand 2#32, 0#32, exec_parseHeader s, by rw [State.acceptCommand_idle h], ?_⟩
  split
  · exact State.complete_parseHeader_short h ‹_›
  · rw [State.complete_parseHeader h ‹_›, headerParams_hdr]

/-! ### The round trip (R94) -/

/-- Settles O12: the bytes PARSE_HEADER reads are the record SERIALIZE_HEADER wrote, and 20 of them are available. -/
theorem headerCommandsRoundTrip : Obligations.HeaderCommandsRoundTrip := by
  intro s t v u hs ht hv havail hbytes hu
  obtain rfl : s.acceptCommand 1#32 = t := Host.Outcome.next.inj ht
  obtain rfl : v.acceptCommand 2#32 = u := Host.Outcome.next.inj hu
  have hfull : ¬ v.tx.hdrAvail.toNat < 20 := by
    rw [havail, State.complete_serializeHeader hs]
    exact Nat.lt_irrefl 20
  have hrecord : ∀ i, i < 20 → v.byteAt .hdr i = (headerBytes s.tx.params).getD i 0#8 := fun i hi =>
    (hbytes i hi).trans (State.hdr_complete_serializeHeader hs hi)
  calc (v.acceptCommand 2#32).complete.tx.parsed
      = headerParams (v.byteAt .hdr) := by rw [State.complete_parseHeader hv hfull]; rfl
    _ = s.tx.params := headerParams_of_record hrecord

end Sys2Proof.Machine
end

