-- ==== Sys2Proof/Proofs/SymbolCodec.lean ====
section
/-! The symbol codec (41_symbol_codec.md): the bytes an unpacker emits for any symbols, that unpacking inverts packing,
and what PACK and UNPACK leave when they complete. -/

namespace Sys2Proof.Machine

/-! ### Numbers and their bits -/

theorem valueOf_append (xs ys : List Bool) : valueOf (xs ++ ys) = valueOf xs * 2 ^ ys.length + valueOf ys := by
  suffices h : ∀ v : Nat, ys.foldl (fun v b => 2 * v + b.toNat) v = v * 2 ^ ys.length + valueOf ys by
    rw [← h, valueOf, List.foldl_append]
    rfl
  intro v
  induction ys using List.reverseRecOn with
  | nil => simp [valueOf]
  | append_singleton ys b ih =>
    simp only [valueOf, List.foldl_append, List.foldl_cons, List.foldl_nil, List.length_append, List.length_singleton,
      pow_succ] at ih ⊢
    rw [ih]
    ring

theorem valueOf_cons (b : Bool) (bs : List Bool) : valueOf (b :: bs) = b.toNat * 2 ^ bs.length + valueOf bs := by
  rw [← List.singleton_append, valueOf_append]
  simp [valueOf]

theorem bitsOf_succ (n v : Nat) : bitsOf (n + 1) v = v.testBit n :: bitsOf n v := by
  rw [bitsOf, List.range_succ_eq_map, List.map_cons, List.map_map, bitsOf]
  congr 1
  exact List.map_congr_left fun i _ => by rw [Function.comp_apply, show n + 1 - 1 - i.succ = n - 1 - i by omega]

@[simp] theorem valueOf_bitsOf (n v : Nat) : valueOf (bitsOf n v) = v % 2 ^ n := by
  induction n with
  | zero => rw [pow_zero, Nat.mod_one]; rfl
  | succ n ih =>
    rw [bitsOf_succ, valueOf_cons, bitsOf_length, ih, Nat.toNat_testBit, Nat.mod_pow_succ, Nat.mul_comm, Nat.add_comm]

/-- Bits are known by their number and their count. -/
theorem bitsOf_valueOf (bits : List Bool) : bitsOf bits.length (valueOf bits) = bits := by
  induction bits with
  | nil => rfl
  | cons b bs ih =>
    have hbit : ∀ j, (valueOf (b :: bs)).testBit j =
        if j < bs.length then (valueOf bs).testBit j else b.toNat.testBit (j - bs.length) := fun j => by
      rw [valueOf_cons, Nat.mul_comm, Nat.testBit_two_pow_mul_add _ (valueOf_lt bs)]
    have htail : bitsOf bs.length (valueOf (b :: bs)) = bitsOf bs.length (valueOf bs) :=
      List.map_congr_left fun i hi => by rw [hbit, if_pos (by have := List.mem_range.1 hi; omega)]
    rw [List.length_cons, bitsOf_succ, htail, ih, hbit, if_neg (Nat.lt_irrefl _), Nat.sub_self]
    cases b <;> rfl

/-- A byte taken from bit `a` up depends on the number's low `a + 8` bits only. -/
theorem byte_div_congr {n m k a : Nat} (h : n ≡ m [MOD 2 ^ k]) (ha : a + 8 ≤ k) :
    BitVec.ofNat 8 (n / 2 ^ a) = BitVec.ofNat 8 (m / 2 ^ a) := by
  have hlow : n % (2 ^ a * 2 ^ 8) = m % (2 ^ a * 2 ^ 8) := h.of_dvd (by rw [← pow_add]; exact pow_dvd_pow 2 ha)
  apply BitVec.eq_of_toNat_eq
  rw [BitVec.toNat_ofNat, BitVec.toNat_ofNat, ← Nat.mod_mul_right_div_self, ← Nat.mod_mul_right_div_self, hlow]

/-! ### Bits entering an unpacker (R99, the loop) -/

/-- The partial byte after one more bit. -/
def Unpacker.shiftIn (u : Unpacker) (b : Bool) : Byte := u.acc * 2#8 + (BitVec.ofBool b).setWidth 8

/-- An unpacker with one more bit in its partial byte. -/
def Unpacker.shifted (u : Unpacker) (b : Bool) : Unpacker := { u with acc := u.shiftIn b, nacc := u.nacc + 1 }

/-- An unpacker that has just emitted a byte. -/
def Unpacker.emitted (u : Unpacker) : Unpacker := { u with acc := 0#8, nacc := 0, nout := u.nout + 1 }

@[simp] theorem Unpacker.emitted_nout (u : Unpacker) : u.emitted.nout = u.nout + 1 := rfl

@[simp] theorem Unpacker.emitted_target (u : Unpacker) : u.emitted.target = u.target := rfl

theorem Unpacker.shiftIn_eq (u : Unpacker) (b : Bool) : u.shiftIn b = BitVec.ofNat 8 (2 * u.acc.toNat + b.toNat) := by
  apply BitVec.eq_of_toNat_eq
  cases b <;> simp [Unpacker.shiftIn, Nat.mul_comm]

@[simp] theorem Unpacker.pushBits_nil (u : Unpacker) : u.pushBits [] = (u, []) := rfl

theorem Unpacker.pushBits_cons_partial {u : Unpacker} (h : u.nacc + 1 ≠ 8) (b : Bool) (bs : List Bool) :
    u.pushBits (b :: bs) = (u.shifted b).pushBits bs := if_neg h

theorem Unpacker.pushBits_cons_last {u : Unpacker} (h : u.nacc + 1 = 8) (ht : u.target ≤ u.nout + 1) (b : Bool)
    (bs : List Bool) : u.pushBits (b :: bs) = (u.emitted, [u.shiftIn b]) :=
  (if_pos h).trans (if_pos ht)

theorem Unpacker.pushBits_cons_full {u : Unpacker} (h : u.nacc + 1 = 8) (ht : ¬ u.target ≤ u.nout + 1) (b : Bool)
    (bs : List Bool) :
    u.pushBits (b :: bs) = ((u.emitted.pushBits bs).1, u.shiftIn b :: (u.emitted.pushBits bs).2) :=
  (if_pos h).trans (if_neg ht)

/-- The unpacker and the bytes it has emitted once its partial byte and the new bits, `bits` of them in all, spell the
number `n`: the whole bytes come out from the top, up to the target, and the rest is the partial byte. -/
def Unpacker.received (u : Unpacker) (bits n : Nat) : Unpacker × List Byte :=
  let whole := min (bits / 8) (u.target - u.nout)
  let left := if u.nout + whole = u.target then 0 else bits % 8
  ({ u with acc := BitVec.ofNat 8 (if bits < 8 then n else n % 2 ^ left), nacc := left, nout := u.nout + whole },
    (List.range whole).map fun i => BitVec.ofNat 8 (n / 2 ^ (bits - 8 * (i + 1))))

theorem Unpacker.received_eq {u : Unpacker} {bits whole left : Nat} (n : Nat)
    (hwhole : min (bits / 8) (u.target - u.nout) = whole)
    (hleft : (if u.nout + whole = u.target then 0 else bits % 8) = left) :
    u.received bits n =
      ({ u with acc := BitVec.ofNat 8 (if bits < 8 then n else n % 2 ^ left), nacc := left, nout := u.nout + whole },
        (List.range whole).map fun i => BitVec.ofNat 8 (n / 2 ^ (bits - 8 * (i + 1)))) := by
  subst hwhole hleft
  rfl

/-- Bits above the partial byte and the bits received are without effect. -/
theorem Unpacker.received_congr {u : Unpacker} {bits k n m : Nat} (h : n ≡ m [MOD 2 ^ k]) (hbits : bits ≤ k)
    (hk : 8 ≤ k) : u.received bits n = u.received bits m := by
  have hacc : ∀ left, left ≤ bits % 8 →
      BitVec.ofNat 8 (if bits < 8 then n else n % 2 ^ left)
        = BitVec.ofNat 8 (if bits < 8 then m else m % 2 ^ left) := by
    intro left hleft
    split
    · simpa using byte_div_congr (a := 0) h (by omega)
    · rw [h.of_dvd (pow_dvd_pow 2 (show left ≤ k by omega))]
  have hout : ∀ i ∈ List.range (min (bits / 8) (u.target - u.nout)),
      BitVec.ofNat 8 (n / 2 ^ (bits - 8 * (i + 1))) = BitVec.ofNat 8 (m / 2 ^ (bits - 8 * (i + 1))) := fun i hi =>
    byte_div_congr h (by have := List.mem_range.1 hi; omega)
  unfold Unpacker.received
  simp only
  rw [hacc _ (by split <;> omega), List.map_congr_left hout]

theorem mul_two_pow_add_div {a v len : Nat} (hv : v < 2 ^ len) : (a * 2 ^ len + v) / 2 ^ len = a := by
  rw [Nat.mul_comm, Nat.mul_add_div (by positivity), Nat.div_eq_of_lt hv, Nat.add_zero]

/-- The last byte up to the target empties the unpacker; the bits below it are dropped. -/
theorem Unpacker.received_last {u : Unpacker} {len a v : Nat} (hv : v < 2 ^ len) (ht : u.nout + 1 = u.target) :
    u.received (8 + len) (a * 2 ^ len + v) = (u.emitted, [BitVec.ofNat 8 a]) := by
  have hwhole : min ((8 + len) / 8) (u.target - u.nout) = 1 := by omega
  rw [Unpacker.received_eq _ hwhole (if_pos ht)]
  simp [Unpacker.emitted, mul_two_pow_add_div hv, Nat.mod_one]

/-- A full byte on top of the bits to come is emitted, and they meet an empty partial byte. -/
theorem Unpacker.received_full {u : Unpacker} {len a v : Nat} (hv : v < 2 ^ len) (ht : u.nout + 1 < u.target) :
    u.received (8 + len) (a * 2 ^ len + v)
      = ((u.emitted.received len v).1, BitVec.ofNat 8 a :: (u.emitted.received len v).2) := by
  obtain ⟨whole, hrest⟩ : ∃ whole, min (len / 8) (u.target - (u.nout + 1)) = whole := ⟨_, rfl⟩
  obtain ⟨left, hleft⟩ : ∃ left, (if u.nout + 1 + whole = u.target then 0 else len % 8) = left := ⟨_, rfl⟩
  have hwhole : min ((8 + len) / 8) (u.target - u.nout) = whole + 1 := by omega
  have hnout : u.nout + (whole + 1) = u.nout + 1 + whole := by omega
  have htop : (if u.nout + (whole + 1) = u.target then 0 else (8 + len) % 8) = left := by
    rw [hnout, Nat.add_mod_left, hleft]
  have hlow : a * 2 ^ len + v ≡ v [MOD 2 ^ len] := by rw [Nat.ModEq, Nat.mul_comm, Nat.mul_add_mod]
  have hpartial : (a * 2 ^ len + v) % 2 ^ left = if len < 8 then v else v % 2 ^ left := by
    split
    · rw [show left = len by split at hleft <;> omega, hlow, Nat.mod_eq_of_lt hv]
    · exact hlow.of_dvd (pow_dvd_pow 2 (by split at hleft <;> omega))
  have hbytes : ∀ i ∈ List.range whole, BitVec.ofNat 8 ((a * 2 ^ len + v) / 2 ^ (8 + len - 8 * (i + 1 + 1)))
      = BitVec.ofNat 8 (v / 2 ^ (len - 8 * (i + 1))) := fun i hi => by
    rw [show 8 + len - 8 * (i + 1 + 1) = len - 8 * (i + 1) by omega]
    exact byte_div_congr hlow (by have := List.mem_range.1 hi; omega)
  rw [Unpacker.received_eq _ hwhole htop, Unpacker.received_eq (u := u.emitted) _ hrest hleft,
    ← List.map_congr_left hbytes, List.range_succ_eq_map, List.map_cons, List.map_map,
    if_neg (show ¬8 + len < 8 by omega), hpartial, hnout, Nat.zero_add, Nat.mul_one, Nat.add_sub_cancel_left,
    mul_two_pow_add_div hv]
  rfl

/-- What bits entering an unpacker do to it, and the bytes they emit. -/
theorem Unpacker.pushBits_eq_received (u : Unpacker) (bits : List Bool) (hn : u.nacc < 8) (ho : u.nout < u.target) :
    u.pushBits bits
      = u.received (u.nacc + bits.length) (u.acc.toNat * 2 ^ bits.length + valueOf bits) := by
  induction bits generalizing u with
  | nil =>
    have hwhole : u.nacc / 8 = 0 := by omega
    simp [Unpacker.received, valueOf, hwhole, hn, ho.ne, Nat.mod_eq_of_lt hn]
  | cons b bs ih =>
    have hN : u.acc.toNat * 2 ^ (b :: bs).length + valueOf (b :: bs)
        = (2 * u.acc.toNat + b.toNat) * 2 ^ bs.length + valueOf bs := by
      rw [valueOf_cons, List.length_cons, pow_succ]
      ring
    rw [hN]
    by_cases hfull : u.nacc + 1 = 8
    · rw [show u.nacc + (b :: bs).length = 8 + bs.length by rw [List.length_cons]; omega]
      by_cases hlast : u.target ≤ u.nout + 1
      · rw [Unpacker.pushBits_cons_last hfull hlast, Unpacker.received_last (valueOf_lt bs) (by omega),
          Unpacker.shiftIn_eq]
      · have hrec := ih u.emitted (Nat.zero_lt_succ 7) (Nat.lt_of_not_le hlast)
        simp only [Unpacker.emitted, BitVec.toNat_ofNat, Nat.zero_mod, Nat.zero_mul, Nat.zero_add] at hrec
        rw [Unpacker.pushBits_cons_full hfull hlast, Unpacker.received_full (valueOf_lt bs) (by omega),
          Unpacker.shiftIn_eq, Unpacker.emitted, hrec]
    · have hacc : (u.shiftIn b).toNat * 2 ^ bs.length + valueOf bs
          ≡ (2 * u.acc.toNat + b.toNat) * 2 ^ bs.length + valueOf bs [MOD 2 ^ (8 + bs.length)] := by
        rw [Unpacker.shiftIn_eq, BitVec.toNat_ofNat, pow_add]
        exact ((Nat.mod_modEq _ _).mul_right' _).add_right _
      rw [← Unpacker.received_congr hacc (by rw [List.length_cons]; omega) (by omega),
        Unpacker.pushBits_cons_partial hfull, ih (u.shifted b) (show u.nacc + 1 < 8 by omega) ho, List.length_cons,
        Nat.add_comm _ 1, ← Nat.add_assoc]
      rfl

/-- The unpacker with a raw symbol remembered, and what it resolved to. -/
def Unpacker.seen (u : Unpacker) (raw : Nat) (res : Option Nat) : Unpacker :=
  { u with prevRaw := some raw, prevRes := res }

/-- The bytes that bits emit do not depend on the symbols remembered. -/
theorem Unpacker.pushBits_seen_bytes {u : Unpacker} (raw : Nat) (res : Option Nat) (bits : List Bool) (hn : u.nacc < 8)
    (ho : u.nout < u.target) : ((u.seen raw res).pushBits bits).2 = (u.pushBits bits).2 := by
  rw [Unpacker.pushBits_eq_received u bits hn ho, Unpacker.pushBits_eq_received (u.seen raw res) bits hn ho]
  rfl

/-- Bits in two parts, the second of them dropped if the target is reached before. -/
theorem Unpacker.pushBits_append {u : Unpacker} (xs ys : List Bool) (ho : u.nout < u.target) :
    u.pushBits (xs ++ ys) =
      if u.target ≤ (u.pushBits xs).1.nout then u.pushBits xs
      else (((u.pushBits xs).1.pushBits ys).1, (u.pushBits xs).2 ++ ((u.pushBits xs).1.pushBits ys).2) := by
  induction xs generalizing u with
  | nil => simp [ho]
  | cons x xs ih =>
    rw [List.cons_append]
    by_cases hfull : u.nacc + 1 = 8
    · by_cases hlast : u.target ≤ u.nout + 1
      · simp [Unpacker.pushBits_cons_last hfull hlast, hlast]
      · have hrec := ih (u := u.emitted) (Nat.lt_of_not_le hlast)
        rw [Unpacker.pushBits_cons_full hfull hlast, Unpacker.pushBits_cons_full hfull hlast, hrec]
        by_cases hstop : u.target ≤ (u.emitted.pushBits xs).1.nout <;> simp [hstop]
    · rw [Unpacker.pushBits_cons_partial hfull, Unpacker.pushBits_cons_partial hfull]
      exact ih (u := u.shifted x) ho

theorem Unpacker.pushBits_append_stopped {u : Unpacker} {xs : List Bool} (ys : List Bool) (ho : u.nout < u.target)
    (h : u.target ≤ (u.pushBits xs).1.nout) : u.pushBits (xs ++ ys) = u.pushBits xs :=
  (Unpacker.pushBits_append xs ys ho).trans (if_pos h)

theorem Unpacker.pushBits_append_running {u : Unpacker} {xs : List Bool} (ys : List Bool) (ho : u.nout < u.target)
    (h : (u.pushBits xs).1.nout < u.target) :
    (u.pushBits (xs ++ ys)).2 = (u.pushBits xs).2 ++ ((u.pushBits xs).1.pushBits ys).2 := by
  rw [Unpacker.pushBits_append xs ys ho, if_neg (Nat.not_le_of_lt h)]

/-! ### One symbol (R99) -/

/-- The bits that a resolved bin puts into the partial byte. -/
def binBits (sb bin : Nat) : List Bool := bitsOf sb ((bin - 1) % 2 ^ sb)

@[simp] theorem binBits_length (sb bin : Nat) : (binBits sb bin).length = sb := bitsOf_length _ _

@[simp] theorem valueOf_binBits (sb bin : Nat) : valueOf (binBits sb bin) = (bin - 1) % 2 ^ sb := by
  rw [binBits, valueOf_bitsOf, Nat.mod_mod]

/-- A raw duplicate is skipped. -/
theorem Unpacker.push_duplicate {u : Unpacker} {symbol : Nat} (h : u.prevRaw = some symbol) :
    u.push symbol = (u, []) := by
  simp [Unpacker.push, h]

/-- What a symbol resolves to after a resolved bin `res`: a sentinel stands for that bin, or for nothing. -/
def resolvedBin (res : Option Nat) (symbol : Nat) : Option Nat := if symbol = 0 then res else some symbol

/-- Any other symbol is remembered, and puts the bits of the bin it resolves to, if any, into the partial byte. -/
theorem Unpacker.push_new {u : Unpacker} {symbol : Nat} (ho : u.nout < u.target) (hraw : u.prevRaw ≠ some symbol) :
    u.push symbol = (u.seen symbol (resolvedBin u.prevRes symbol)).pushBits
      ((resolvedBin u.prevRes symbol).toList.flatMap (binBits u.sb)) := by
  unfold Unpacker.push resolvedBin
  rw [if_neg (Nat.not_le_of_lt ho), if_neg hraw]
  by_cases hzero : symbol = 0
  · cases u.prevRes <;> simp [hzero, Unpacker.seen, binBits]
  · simp [hzero, Unpacker.seen, binBits]

/-! ### Many symbols (R100) -/

theorem Unpacker.pushAll_cons (u : Unpacker) (x : Nat) (xs : List Nat) :
    u.pushAll (x :: xs) = (((u.push x).1.pushAll xs).1, (u.push x).2 ++ ((u.push x).1.pushAll xs).2) := rfl

theorem Unpacker.pushAll_stopped {u : Unpacker} (h : u.target ≤ u.nout) (xs : List Nat) : u.pushAll xs = (u, []) := by
  induction xs with
  | nil => rfl
  | cons x xs ih => simp [Unpacker.pushAll_cons, Unpacker.push_stopped h, ih]

/-- The bins that symbols resolve to, after a raw symbol `raw` and a resolved bin `res`, raw duplicates skipped. -/
def resolvedBins : Option Nat → Option Nat → List Nat → List Nat
  | _, _, [] => []
  | raw, res, x :: xs =>
    if raw = some x then resolvedBins raw res xs
    else (resolvedBin res x).toList ++ resolvedBins (some x) (resolvedBin res x) xs

/-- An unpacker that runs emits the bytes of its symbols' bit stream: where one symbol ends and the next begins does not
matter. -/
theorem Unpacker.pushAll_bytes {u : Unpacker} (symbols : List Nat) (hn : u.nacc < 8) (ho : u.nout < u.target) :
    (u.pushAll symbols).2 = (u.pushBits ((resolvedBins u.prevRaw u.prevRes symbols).flatMap (binBits u.sb))).2 := by
  induction symbols generalizing u with
  | nil => rfl
  | cons x xs ih =>
    rw [Unpacker.pushAll_cons, resolvedBins]
    by_cases hraw : u.prevRaw = some x
    · rw [Unpacker.push_duplicate hraw, if_pos hraw]
      exact ih hn ho
    · rw [Unpacker.push_new ho hraw, if_neg hraw, List.flatMap_append]
      generalize resolvedBin u.prevRes x = res
      obtain ⟨hsb, htarget, hprevRaw, hprevRes, -, -, hnacc⟩ :=
        Unpacker.pushBits_facts (u.seen x res) (res.toList.flatMap (binBits u.sb)) hn ho
      rw [← Unpacker.pushBits_seen_bytes x res _ hn ho]
      rcases Nat.lt_or_ge ((u.seen x res).pushBits (res.toList.flatMap (binBits u.sb))).1.nout u.target
        with hrun | hstop
      · have hrec := ih hnacc (hrun.trans_eq htarget.symm)
        rw [hsb, hprevRaw, hprevRes] at hrec
        rw [hrec, Unpacker.pushBits_append_running (u := u.seen x res) _ ho hrun]
        rfl
      · rw [Unpacker.pushAll_stopped (htarget.trans_le hstop), List.append_nil,
          Unpacker.pushBits_append_stopped (u := u.seen x res) _ ho hstop]

/-- The bytes of a fresh unpacker with a target (R100). -/
theorem unpackSymbols_eq {count : Nat} (symbols : List Nat) (sb : Nat) (h : 0 < count) :
    unpackSymbols symbols sb count
      = ((Unpacker.fresh sb count).pushBits ((resolvedBins none none symbols).flatMap (binBits sb))).2 :=
  Unpacker.pushAll_bytes symbols (Nat.zero_lt_succ 7) h

theorem unpackSymbols_zero (symbols : List Nat) (sb : Nat) : unpackSymbols symbols sb 0 = [] := by
  rw [unpackSymbols, Unpacker.pushAll_stopped (Nat.le_refl 0)]

theorem flatMap_binBits_length (sb : Nat) (bins : List Nat) :
    (bins.flatMap (binBits sb)).length = sb * bins.length := by
  simp [List.length_flatMap, Nat.mul_comm]

/-- The bit stream of bins as a number: one digit of base `2 ^ sb` for each of them. -/
theorem valueOf_flatMap_binBits (sb : Nat) (bins : List Nat) :
    valueOf (bins.flatMap (binBits sb)) = bins.foldl (fun n bin => 2 ^ sb * n + (bin - 1) % 2 ^ sb) 0 := by
  induction bins using List.reverseRecOn with
  | nil => rfl
  | append_singleton bins bin ih =>
    rw [List.flatMap_append, valueOf_append, ih, List.foldl_append, List.flatMap_singleton, binBits_length,
      valueOf_binBits, Nat.mul_comm]
    rfl

/-! ### Unpacking inverts packing (R103) -/

theorem resolvedBins_copies (raw : Nat) (res : Option Nat) (n : Nat) (rest : List Nat) :
    resolvedBins (some raw) res (List.replicate n raw ++ rest) = resolvedBins (some raw) res rest := by
  induction n with
  | zero => rfl
  | succ n ih => rw [List.replicate_succ, List.cons_append, resolvedBins, if_pos rfl, ih]

/-- The symbols of a packing resolve to its data bins: two emitted symbols in a row differ, so only copies are skipped,
and a sentinel follows the very bin it stands for. -/
theorem resolvedBins_packed {r : Nat} (hr : 1 ≤ r) {prev res : Option Nat} {bins : List Nat}
    (hbins : ∀ k ∈ bins, k ≠ 0) (hres : ∀ k, k ≠ 0 → prev = some k → res = some k) :
    resolvedBins prev res ((emitSymbols prev bins).flatMap fun e => List.replicate r e) = bins := by
  obtain ⟨copies, rfl⟩ : ∃ copies, r = copies + 1 := ⟨r - 1, by omega⟩
  induction bins generalizing prev res with
  | nil => rfl
  | cons k ks ih =>
    obtain ⟨hk, hks⟩ := List.forall_mem_cons.1 hbins
    obtain ⟨e, he⟩ : ∃ e, (if prev = some k then 0 else k) = e := ⟨_, rfl⟩
    have hnew : prev ≠ some e := by
      rintro rfl
      split at he <;> simp_all
    have hbin : resolvedBin res e = some k := by
      rw [← he]
      split
      case isTrue h => exact hres k hk h
      case isFalse h => exact if_neg hk
    have hnext : ∀ k', k' ≠ 0 → some e = some k' → some k = some k' := by
      rintro k' hk' ⟨⟩
      split at he
      · exact absurd he.symm hk'
      · rw [he]
    rw [emitSymbols, he, List.flatMap_cons, List.replicate_succ, List.cons_append, resolvedBins, if_neg hnew, hbin,
      resolvedBins_copies, ih hks hnext, Option.toList_some, List.singleton_append]

theorem groupsOf_flatten {α : Type} (size count : Nat) (xs : List α) :
    (groupsOf size count xs).flatten = xs.take (count * size) := by
  induction count generalizing xs with
  | zero => simp [groupsOf]
  | succ n ih => rw [groupsOf, List.flatten_cons, ih, Nat.succ_mul, Nat.add_comm, List.take_add]

theorem length_of_mem_groupsOf {α : Type} {size count : Nat} {xs g : List α} (hlen : xs.length = count * size)
    (hg : g ∈ groupsOf size count xs) : g.length = size := by
  induction count generalizing xs with
  | zero => exact absurd hg List.not_mem_nil
  | succ n ih =>
    rw [Nat.succ_mul] at hlen
    rcases List.mem_cons.1 hg with rfl | hg
    · rw [List.length_take]; omega
    · exact ih (by rw [List.length_drop]; omega) hg

theorem padBits_length_mul {sb : Nat} (h : 0 < sb) (bits : List Bool) :
    (padBits sb bits).length = (padBits sb bits).length / sb * sb := by
  rw [padBits_length h, Nat.mul_div_cancel _ h]

/-- The groups' bits, joined, are the padded bit stream. -/
theorem flatMap_bits_groupValues {sb : Nat} (h : 0 < sb) (bytes : List Byte) :
    (groupValues sb bytes).flatMap (bitsOf sb) = padBits sb (bitsOfBytes bytes) := by
  calc (groupValues sb bytes).flatMap (bitsOf sb)
      = (groupsOf sb _ (padBits sb (bitsOfBytes bytes))).flatMap fun g => bitsOf sb (valueOf g) := by
        rw [groupValues, List.flatMap_map]
    _ = (groupsOf sb _ (padBits sb (bitsOfBytes bytes))).flatMap id :=
        List.flatMap_congr fun g hg => by
          have hbits := bitsOf_valueOf g
          rwa [length_of_mem_groupsOf (padBits_length_mul h _) hg] at hbits
    _ = padBits sb (bitsOfBytes bytes) := by
        rw [List.flatMap_id, groupsOf_flatten, ← padBits_length_mul h, List.take_length]

theorem groupValues_lt {sb : Nat} (h : 0 < sb) {bytes : List Byte} {v : Nat} (hv : v ∈ groupValues sb bytes) :
    v < 2 ^ sb := by
  obtain ⟨g, hg, rfl⟩ := List.mem_map.1 hv
  exact length_of_mem_groupsOf (padBits_length_mul h _) hg ▸ valueOf_lt g

/-- The symbols of a packing spell the padded bit stream. -/
theorem resolvedBits_packSymbols {sb r : Nat} (hsb : 1 ≤ sb) (hr : 1 ≤ r) (bytes : List Byte) :
    (resolvedBins none none (packSymbols bytes sb r)).flatMap (binBits sb) = padBits sb (bitsOfBytes bytes) := by
  have hbins : ∀ k ∈ (groupValues sb bytes).map (fun v => 1 + v), k ≠ 0 := by simp
  rw [packSymbols, resolvedBins_packed hr hbins (by simp), List.flatMap_map, ← flatMap_bits_groupValues hsb]
  refine List.flatMap_congr fun v hv => ?_
  rw [binBits, Nat.add_sub_cancel_left, Nat.mod_eq_of_lt (groupValues_lt hsb hv)]

/-- A byte's worth of bits on an empty partial byte is that byte. -/
theorem Unpacker.pushBits_byte {u : Unpacker} (hacc : u.acc = 0#8) (hnacc : u.nacc = 0) (ho : u.nout < u.target)
    (b : Byte) : u.pushBits (bitsOf 8 b.toNat) = (u.emitted, [b]) := by
  have hwhole : min 1 (u.target - u.nout) = 1 := by omega
  rw [Unpacker.pushBits_eq_received _ _ (by omega) ho, hacc, hnacc, valueOf_bitsOf, bitsOf_length,
    Nat.mod_eq_of_lt b.isLt]
  simp [Unpacker.received, Unpacker.emitted, hwhole, Nat.mod_one]

/-- The target stops the unpacker after the bytes it asks for, whatever bits follow. -/
theorem Unpacker.pushBits_bitsOfBytes {u : Unpacker} {bytes : List Byte} (hacc : u.acc = 0#8) (hnacc : u.nacc = 0)
    (hne : bytes ≠ []) (htarget : u.target = u.nout + bytes.length) (padding : List Bool) :
    (u.pushBits (bitsOfBytes bytes ++ padding)).2 = bytes := by
  induction bytes generalizing u with
  | nil => exact absurd rfl hne
  | cons b bs ih =>
    rw [List.length_cons] at htarget
    have ho : u.nout < u.target := by omega
    have hbyte := Unpacker.pushBits_byte hacc hnacc ho b
    rw [show bitsOfBytes (b :: bs) = bitsOf 8 b.toNat ++ bitsOfBytes bs from rfl, List.append_assoc]
    cases bs with
    | nil => rw [Unpacker.pushBits_append_stopped _ ho (by rw [hbyte]; exact htarget.le), hbyte]
    | cons c cs =>
      have hnext : u.emitted.target = u.emitted.nout + (c :: cs).length := by
        rw [Unpacker.emitted_target, Unpacker.emitted_nout]
        omega
      have hrun : u.emitted.nout < u.target := by
        rw [← Unpacker.emitted_target, hnext, List.length_cons]
        omega
      rw [Unpacker.pushBits_append_running _ ho (by rw [hbyte]; exact hrun), hbyte,
        ih (u := u.emitted) rfl rfl (List.cons_ne_nil c cs) hnext, List.singleton_append]

/-- Settles O21: the symbols of a packing spell the payload's bits and then the padding, and the unpacker stops at its
target before the padding. -/
theorem unpackInvertsPack : Obligations.UnpackInvertsPack := by
  intro bytes sb r _ hsb _ hr
  by_cases hne : bytes = []
  · rw [hne]
    exact unpackSymbols_zero _ sb
  · rw [unpackSymbols_eq _ _ (List.length_pos_iff.2 hne), resolvedBits_packSymbols hsb hr]
    exact Unpacker.pushBits_bitsOfBytes rfl rfl hne (Nat.zero_add _).symm _

/-! ### The operands of PACK and UNPACK -/

/-- A positive signed word is its unsigned value. -/
theorem toNat_toInt_of_pos {w : Word} (h : 1 ≤ w.toInt) : w.toInt.toNat = w.toNat := by
  have hcond := BitVec.toInt_eq_toNat_cond w
  split at hcond <;> omega

theorem symbolBitsWithin_iff {top : Nat} {w : Word} :
    symbolBitsWithin top w = true ↔ 1 ≤ w.toInt ∧ w.toInt ≤ top := by
  simp [symbolBitsWithin]

theorem ceilDiv_eq {d : Nat} (h : 1 ≤ d) (n : Nat) : ceilDiv n d = (n + (d - 1)) / d := by
  rw [ceilDiv, Nat.add_sub_assoc h]

/-! ### PACK (R101) -/

theorem exec_pack (s : State) : exec .pack s = .next (s.acceptCommand 3#32) := rfl

theorem groupValues_length {sb : Nat} (h : 1 ≤ sb) (bytes : List Byte) :
    (groupValues sb bytes).length = ceilDiv (8 * bytes.length) sb := by
  rw [groupValues, List.length_map, groupsOf_length, padBits_length h, Nat.mul_div_cancel _ h, bitsOfBytes_length]

theorem packSymbols_length {sb : Nat} (h : 1 ≤ sb) (bytes : List Byte) (r : Nat) :
    (packSymbols bytes sb r).length = ceilDiv (8 * bytes.length) sb * r := by
  rw [packSymbols, flatMap_replicate_length, emitSymbols_length, List.length_map, groupValues_length h]

/-- The checks of PACK in order. -/
theorem checkPack_eq (s : State) :
    let sb := s.tx.params.symbolBits.toInt
    let len := s.tx.params.payloadLen.toNat
    let r := s.tx.replication.toNat
    let n := (8 * len + (sb.toNat - 1)) / sb.toNat * r
    checkPack s =
      if ¬(1 ≤ sb ∧ sb ≤ 16) then .error .badSymbolBits
      else if r = 0 then .error .badReplication
      else if 4096 < len then .error .badLength
      else if 262144 < n then .error .overflow
      else .ok n := by
  intro sb len r n
  unfold checkPack
  by_cases hsb : 1 ≤ sb ∧ sb ≤ 16
  · have hn : ceilDiv (8 * len) s.tx.params.symbolBits.toNat * r = n := by
      rw [← toNat_toInt_of_pos hsb.1, ceilDiv_eq (by omega)]
    simp only [symbolBitsWithin_iff.2 hsb, not_not.2 hsb, Bool.not_true, Bool.false_eq_true, if_false]
    rw [← hn]
  · simp only [Bool.eq_false_iff.2 (mt symbolBitsWithin_iff.1 hsb), hsb, Bool.not_false, not_false_eq_true, if_true]

theorem effectPack_of_ok {s : State} {n : Nat} (h : checkPack s = .ok n) :
    effectPack s = .ok { s.writeWords .sym 0 (s.packedSymbols.map (BitVec.ofNat 32)) with
      tx := { s.tx with symCount := BitVec.ofNat 32 n, outLen := BitVec.ofNat 32 n, outChannels := 0#32 } } := by
  rw [effectPack, h]
  rfl

theorem effectPack_of_error {s : State} {e : ErrorCode} (h : checkPack s = .error e) : effectPack s = .error e := by
  rw [effectPack, h]

theorem checkPack_acceptCommand {s : State} (h : s.tx.pending = none) (w : Word) :
    checkPack (s.acceptCommand w) = checkPack s := by
  rw [State.acceptCommand_idle h]
  rfl

theorem State.complete_pack_error {s : State} {e : ErrorCode} (h : s.tx.pending = none)
    (hcheck : checkPack s = .error e) :
    (s.acceptCommand 3#32).complete = (s.afterFailure 0x03#8 e.code).answered 0#32 :=
  State.complete_acceptCommand_error h (effectPack_of_error ((checkPack_acceptCommand h _).trans hcheck))

theorem State.complete_pack {s : State} {n : Nat} (h : s.tx.pending = none) (hcheck : checkPack s = .ok n) :
    (s.acceptCommand 3#32).complete
      = (s.afterSuccess 0x03#8
          { s.tx with symCount := BitVec.ofNat 32 n, outLen := BitVec.ofNat 32 n, outChannels := 0#32 }
          (s.writeWords .sym 0 (s.packedSymbols.map (BitVec.ofNat 32))).mem).answered 0#32 := by
  have he : effect 3#32 (s.acceptCommand 3#32) = .ok _ := effectPack_of_ok ((checkPack_acceptCommand h _).trans hcheck)
  rw [State.complete_acceptCommand_ok h he, State.acceptCommand_idle h]
  rfl

theorem State.byteAt_complete_pack {s : State} {n : Nat} (h : s.tx.pending = none) (hcheck : checkPack s = .ok n)
    (b : Buffer) (i : Nat) : (s.acceptCommand 3#32).complete.byteAt b i
      = (s.writeWords .sym 0 (s.packedSymbols.map (BitVec.ofNat 32))).byteAt b i := by
  rw [State.complete_pack h hcheck]
  exact State.byteAt_congr rfl rfl b i

/-- The words that PACK writes are the packed symbols. -/
theorem State.wordAt_complete_pack {s : State} {n j : Nat} (h : s.tx.pending = none) (hcheck : checkPack s = .ok n)
    (hj : j < s.packedSymbols.length) :
    (s.acceptCommand 3#32).complete.wordAt .sym j = BitVec.ofNat 32 (s.packedSymbols.getD j 0) := by
  rw [State.wordAt_congr fun k _ => State.byteAt_complete_pack h hcheck .sym _,
    State.wordAt_writeWords (Nat.zero_le j) (by rw [List.length_map, Nat.zero_add]; exact hj)]
  exact List.getD_map _ 0 (BitVec.ofNat 32)

/-- Settles O13: one completion for each check of PACK in its order; the words the last one writes are the packed
symbols. -/
theorem packCompletes : Obligations.PackCompletes := by
  intro s h
  refine ⟨s.acceptCommand 3#32, 0#32, exec_pack s, by rw [State.acceptCommand_idle h], ?_⟩
  intro sb len r n
  have hcheck := checkPack_eq s
  split
  next hsb => exact State.complete_pack_error h (by rw [hcheck, if_pos hsb])
  next hsb =>
  split
  next hr => exact State.complete_pack_error h (by rw [hcheck, if_neg hsb, if_pos hr])
  next hr =>
  split
  next hlong => exact State.complete_pack_error h (by rw [hcheck, if_neg hsb, if_neg hr, if_pos hlong])
  next hlong =>
  split
  next hover => exact State.complete_pack_error h (by rw [hcheck, if_neg hsb, if_neg hr, if_neg hlong, if_pos hover])
  next hover =>
  have hok : checkPack s = .ok n := by rw [hcheck, if_neg hsb, if_neg hr, if_neg hlong, if_neg hover]
  have hsymbols : s.packedSymbols = packSymbols (s.readBytes .tx 0 len) sb.toNat r := by
    rw [State.packedSymbols, ← toNat_toInt_of_pos (not_not.1 hsb).1]
  have hlen : s.packedSymbols.length = n := by
    rw [hsymbols, packSymbols_length (by omega), ceilDiv_eq (by omega), State.readBytes, List.length_map,
      List.length_range]
  refine ⟨⟨_, State.complete_pack h hok⟩, fun j hj => ?_, fun b i hout => ?_⟩
  · rw [State.wordAt_complete_pack h hok (hlen ▸ hj), hsymbols]
  · rw [State.byteAt_complete_pack h hok]
    exact State.byteAt_writeBytes_outside (by rw [flatMap_leBytes_length, List.length_map, hlen]; exact hout)

/-! ### UNPACK (R102) -/

theorem exec_unpack (s : State) : exec .unpack s = .next (s.acceptCommand 4#32) := rfl

theorem checkUnpack_eq (s : State) :
    checkUnpack s =
      if ¬(1 ≤ s.tx.params.symbolBits.toInt ∧ s.tx.params.symbolBits.toInt ≤ 16) then .error .badSymbolBits
      else if 4096 < s.tx.params.payloadLen.toNat ∨ 262144 < s.tx.symCount.toNat then .error .badLength
      else .ok s.tx.params.payloadLen.toNat := by
  have hsb := @symbolBitsWithin_iff 16 s.tx.params.symbolBits
  unfold checkUnpack
  simp only [sbMaxTx_eq, Bool.not_eq_true', ← Bool.not_eq_true, hsb]
  rfl

/-- The bytes UNPACK writes. -/
def State.unpackedBytes (s : State) : List Byte :=
  unpackSymbols s.storedSymbols s.tx.params.symbolBits.toNat s.tx.params.payloadLen.toNat

/-- The unpacker's byte count is the number of bytes it has written, and never more than its target (R100). -/
theorem unpackSymbols_length (symbols : List Nat) (sb count : Nat) :
    ((Unpacker.fresh sb count).pushAll symbols).1.nout = (unpackSymbols symbols sb count).length
      ∧ (unpackSymbols symbols sb count).length ≤ count := by
  obtain ⟨-, -, hcount, hle, -⟩ :=
    Unpacker.pushAll_facts (Unpacker.fresh sb count) symbols (Nat.zero_lt_succ 7) (Nat.zero_le count)
  have hnout := hcount.trans (Nat.zero_add _)
  exact ⟨hnout, hnout.symm.trans_le hle⟩

theorem effectUnpack_of_ok {s : State} (h : checkUnpack s = .ok s.tx.params.payloadLen.toNat) :
    effectUnpack s = .ok { s.writeBytes .unp 0 s.unpackedBytes with
      tx := { s.tx with outLen := BitVec.ofNat 32 s.unpackedBytes.length, outChannels := 0#32 } } := by
  rw [effectUnpack, h, State.unpackedBytes, ← (unpackSymbols_length _ _ _).1]
  rfl

theorem effectUnpack_of_error {s : State} {e : ErrorCode} (h : checkUnpack s = .error e) :
    effectUnpack s = .error e := by
  rw [effectUnpack, h]

theorem checkUnpack_acceptCommand {s : State} (h : s.tx.pending = none) (w : Word) :
    checkUnpack (s.acceptCommand w) = checkUnpack s := by
  rw [State.acceptCommand_idle h]
  rfl

theorem State.complete_unpack_error {s : State} {e : ErrorCode} (h : s.tx.pending = none)
    (hcheck : checkUnpack s = .error e) :
    (s.acceptCommand 4#32).complete = (s.afterFailure 0x04#8 e.code).answered 0#32 :=
  State.complete_acceptCommand_error h (effectUnpack_of_error ((checkUnpack_acceptCommand h _).trans hcheck))

theorem State.complete_unpack {s : State} (h : s.tx.pending = none)
    (hcheck : checkUnpack s = .ok s.tx.params.payloadLen.toNat) :
    (s.acceptCommand 4#32).complete
      = (s.afterSuccess 0x04#8 { s.tx with outLen := BitVec.ofNat 32 s.unpackedBytes.length, outChannels := 0#32 }
          (s.writeBytes .unp 0 s.unpackedBytes).mem).answered 0#32 := by
  have hsame : checkUnpack (s.acceptCommand 4#32) = .ok (s.acceptCommand 4#32).tx.params.payloadLen.toNat := by
    rw [checkUnpack_acceptCommand h, hcheck, State.acceptCommand_idle h]
  have he : effect 4#32 (s.acceptCommand 4#32) = .ok _ := effectUnpack_of_ok hsame
  rw [State.complete_acceptCommand_ok h he, State.acceptCommand_idle h]
  rfl

theorem State.byteAt_complete_unpack {s : State} (h : s.tx.pending = none)
    (hcheck : checkUnpack s = .ok s.tx.params.payloadLen.toNat) (b : Buffer) (i : Nat) :
    (s.acceptCommand 4#32).complete.byteAt b i = (s.writeBytes .unp 0 s.unpackedBytes).byteAt b i := by
  rw [State.complete_unpack h hcheck]
  exact State.byteAt_congr rfl rfl b i

/-- UNPACK from its acceptance to its completion: one completion for each check in its order, and the bytes of the last
are the unpacked ones. -/
theorem unpack_completes {s : State} (h : s.tx.pending = none) :
    let sb := s.tx.params.symbolBits.toInt
    let count := s.tx.params.payloadLen.toNat
    let out := unpackSymbols ((s.readWords .sym 0 s.tx.symCount.toNat).map BitVec.toNat) sb.toNat count
    let t := s.acceptCommand 4#32
    if ¬(1 ≤ sb ∧ sb ≤ 16) then t.complete = (s.afterFailure 0x04#8 0x04#8).answered 0#32
    else if 4096 < count ∨ 262144 < s.tx.symCount.toNat then
      t.complete = (s.afterFailure 0x04#8 0x09#8).answered 0#32
    else
      (∃ m, t.complete = (s.afterSuccess 0x04#8
        { s.tx with outLen := BitVec.ofNat 32 out.length, outChannels := 0#32 } m).answered 0#32)
      ∧ (∀ j, j < out.length → t.complete.byteAt .unp j = out.getD j 0#8)
      ∧ out.length ≤ count
      ∧ KeepsBytesOutside s t.complete 0x0003000 out.length := by
  intro sb count out t
  have hcheck := checkUnpack_eq s
  split
  next hsb => exact State.complete_unpack_error h (by rw [hcheck, if_pos hsb])
  next hsb =>
  split
  next hlong => exact State.complete_unpack_error h (by rw [hcheck, if_neg hsb, if_pos hlong])
  next hlong =>
  have hok : checkUnpack s = .ok s.tx.params.payloadLen.toNat := by rw [hcheck, if_neg hsb, if_neg hlong]
  have hout : s.unpackedBytes = out := by
    rw [State.unpackedBytes, ← toNat_toInt_of_pos (not_not.1 hsb).1]
    rfl
  have hbyte := hout ▸ State.byteAt_complete_unpack h hok
  refine ⟨⟨_, hout ▸ State.complete_unpack h hok⟩, fun j hj => ?_, (unpackSymbols_length _ _ _).2,
    fun b i hrange => ?_⟩
  · rw [hbyte, State.byteAt_writeBytes (Nat.zero_le j) (by rw [Nat.zero_add]; exact hj), Nat.sub_zero]
  · rw [hbyte, State.byteAt_writeBytes_outside hrange]

/-! ### The unpacked bytes of any symbols (R99, R100) -/

theorem resolveSentinels_cons (prev : Option Nat) (y : Nat) (ys : List Nat) :
    resolveSentinels prev (y :: ys) = (if y = 0 then prev.getD 0 else y)
      :: resolveSentinels (some (if y = 0 then prev.getD 0 else y)) ys := by
  cases prev with
  | none =>
    have : (if y = 0 then 0 else y) = y := by split <;> simp_all
    simp [resolveSentinels, this]
  | some p => rfl

/-- A sentinel stands for the symbol resolved before it, every other symbol for itself. -/
theorem resolveSentinels_getD {prev : Option Nat} {ys : List Nat} {i : Nat} (hi : i < ys.length) :
    (resolveSentinels prev ys).getD i 0 =
      if ys.getD i 0 = 0 then (prev.getD 0 :: resolveSentinels prev ys).getD i 0 else ys.getD i 0 := by
  induction ys generalizing prev i with
  | nil => exact absurd hi (Nat.not_lt_zero i)
  | cons y ys ih =>
    rw [resolveSentinels_cons]
    cases i with
    | zero => rfl
    | succ i =>
      have hrec := ih (prev := some (if y = 0 then prev.getD 0 else y)) (Nat.lt_of_succ_lt_succ hi)
      simpa only [List.getD_cons_succ, Option.getD_some] using hrec

theorem resolvedBin_some (bin symbol : Nat) :
    resolvedBin (some bin) symbol = some (if symbol = 0 then bin else symbol) :=
  (apply_ite some _ _ _).symm

/-- Symbols after a symbol `raw` that has resolved to a bin: dropping raw duplicates and resolving sentinels in one pass
or in two is the same. -/
theorem resolveSentinels_destutter' (prev : Option Nat) (raw : Nat) (symbols : List Nat) :
    let bin := if raw = 0 then prev.getD 0 else raw
    resolveSentinels prev (symbols.destutter' (· ≠ ·) raw) = bin :: resolvedBins (some raw) (some bin) symbols := by
  intro bin
  induction symbols generalizing prev raw with
  | nil => rw [List.destutter'_nil, resolveSentinels_cons]; rfl
  | cons x xs ih =>
    by_cases hdup : raw = x
    · rw [List.destutter'_cons_neg _ (not_not.2 hdup), resolvedBins, if_pos (congrArg some hdup), ih]
    · rw [List.destutter'_cons_pos _ hdup, resolveSentinels_cons, ih, resolvedBins, if_neg (mt Option.some.inj hdup),
        resolvedBin_some]
      rfl

theorem head?_destutter' (raw : Nat) (symbols : List Nat) : (symbols.destutter' (· ≠ ·) raw).head? = some raw := by
  induction symbols with
  | nil => rfl
  | cons x xs ih =>
    by_cases hdup : raw = x
    · rw [List.destutter'_cons_neg _ (not_not.2 hdup), ih]
    · rw [List.destutter'_cons_pos _ hdup, List.head?_cons]

/-- A first symbol that is no sentinel resolves to itself. -/
theorem resolvedBins_data_cons {raw : Nat} (h : raw ≠ 0) (symbols : List Nat) :
    resolvedBins none none (raw :: symbols)
      = resolveSentinels none ((symbols.destutter' (· ≠ ·) raw).dropWhile (· == 0)) := by
  have hkeep : (symbols.destutter' (· ≠ ·) raw).dropWhile (· == 0) = symbols.destutter' (· ≠ ·) raw := by
    obtain ⟨ys, hys⟩ := List.head?_eq_some_iff.1 (head?_destutter' raw symbols)
    rw [hys, List.dropWhile_cons_of_neg (by simpa using h)]
  rw [hkeep, resolveSentinels_destutter', if_neg h, resolvedBins, if_neg (Option.some_ne_none raw).symm, resolvedBin,
    if_neg h]
  rfl

/-- A leading sentinel and its raw duplicates resolve to nothing. -/
theorem resolvedBins_sentinel_cons (symbols : List Nat) :
    resolvedBins none none (0 :: symbols)
      = resolveSentinels none ((symbols.destutter' (· ≠ ·) 0).dropWhile (· == 0)) := by
  induction symbols with
  | nil => rfl
  | cons x xs ih =>
    by_cases hx : x = 0
    · subst hx
      rw [List.destutter'_cons_neg _ (not_not.2 rfl), ← ih]
      rfl
    · rw [List.destutter'_cons_pos _ (Ne.symm hx), List.dropWhile_cons_of_pos (by rfl), ← resolvedBins_data_cons hx]
      simp [resolvedBins, resolvedBin, hx, Ne.symm hx]

/-- The bins an unpacker resolves its symbols to: the raw duplicates dropped, then a leading sentinel, and a sentinel
resolved to the symbol before it. -/
theorem resolvedBins_eq (symbols : List Nat) :
    resolvedBins none none symbols
      = resolveSentinels none ((symbols.destutter (· ≠ ·)).dropWhile (· == 0)) := by
  cases symbols with
  | nil => rfl
  | cons x xs =>
    rw [List.destutter_cons']
    by_cases hx : x = 0
    · rw [hx, resolvedBins_sentinel_cons]
    · rw [resolvedBins_data_cons hx]

/-- The unpacked bytes are the first whole bytes of the number the resolved bins spell. -/
theorem unpackSymbols_bytes (symbols : List Nat) (sb count : Nat) :
    unpackSymbols symbols sb count =
      (List.range (min count (sb * (resolvedBins none none symbols).length / 8))).map fun i => BitVec.ofNat 8
        ((resolvedBins none none symbols).foldl (fun n bin => 2 ^ sb * n + (bin - 1) % 2 ^ sb) 0
          / 2 ^ (sb * (resolvedBins none none symbols).length - 8 * (i + 1))) := by
  rcases Nat.eq_zero_or_pos count with rfl | hcount
  · rw [unpackSymbols_zero, Nat.zero_min]
    rfl
  · rw [unpackSymbols_eq symbols sb hcount, Unpacker.pushBits_eq_received _ _ (Nat.zero_lt_succ 7) hcount,
      flatMap_binBits_length, valueOf_flatMap_binBits, Nat.min_comm]
    simp [Unpacker.received, Unpacker.fresh]

/-- What a symbol that resolves to a bin does to an unpacker (R99). -/
theorem Unpacker.push_eq_received {u : Unpacker} {symbol bin : Nat} (hn : u.nacc < 8) (ho : u.nout < u.target)
    (hraw : u.prevRaw ≠ some symbol) (hbin : resolvedBin u.prevRes symbol = some bin) :
    u.push symbol = (u.seen symbol (some bin)).received (u.nacc + u.sb)
      (u.acc.toNat * 2 ^ u.sb + (bin - 1) % 2 ^ u.sb) := by
  rw [Unpacker.push_new ho hraw, hbin, Option.toList_some, List.flatMap_singleton,
    Unpacker.pushBits_eq_received (u.seen symbol (some bin)) _ hn ho, binBits_length, valueOf_binBits]
  rfl

theorem Unpacker.push_sentinel_unresolved {u : Unpacker} (ho : u.nout < u.target) (hraw : u.prevRaw ≠ some 0)
    (hres : u.prevRes = none) : u.push 0 = ({ u with prevRaw := some 0 }, []) := by
  have hbits : u.prevRes.toList.flatMap (binBits u.sb) = [] := by rw [hres]; rfl
  rw [Unpacker.push_new ho hraw, show resolvedBin u.prevRes 0 = u.prevRes from rfl, hbits]
  rfl

/-- Settles O14: the command's completions; the bytes of any symbols, from the number their resolved bins spell; and one
symbol, dropped, remembered or received. -/
theorem unpackCompletes : Obligations.UnpackCompletes := by
  refine ⟨fun s h =>
      ⟨s.acceptCommand 4#32, 0#32, exec_unpack s, by rw [State.acceptCommand_idle h], unpack_completes h⟩,
    fun symbols sb count => ?_, fun u symbol => ⟨?_, ?_, ?_⟩⟩
  · intro kept out
    have hbins : resolvedBins none none symbols = resolveSentinels none kept := resolvedBins_eq symbols
    have hlen : (resolvedBins none none symbols).length = kept.length := by rw [hbins, resolveSentinels_length]
    have hout := hlen ▸ unpackSymbols_bytes symbols sb count
    have hcount : out.length = min count (sb * kept.length / 8) := by
      rw [show out = _ from hout, List.length_map, List.length_range]
    refine ⟨resolvedBins none none symbols, hlen, fun i hi => ?_, hcount, fun i hi => ?_⟩
    · rw [hbins]
      cases i with
      | zero =>
        split
        · rfl
        · exact (resolveSentinels_getD hi).trans (if_neg ‹_›)
      | succ i => exact resolveSentinels_getD hi
    · rw [hcount] at hi
      rw [List.getD_eq_getElem?_getD, show out = _ from hout, List.getElem?_map, List.getElem?_range hi]
      rfl
  · rintro (hstop | hdup)
    · exact Unpacker.push_stopped hstop symbol
    · exact Unpacker.push_duplicate hdup
  · rintro ho hraw rfl hres
    exact Unpacker.push_sentinel_unresolved ho hraw hres
  · intro res ho hraw hn hcase
    have hbin : resolvedBin u.prevRes symbol = some res := by
      rcases hcase with ⟨rfl, hres⟩ | ⟨hdata, rfl⟩
      · exact hres
      · exact if_neg hdata
    rw [Unpacker.push_eq_received hn ho hraw hbin]
    exact ⟨rfl, rfl⟩

end Sys2Proof.Machine
end

