-- ==== Sys2Proof/Proofs/Synthesizer.lean ====
section
/-! The synthesizer (42_synthesizer.md): the rounding of a tuning word, the waveform of the Direct scheme, the lanes of the
lumps, and what SYNTH leaves when it completes. -/

namespace Sys2Proof.Machine

/-! ### Frequencies and tuning words (R106; 00_scope.md R11, R12; 30_encoding.md R76) -/

theorem finite_iff {x : Word} : finite x = true ↔ x.extractLsb' 23 8 ≠ 0xFF#8 := bne_iff_ne

/-- `RNE(n / d)` is a nearest integer, the even one on a tie: the remainder of `n / d` decides between the quotient and
its successor (R12). -/
theorem roundNearestEven_nearest (n : Int) {d : Nat} (hd : 1 ≤ d) :
    2 * (n - roundNearestEven n d * d).natAbs ≤ d
      ∧ (2 * (n - roundNearestEven n d * d).natAbs = d → roundNearestEven n d % 2 = 0) := by
  have hdiv : n / d * d + n % d = n := Int.ediv_mul_add_emod n d
  have hnonneg : 0 ≤ n % d := Int.emod_nonneg n (by omega)
  have hlt : n % d < d := Int.emod_lt_of_pos n (by omega)
  have hsucc : (n / d + 1) * d = n / d * d + d := add_one_mul _ _
  unfold roundNearestEven
  simp only
  split_ifs with hbelow habove heven
  · omega
  · rw [hsucc]; omega
  · omega
  · rw [hsucc]; omega

/-- The magnitude of a finite pattern, counted in units of 2^-149 (R11). -/
theorem magnitude_eq (e f : Nat) :
    (((if e = 0 then f else (2 ^ 23 + f) * 2 ^ (e - 1) : Nat) : Int) : ℚ)
      = (if e = 0 then (f : ℚ) / 2 ^ 23 / 2 ^ 126 else (1 + (f : ℚ) / 2 ^ 23) * 2 ^ e / 2 ^ 127) * 2 ^ 149 := by
  cases e with
  | zero => simp only [if_true]; push_cast; ring
  | succ e => simp only [Nat.succ_ne_zero, if_false, Nat.add_sub_cancel]; push_cast; ring

theorem scaled_eq_binary32Value (x : Word) : (scaled x : ℚ) = binary32Value x * 2 ^ 149 := by
  have hmagnitude := magnitude_eq (x.extractLsb' 23 8).toNat (x.extractLsb' 0 23).toNat
  unfold scaled binary32Value
  simp only
  split
  · rw [Int.cast_neg, hmagnitude, neg_mul]
  · exact hmagnitude

theorem frequency_eq_binary32Value (g : Grid) (k : Nat) :
    (frequency g k : ℚ) = (binary32Value g.base + k * binary32Value g.step) * 2 ^ 149 := by
  rw [frequency, Int.cast_add, Int.cast_mul, Int.cast_natCast, scaled_eq_binary32Value, scaled_eq_binary32Value]
  ring

/-- Settles O22: the witness is the rounded quotient itself. -/
theorem tuningWordRoundsToNearestEven : Obligations.TuningWordRoundsToNearestEven := by
  refine ⟨fun g k fs hfs => ?_, fun _ => finite_iff, fun x _ => scaled_eq_binary32Value x,
    fun g k _ _ => frequency_eq_binary32Value g k⟩
  have hnearest := roundNearestEven_nearest (frequency g k * 2 ^ 32)
    (d := unitsPerHz * fs) (Nat.mul_pos (Nat.two_pow_pos 149) hfs)
  have hunit : ((unitsPerHz * fs : Nat) : Int) = 2 ^ 149 * fs := by rw [unitsPerHz]; push_cast; rfl
  rw [hunit] at hnearest
  exact ⟨_, rfl, hnearest⟩

/-! ### The lumps (R113) -/

theorem lumpsOf_length {n : Nat} (h : 1 ≤ n) (symbols : List Nat) :
    (lumpsOf n symbols).length = (symbols.length + (n - 1)) / n := by
  rw [lumpsOf, List.length_map, groupsOf_length, ceilDiv_eq h]

/-- The lanes of lump `j`: `n` elements of the resolved stream, and 1 beyond its end. -/
def lanesAt (n : Nat) (resolved : List Nat) (j : Nat) : List Nat :=
  let lanes := (resolved.drop (j * n)).take n
  lanes ++ List.replicate (n - lanes.length) 1

theorem lumpsOf_getElem? {n j : Nat} (h : 1 ≤ n) {symbols : List Nat} (hj : j < (symbols.length + (n - 1)) / n) :
    (lumpsOf n symbols)[j]? = some (lanesAt n (resolveSentinels none symbols) j) := by
  rw [lumpsOf, List.getElem?_map, groupsOf_getElem? _ _ _ (by rwa [ceilDiv_eq h])]
  rfl

theorem lanesAt_length (n : Nat) (resolved : List Nat) (j : Nat) : (lanesAt n resolved j).length = n := by
  simp [lanesAt]

theorem lanesAt_getD {n c : Nat} (hc : c < n) (resolved : List Nat) (j : Nat) :
    (lanesAt n resolved j).getD c 0 = if j * n + c < resolved.length then resolved.getD (j * n + c) 0 else 1 := by
  unfold lanesAt
  simp only [List.getD_eq_getElem?_getD]
  split
  next hin =>
    rw [List.getElem?_append_left (by simp; omega), List.getElem?_take_of_lt hc, List.getElem?_drop]
  next hout =>
    rw [List.getElem?_append_right (by simp; omega), List.getElem?_replicate_of_lt (by simp; omega), Option.getD_some]

/-- Settles O26: the resolved stream is that of the scheme, and the lumps are its groups, filled up with 1. -/
theorem lumpLanes : Obligations.LumpLanes := by
  intro n symbols hn
  refine ⟨resolveSentinels none symbols, resolveSentinels_length none symbols, fun i hi => ?_, lumpsOf_length hn symbols,
    fun j hj => ⟨_, lumpsOf_getElem? hn hj, lanesAt_length _ _ _, fun c hc => ?_⟩⟩
  · rw [resolveSentinels_getD hi]
    cases i with
    | zero =>
      split
      next hzero => exact hzero.symm.trans (if_neg fun ⟨_, hpos⟩ => Nat.not_succ_le_zero 0 hpos).symm
      next hdata => exact (if_neg fun ⟨hzero, _⟩ => hdata hzero).symm
    | succ i => simp
  · rw [lanesAt_getD hc, resolveSentinels_length]

/-! ### The Direct scheme (R112) -/

theorem directScore_cons (g : Grid) (fs k : Nat) (ks : List Nat) :
    directScore g fs (k :: ks) = [(0, tuningWord g k fs)] :: directScore g fs ks := rfl

theorem playScore_singleton_cons (o : Oscillators) (tone : Fin 8 × Word) (rest : List Tones) :
    playScore o ([tone] :: rest) = ((playScore (o.tone tone) rest).1, (o.tone tone).hold :: (playScore (o.tone tone) rest).2) :=
  rfl

/-- The Direct scheme advances the phase of channel 0 by each symbol's tuning word (R107). -/
theorem playScore_directScore_phase (o : Oscillators) (g : Grid) (fs : Nat) (symbols : List Nat) :
    (playScore o (directScore g fs symbols)).1.phase[(0 : Fin 8)]
      = o.phase[(0 : Fin 8)] + (symbols.map fun k => tuningWord g k fs).sum := by
  induction symbols generalizing o with
  | nil => exact (BitVec.add_zero _).symm
  | cons k ks ih =>
    rw [directScore_cons, playScore_singleton_cons, ih, Oscillators.tone_phase, if_pos rfl, List.map_cons, List.sum_cons,
      BitVec.add_assoc]

/-- Played from any oscillators, sample `j` of channel 0 is taken at the phase after `j + 1` symbols, and every other
channel keeps the hold value it started with (R107, R109). -/
theorem playScore_directScore_frame (o : Oscillators) (g : Grid) (fs : Nat) {symbols : List Nat} {j : Nat}
    (hj : j < symbols.length) :
    ∃ frame, (playScore o (directScore g fs symbols)).2[j]? = some frame
      ∧ frame[(0 : Fin 8)]
        = sine (o.phase[(0 : Fin 8)] + ((symbols.take (j + 1)).map fun k => tuningWord g k fs).sum)
      ∧ ∀ c : Fin 8, c ≠ 0 → frame[c] = o.hold[c] := by
  induction symbols generalizing o j with
  | nil => exact absurd hj (Nat.not_lt_zero j)
  | cons k ks ih =>
    have hsilent : ∀ c : Fin 8, c ≠ 0 → (o.tone (0, tuningWord g k fs)).hold[c] = o.hold[c] := fun c hc => by
      rw [Oscillators.tone_hold, if_neg hc]
    rw [directScore_cons, playScore_singleton_cons]
    cases j with
    | zero =>
      refine ⟨_, rfl, ?_, hsilent⟩
      rw [Oscillators.tone_hold, if_pos rfl]
      simp
    | succ j =>
      obtain ⟨frame, hget, hsine, hhold⟩ := ih (o.tone (0, tuningWord g k fs)) (Nat.lt_of_succ_lt_succ hj)
      refine ⟨frame, hget, ?_, fun c hc => (hhold c hc).trans (hsilent c hc)⟩
      rw [hsine, Oscillators.tone_phase, if_pos rfl, List.take_succ_cons, List.map_cons, List.sum_cons, BitVec.add_assoc]

theorem Oscillators.atStart_phase (c : Fin 8) : Oscillators.atStart.phase[c] = 0#32 := Vector.getElem_replicate _

theorem Oscillators.atStart_hold (c : Fin 8) : Oscillators.atStart.hold[c] = 0#32 := Vector.getElem_replicate _

/-- Settles O25: the scheme played from phases and holds of 0. -/
theorem directWaveform : Obligations.DirectWaveform := by
  intro g fs symbols played phaseAfter
  refine ⟨(playScore_length _ _).trans (directScore_length g fs symbols), ?_, fun j hj => ?_⟩
  · rw [playScore_directScore_phase, Oscillators.atStart_phase, BitVec.zero_add]
    simp only [phaseAfter, List.take_length]
  · obtain ⟨frame, hget, hsine, hhold⟩ := playScore_directScore_frame Oscillators.atStart g fs hj
    rw [Oscillators.atStart_phase, BitVec.zero_add] at hsine
    exact ⟨frame, hget, hsine, fun c hc => (hhold c hc).trans (Oscillators.atStart_hold c)⟩

/-! ### A waveform command from its acceptance to its completion (R105, R110, R116; 43_frame_assembler.md R120) -/

/-- A chain of checks, and what follows from each of its answers. -/
theorem ite_of_check {α : Type} {c P Q : Prop} [Decidable c] {check rest : Except ErrorCode α} {e : ErrorCode}
    (hcheck : check = if c then .error e else rest) (herror : check = .error e → P) (hpass : ¬c → check = rest → Q) :
    if c then P else Q := by
  split
  next hc => exact herror (by rw [hcheck, if_pos hc])
  next hc => exact hpass hc (by rw [hcheck, if_neg hc])

theorem WaveShape.channelList_nodup (shape : WaveShape) : shape.channelList.Nodup := (List.nodup_finRange 8).filter _

/-- The TX engine with the registers a waveform leaves. -/
def TxEngine.played (tx : TxEngine) (shape : WaveShape) (score : List Tones) : TxEngine :=
  { tx with
    phase := (playScore Oscillators.atStart score).1.phase, hold := (playScore Oscillators.atStart score).1.hold
    outLen := BitVec.ofNat 32 shape.instants, outChannels := BitVec.ofNat 32 shape.channels }

section
variable {s : State} {w : Word} {shape : WaveShape} {score : List Tones} (h : s.tx.pending = none)
  (he : effect w (s.acceptCommand w) = .ok ((s.acceptCommand w).playWaveform shape score))
include h he

theorem State.complete_waveform :
    (s.acceptCommand w).complete = (s.afterSuccess (w.setWidth 8) (s.tx.played shape score)
      ((s.acceptCommand w).writeSamples (playScore Oscillators.atStart score).2 shape.channelList).mem).answered 0#32 := by
  rw [State.complete_acceptCommand_ok h he, State.playWaveform_tx, State.playWaveform_mem, State.acceptCommand_idle h]
  rfl

/-- The completed command has written the samples and no other byte. -/
theorem State.byteAt_complete_waveform (b : Buffer) (i : Nat) :
    (s.acceptCommand w).complete.byteAt b i
      = ((s.acceptCommand w).writeSamples (playScore Oscillators.atStart score).2 shape.channelList).byteAt b i := by
  rw [State.complete_waveform h he]
  refine State.byteAt_congr ?_ ?_ b i
  · rfl
  · rw [State.writeSamples_bufferDraw, State.acceptCommand_idle h]
    rfl

theorem State.wordAt_complete_waveform (hlen : score.length = shape.instants) (hfits : shape.instants ≤ 262144)
    {c : Fin 8} (hc : c.val < shape.channels) {j : Nat} (hj : j < shape.instants) :
    (s.acceptCommand w).complete.wordAt (.samp c) j
      = ((playScore Oscillators.atStart score).2.getD j (Vector.replicate 8 0#32))[c] := by
  have hframes : (playScore Oscillators.atStart score).2.length = shape.instants := by rw [playScore_length, hlen]
  rw [State.wordAt_congr fun k _ => State.byteAt_complete_waveform h he (.samp c) _,
    State.writeSamples_wordAt _ _ _ (by rw [hframes]; exact hfits) (WaveShape.mem_channelList.2 hc)
      shape.channelList_nodup (by rw [hframes]; exact hj), List.getD_eq_getElem]

theorem State.keepsBytes_complete_waveform (hlen : score.length = shape.instants) :
    KeepsBytesOutsideAll s (s.acceptCommand w).complete
      ((List.range shape.channels).map fun c => (0x1000000 + c * 0x100000, 4 * shape.instants)) := by
  intro b i hout
  have hframes : (playScore Oscillators.atStart score).2.length = shape.instants := by rw [playScore_length, hlen]
  rw [State.byteAt_complete_waveform h he, State.writeSamples_byteAt_outside]
  · rw [State.acceptCommand_idle h]
    exact State.byteAt_congr rfl rfl b i
  · intro c hc
    rw [hframes]
    exact hout _ (List.mem_map.2 ⟨c.val, List.mem_range.2 (WaveShape.mem_channelList.1 hc), rfl⟩)

end

/-! ### SYNTH (R116) -/

theorem exec_synth (s : State) : exec .synth s = .next (s.acceptCommand 5#32) := rfl

theorem stepLegal_iff {x : Word} : stepLegal x = true ↔ ¬(finite x = false ∨ scaled x ≤ 0) := by
  simp [stepLegal]

/-- The shape of SYNTH's waveform: channel 0 and an instant for each symbol, or the lanes and `r` instants for each lump
(R112, R115, R116). -/
def State.synthShape (s : State) : WaveShape :=
  let n := s.tx.params.symbolBits.toInt.toNat
  let count := s.tx.symCount.toNat
  if s.tx.params.modulation.toInt = 0 then ⟨1, count⟩ else ⟨n, (count + (n - 1)) / n * s.tx.replication.toNat⟩

/-- The checks of SYNTH in order. -/
theorem checkSynth_eq (s : State) :
    let mod := s.tx.params.modulation.toInt
    let n := s.tx.params.symbolBits.toInt
    let count := s.tx.symCount.toNat
    checkSynth s =
      if ¬(0 ≤ mod ∧ mod ≤ 2) then .error .badModulation
      else if mod = 2 then .error .unsupportedModulation
      else if mod = 1 ∧ ¬(1 ≤ n ∧ n ≤ 8) then .error .badSymbolBits
      else if finite s.tx.params.baseFreq = false then .error .badBaseFreq
      else if finite s.tx.params.step = false ∨ scaled s.tx.params.step ≤ 0 then .error .badStep
      else if mod = 1 ∧ s.tx.replication.toNat = 0 then .error .badReplication
      else if s.tx.sampleRate.toNat = 0 then .error .badSampleRate
      else if 262144 < count then .error .badLength
      else if 262144 < s.synthShape.instants then .error .overflow
      else .ok s.synthShape := by
  intro mod n count
  have hbits : ((!symbolBitsWithin 8 s.tx.params.symbolBits) = true) = ¬(1 ≤ n ∧ n ≤ 8) := by
    rw [Bool.not_eq_true', ← Bool.not_eq_true, symbolBitsWithin_iff]; rfl
  have hstep : ((!stepLegal s.tx.params.step) = true)
      = (finite s.tx.params.step = false ∨ scaled s.tx.params.step ≤ 0) := by
    rw [Bool.not_eq_true', ← Bool.not_eq_true, stepLegal_iff, not_not]
  unfold checkSynth
  simp only [chMax_eq, symWords_eq, hbits, hstep, Bool.not_eq_true']
  refine if_ctx_congr Iff.rfl (fun _ => rfl) fun hmod => if_ctx_congr Iff.rfl (fun _ => rfl) fun htwo =>
    if_ctx_congr Iff.rfl (fun _ => rfl) fun hsb => ?_
  have hshape : (if mod = 0 then ⟨1, count⟩ else
      ⟨s.tx.params.symbolBits.toNat, ceilDiv count s.tx.params.symbolBits.toNat * s.tx.replication.toNat⟩ : WaveShape)
      = s.synthShape := by
    unfold State.synthShape
    refine if_ctx_congr Iff.rfl (fun _ => rfl) fun hzero => ?_
    have hn : 1 ≤ n := by omega
    rw [← toNat_toInt_of_pos hn, ceilDiv_eq (by omega)]
  rw [hshape]

theorem effectSynth_of_ok {s : State} {shape : WaveShape} (h : checkSynth s = .ok shape) :
    effectSynth s = .ok (s.playWaveform shape s.synthScore) := by
  rw [effectSynth, h]

theorem effectSynth_of_error {s : State} {e : ErrorCode} (h : checkSynth s = .error e) : effectSynth s = .error e := by
  rw [effectSynth, h]

theorem checkSynth_acceptCommand {s : State} (h : s.tx.pending = none) (w : Word) :
    checkSynth (s.acceptCommand w) = checkSynth s := by
  rw [State.acceptCommand_idle h]
  rfl

theorem State.synthScore_acceptCommand {s : State} (h : s.tx.pending = none) (w : Word) :
    (s.acceptCommand w).synthScore = s.synthScore := by
  rw [State.acceptCommand_idle h]
  rfl

theorem State.complete_synth_error {s : State} {e : ErrorCode} (h : s.tx.pending = none)
    (hcheck : checkSynth s = .error e) :
    (s.acceptCommand 5#32).complete = (s.afterFailure 0x05#8 e.code).answered 0#32 :=
  State.complete_acceptCommand_error h (effectSynth_of_error ((checkSynth_acceptCommand h _).trans hcheck))

/-- SYNTH accepted when idle is a waveform command, played by the score of the state before. -/
theorem effect_synth_acceptCommand {s : State} {shape : WaveShape} (h : s.tx.pending = none)
    (hcheck : checkSynth s = .ok shape) :
    effect 5#32 (s.acceptCommand 5#32) = .ok ((s.acceptCommand 5#32).playWaveform shape s.synthScore) := by
  have he := effectSynth_of_ok ((checkSynth_acceptCommand h 5#32).trans hcheck)
  rwa [State.synthScore_acceptCommand h] at he

@[simp] theorem State.storedSymbols_length (s : State) : s.storedSymbols.length = s.tx.symCount.toNat := by
  simp [State.storedSymbols, State.readWords]

theorem bitParallelScore_length {n : Nat} (h : 1 ≤ n) (g : Grid) (fs r : Nat) (symbols : List Nat) :
    (bitParallelScore g fs n r symbols).length = (symbols.length + (n - 1)) / n * r := by
  rw [bitParallelScore, flatMap_replicate_length, classifyLumps_length, lumpsOf_length h]

/-- The score SYNTH plays, with symbolBits read as a signed number. -/
theorem State.synthScore_eq {s : State}
    (h : s.tx.params.modulation.toInt = 0 ∨ 1 ≤ s.tx.params.symbolBits.toInt) :
    s.synthScore =
      if s.tx.params.modulation.toInt = 0 then directScore s.txGrid s.tx.sampleRate.toNat s.storedSymbols
      else bitParallelScore s.txGrid s.tx.sampleRate.toNat s.tx.params.symbolBits.toInt.toNat
        s.tx.replication.toNat s.storedSymbols := by
  refine if_ctx_congr Iff.rfl (fun _ => rfl) fun hzero => ?_
  rw [toNat_toInt_of_pos (h.resolve_left hzero)]

/-- The score has one set of tones for each instant of the shape. -/
theorem State.synthScore_length {s : State}
    (h : s.tx.params.modulation.toInt = 0 ∨ 1 ≤ s.tx.params.symbolBits.toInt) :
    s.synthScore.length = s.synthShape.instants := by
  rw [State.synthScore_eq h, State.synthShape]
  split
  next => rw [directScore_length, State.storedSymbols_length]
  next hzero =>
    have hn := h.resolve_left hzero
    rw [bitParallelScore_length (by omega), State.storedSymbols_length]

/-- Settles O15: one completion for each check of SYNTH in its order; the last is that of a waveform command. -/
theorem synthCompletes : Obligations.SynthCompletes := by
  intro s h
  refine ⟨s.acceptCommand 5#32, 0#32, exec_synth s, by rw [State.acceptCommand_idle h], ?_⟩
  intro mod n r fs count g symbols nch instants score played
  have hshape : s.synthShape = ⟨nch, instants⟩ := by unfold State.synthShape; simp only [nch, instants]; split <;> rfl
  have hcheck := checkSynth_eq s
  rw [hshape] at hcheck
  have hfail : ∀ {e}, checkSynth s = .error e → _ := State.complete_synth_error h
  refine ite_of_check hcheck hfail fun hmod hcheck => ?_
  refine ite_of_check hcheck hfail fun htwo hcheck => ?_
  refine ite_of_check hcheck hfail fun hsb hcheck => ?_
  refine ite_of_check hcheck hfail fun _ hcheck => ?_
  refine ite_of_check hcheck hfail fun _ hcheck => ?_
  refine ite_of_check hcheck hfail fun _ hcheck => ?_
  refine ite_of_check hcheck hfail fun _ hcheck => ?_
  refine ite_of_check hcheck hfail fun _ hcheck => ?_
  refine ite_of_check hcheck hfail fun hover hcheck => ?_
  have hscheme : mod = 0 ∨ 1 ≤ n := by omega
  have hscore : s.synthScore = score := State.synthScore_eq hscheme
  have hlen : score.length = instants := by rw [← hscore, State.synthScore_length hscheme, hshape]
  have he := hscore ▸ effect_synth_acceptCommand h hcheck
  exact ⟨⟨_, State.complete_waveform h he⟩,
    fun c j hc hj => State.wordAt_complete_waveform h he hlen (not_lt.1 hover) hc hj,
    State.keepsBytes_complete_waveform h he hlen⟩

end Sys2Proof.Machine
end

