-- ==== Sys2Proof/Proofs/FrameAssembler.lean ====
section
/-! The frame assembler (43_frame_assembler.md): the segments of a frame with their lengths, and what BUILD_FRAME leaves
when it completes. -/

namespace Sys2Proof.Machine

/-! ### The segments of a frame (R117, R118) -/

@[simp] theorem State.readBytes_length (s : State) (b : Buffer) (i n : Nat) : (s.readBytes b i n).length = n := by
  simp [State.readBytes]

theorem preambleSymbols_eq (r : Nat) : preambleSymbols r = [0, 2, 1, 2, 0, 2].flatMap (List.replicate r) := rfl

@[simp] theorem preambleSymbols_length (r : Nat) : (preambleSymbols r).length = 6 * r :=
  flatMap_replicate_length r _ _

@[simp] theorem headerSymbols_length (p : Params) (r : Nat) : (packSymbols (headerBytes p) 1 r).length = 160 * r := by
  rw [packSymbols_length le_rfl, headerBytes_length]
  rfl

/-- The shape of a frame: one channel, or one for each lane, and `172r` instants next to those of the payload (R118). -/
def State.frameShape (s : State) : WaveShape :=
  let sb := s.tx.params.symbolBits.toInt.toNat
  let r := s.tx.replication.toNat
  ⟨if s.tx.params.modulation.toInt = 0 then 1 else sb,
    172 * r + (8 * s.tx.params.payloadLen.toNat + (sb - 1)) / sb * r⟩

section
variable {s : State} (h : 1 ≤ s.tx.params.symbolBits.toInt)
include h

/-- The payload segment, with symbolBits read as a signed number. -/
theorem State.payloadScore_eq :
    let sb := s.tx.params.symbolBits.toInt.toNat
    let r := s.tx.replication.toNat
    let bytes := s.readBytes .tx 0 s.tx.params.payloadLen.toNat
    s.payloadScore =
      if s.tx.params.modulation.toInt = 0 then directScore s.txGrid s.tx.sampleRate.toNat (packSymbols bytes sb r)
      else bitParallelScore s.txGrid s.tx.sampleRate.toNat sb r (packSymbols bytes 1 1) := by
  intro sb r bytes
  rw [State.payloadScore, ← toNat_toInt_of_pos h]

/-- Both schemes give the payload as many instants: a replicated symbol or lump for each `symbolBits` bits. -/
theorem State.payloadScore_length :
    let sb := s.tx.params.symbolBits.toInt.toNat
    s.payloadScore.length = (8 * s.tx.params.payloadLen.toNat + (sb - 1)) / sb * s.tx.replication.toNat := by
  intro sb
  have hsb : 1 ≤ sb := by omega
  rw [State.payloadScore_eq h]
  split
  next => rw [directScore_length, packSymbols_length hsb, State.readBytes_length, ceilDiv_eq hsb]
  next =>
    rw [bitParallelScore_length hsb, packSymbols_length le_rfl, State.readBytes_length, ceilDiv_eq le_rfl, Nat.div_one,
      Nat.sub_self, Nat.add_zero, Nat.mul_one]

/-- A positive symbolBits reads the same unsigned: the shape as the command's checks write it. -/
theorem State.frameShape_eq :
    s.frameShape = ⟨if s.tx.params.modulation.toInt = 0 then 1 else s.tx.params.symbolBits.toNat,
      172 * s.tx.replication.toNat
        + ceilDiv (8 * s.tx.params.payloadLen.toNat) s.tx.params.symbolBits.toNat * s.tx.replication.toNat⟩ := by
  rw [State.frameShape, ← toNat_toInt_of_pos h, ceilDiv_eq (by omega)]

/-- The four segments have one set of tones for each instant of the shape. -/
theorem State.frameScore_length : s.frameScore.length = s.frameShape.instants := by
  simp only [State.frameScore, List.length_append, directScore_length, preambleSymbols_length, headerSymbols_length,
    State.payloadScore_length h, State.frameShape]
  omega

end

/-! ### BUILD_FRAME (R120) -/

theorem exec_buildFrame (s : State) : exec .buildFrame s = .next (s.acceptCommand 6#32) := rfl

/-- The checks of BUILD_FRAME in order. -/
theorem checkBuildFrame_eq (s : State) :
    let mod := s.tx.params.modulation.toInt
    let sb := s.tx.params.symbolBits.toInt
    checkBuildFrame s =
      if ¬(0 ≤ mod ∧ mod ≤ 2) then .error .badModulation
      else if mod = 2 then .error .unsupportedModulation
      else if ¬(1 ≤ sb ∧ sb ≤ if mod = 0 then 16 else 8) then .error .badSymbolBits
      else if finite s.tx.params.baseFreq = false then .error .badBaseFreq
      else if finite s.tx.params.step = false ∨ scaled s.tx.params.step ≤ 0 then .error .badStep
      else if s.tx.replication.toNat = 0 then .error .badReplication
      else if s.tx.sampleRate.toNat = 0 then .error .badSampleRate
      else if 4096 < s.tx.params.payloadLen.toNat then .error .badLength
      else if 262144 < s.frameShape.instants then .error .overflow
      else .ok s.frameShape := by
  intro mod sb
  have hbits : (!symbolBitsWithin (if mod = 0 then 16 else 8) s.tx.params.symbolBits) = true
      ↔ ¬(1 ≤ sb ∧ sb ≤ if mod = 0 then 16 else 8) := by
    rw [Bool.not_eq_true', ← Bool.not_eq_true, symbolBitsWithin_iff, Nat.cast_ite]; rfl
  have hstep : (!stepLegal s.tx.params.step) = true
      ↔ finite s.tx.params.step = false ∨ scaled s.tx.params.step ≤ 0 := by
    rw [Bool.not_eq_true', ← Bool.not_eq_true, stepLegal_iff, not_not]
  unfold checkBuildFrame
  simp only [chMax_eq, sbMaxTx_eq, txBytes_eq, sampWords_eq]
  refine if_ctx_congr Iff.rfl (fun _ => rfl) fun _ => if_ctx_congr Iff.rfl (fun _ => rfl) fun _ =>
    if_ctx_congr hbits (fun _ => rfl) fun hsb => ?_
  rw [State.frameShape_eq (not_not.1 hsb).1]
  exact if_congr (by rw [Bool.not_eq_true']) rfl (if_congr hstep rfl rfl)

theorem effectBuildFrame_of_ok {s : State} {shape : WaveShape} (h : checkBuildFrame s = .ok shape) :
    effectBuildFrame s = .ok (s.playWaveform shape s.frameScore) := by
  rw [effectBuildFrame, h]

theorem effectBuildFrame_of_error {s : State} {e : ErrorCode} (h : checkBuildFrame s = .error e) :
    effectBuildFrame s = .error e := by
  rw [effectBuildFrame, h]

theorem checkBuildFrame_acceptCommand {s : State} (h : s.tx.pending = none) (w : Word) :
    checkBuildFrame (s.acceptCommand w) = checkBuildFrame s := by
  rw [State.acceptCommand_idle h]
  rfl

theorem State.frameScore_acceptCommand {s : State} (h : s.tx.pending = none) (w : Word) :
    (s.acceptCommand w).frameScore = s.frameScore := by
  rw [State.acceptCommand_idle h]
  rfl

theorem State.complete_buildFrame_error {s : State} {e : ErrorCode} (h : s.tx.pending = none)
    (hcheck : checkBuildFrame s = .error e) :
    (s.acceptCommand 6#32).complete = (s.afterFailure 0x06#8 e.code).answered 0#32 :=
  State.complete_acceptCommand_error h (effectBuildFrame_of_error ((checkBuildFrame_acceptCommand h _).trans hcheck))

/-- BUILD_FRAME accepted when idle is a waveform command, played by the score of the state before. -/
theorem effect_buildFrame_acceptCommand {s : State} {shape : WaveShape} (h : s.tx.pending = none)
    (hcheck : checkBuildFrame s = .ok shape) :
    effect 6#32 (s.acceptCommand 6#32) = .ok ((s.acceptCommand 6#32).playWaveform shape s.frameScore) := by
  have he := effectBuildFrame_of_ok ((checkBuildFrame_acceptCommand h 6#32).trans hcheck)
  rwa [State.frameScore_acceptCommand h] at he

/-- Settles O16: one completion for each check of BUILD_FRAME in its order; the last is that of a waveform command. -/
theorem buildFrameCompletes : Obligations.BuildFrameCompletes := by
  intro s h
  refine ⟨s.acceptCommand 6#32, 0#32, exec_buildFrame s, by rw [State.acceptCommand_idle h], ?_⟩
  intro p mod sb r fs len g baseGrid bytes nch instants pattern payload score played
  have hcheck := checkBuildFrame_eq s
  have hfail : ∀ {e}, checkBuildFrame s = .error e → _ := State.complete_buildFrame_error h
  refine ite_of_check hcheck hfail fun _ hcheck => ?_
  refine ite_of_check hcheck hfail fun _ hcheck => ?_
  refine ite_of_check hcheck hfail fun hsb hcheck => ?_
  refine ite_of_check hcheck hfail fun _ hcheck => ?_
  refine ite_of_check hcheck hfail fun _ hcheck => ?_
  refine ite_of_check hcheck hfail fun _ hcheck => ?_
  refine ite_of_check hcheck hfail fun _ hcheck => ?_
  refine ite_of_check hcheck hfail fun _ hcheck => ?_
  refine ite_of_check hcheck hfail fun hover hcheck => ?_
  have hpos : 1 ≤ sb := (not_not.1 hsb).1
  have hpayload : s.payloadScore = payload := State.payloadScore_eq hpos
  have hscore : s.frameScore = score := by rw [State.frameScore, hpayload, preambleSymbols_eq]; rfl
  have hlen : score.length = instants := hscore ▸ State.frameScore_length hpos
  have he := hscore ▸ effect_buildFrame_acceptCommand h hcheck
  exact ⟨⟨_, State.complete_waveform h he⟩,
    fun c j hc hj => State.wordAt_complete_waveform h he hlen (not_lt.1 hover) hc hj,
    State.keepsBytes_complete_waveform h he hlen⟩

end Sys2Proof.Machine
end

