-- ==== Sys2Proof/Proofs/Receiver.lean ====
section
/-! The receiver (44_receiver.md): the slot codes of single bins, the duplicate filter on one grid, how Locate finds the
pattern, and the receiver reset. -/

namespace Sys2Proof.Machine

/-! ### Slot codes (R123; 30_encoding.md R79) -/

theorem getLsbD_slotCode (k i : Fin 32) : (slotCode k.val).getLsbD i.val = decide (i = k) := by
  rw [slotCode, BitVec.getLsbD_ofNat, Nat.testBit_two_pow]
  simp [i.isLt, Fin.ext_iff, eq_comm]

/-- A slot has one candidate exactly when it is that bin's code. -/
theorem single_eq_some_iff {code : Word} {k : Fin 32} : single code = some k ↔ code = slotCode k.val := by
  constructor
  · intro h
    have hfilter : (List.finRange 32).filter (fun i => code.getLsbD i.val) = [k] := by
      unfold single at h
      split at h
      · next hone => rwa [Option.some.inj h] at hone
      · cases h
    refine BitVec.eq_of_getLsbD_eq fun i hi => ?_
    have hmem : (⟨i, hi⟩ : Fin 32) ∈ (List.finRange 32).filter (fun i => code.getLsbD i.val) ↔ ⟨i, hi⟩ = k := by
      rw [hfilter, List.mem_singleton]
    rw [List.mem_filter] at hmem
    rw [getLsbD_slotCode k ⟨i, hi⟩, Bool.eq_iff_iff, decide_eq_true_iff, ← hmem]
    exact ⟨fun h => ⟨List.mem_finRange _, h⟩, And.right⟩
  · rintro rfl
    have hfilter : (List.finRange 32).filter (fun i => (slotCode k.val).getLsbD i.val) = [k] := by
      simp only [getLsbD_slotCode]
      revert k
      decide
    rw [single, hfilter]

/-! ### The duplicate filter on one grid (R122) -/

theorem mem_activeFrequencies {slot : SlotMemory} {f : Int} :
    f ∈ activeFrequencies slot ↔ ∃ k, k < 32 ∧ slot.code.getLsbD k = true ∧ frequency slot.grid k = f := by
  simp [activeFrequencies, and_assoc]

theorem frequency_injective {g : Grid} (h : stepLegal g.step = true) : Function.Injective (frequency g) := by
  intro i j hij
  obtain ⟨-, hpos⟩ := (Bool.and_eq_true _ _).mp h
  have hne : scaled g.step ≠ 0 := (of_decide_eq_true hpos).ne'
  exact Int.ofNat_inj.1 (mul_right_cancel₀ hne (add_left_cancel hij))

theorem sameFrequencies_iff {a b : SlotMemory} :
    sameFrequencies a b = true ↔ ∀ f, f ∈ activeFrequencies a ↔ f ∈ activeFrequencies b := by
  simp only [sameFrequencies, Bool.and_eq_true, List.all_eq_true, List.contains_iff_mem]
  exact ⟨fun ⟨hab, hba⟩ f => ⟨hab f, hba f⟩, fun h => ⟨fun f => (h f).1, fun f => (h f).2⟩⟩

/-- On one grid with a legal step, an active bin is told by its frequency. -/
theorem frequency_mem_activeFrequencies {g : Grid} (h : stepLegal g.step = true) (code : Word) {k : Nat} (hk : k < 32) :
    frequency g k ∈ activeFrequencies ⟨code, g⟩ ↔ code.getLsbD k = true := by
  rw [mem_activeFrequencies]
  constructor
  · rintro ⟨i, -, hbit, hfreq⟩
    rwa [← frequency_injective h hfreq]
  · exact fun hbit => ⟨k, hk, hbit, rfl⟩

/-- On one grid with a legal step, the filter compares codes. -/
theorem sameFrequencies_same_grid {g : Grid} (h : stepLegal g.step = true) (a b : Word) :
    sameFrequencies ⟨a, g⟩ ⟨b, g⟩ = true ↔ a = b := by
  rw [sameFrequencies_iff]
  constructor
  · intro hsame
    refine BitVec.eq_of_getLsbD_eq fun k hk => ?_
    have hfreq := hsame (frequency g k)
    rwa [frequency_mem_activeFrequencies h a hk, frequency_mem_activeFrequencies h b hk, ← Bool.eq_iff_iff] at hfreq
  · rintro rfl f
    exact Iff.rfl

/-! ### Destuttered lists -/

section Destutter

variable {α : Type} [DecidableEq α]

theorem destutter_eq_cons_tail (a : α) (l : List α) :
    (a :: l).destutter (· ≠ ·) = a :: ((a :: l).destutter (· ≠ ·)).tail := by
  induction l with
  | nil => rfl
  | cons b l ih =>
    by_cases h : a = b
    · rwa [List.destutter_cons_cons, if_neg (not_not.2 h)]
    · rw [List.destutter_cons_cons, if_pos h, List.tail_cons]

/-- A list with no two equal neighbours stays whole at the end of a destuttered one. -/
theorem suffix_destutter_append {b : α} {l : List α} (h : (b :: l).IsChain (· ≠ ·)) (xs : List α) :
    b :: l <:+ (xs ++ b :: l).destutter (· ≠ ·) := by
  have hwhole : (b :: l).destutter (· ≠ ·) = b :: l := List.destutter_of_isChain _ _ h
  match xs with
  | [] =>
    rw [List.nil_append, hwhole]
  | [a] =>
    rw [List.singleton_append, List.destutter_cons_cons]
    by_cases hab : a = b
    · rw [if_neg (not_not.2 hab), hab, ← List.destutter_cons', hwhole]
    · rw [if_pos hab, ← List.destutter_cons', hwhole]
      exact List.suffix_cons a _
  | a :: c :: xs =>
    rw [List.cons_append, List.cons_append, List.destutter_cons_cons]
    by_cases hac : a = c
    · rw [if_neg (not_not.2 hac)]
      exact suffix_destutter_append h (a :: xs)
    · rw [if_pos hac]
      exact (suffix_destutter_append h (c :: xs)).trans (List.suffix_cons a _)
  termination_by xs.length

end Destutter

/-! ### The pattern as slot codes (R124) -/

/-- The codes of the pattern's bins on the base grid. -/
def patternCodes : List Word := [1#32, 4#32, 2#32, 4#32, 1#32, 4#32]

theorem patternCodes_of_base (p : Fin 6) :
    ∃ k : Fin 32, (#v[some 0, some 2, some 1, some 2, some 0, some 2] : Vector (Option (Fin 32)) 6)[p] = some k
      ∧ patternCodes[p.val]? = some (slotCode k.val) := by
  revert p
  decide

/-- A code that breaks a match begins no later part of it either: no proper end of the matched codes begins the pattern
and goes on with that code. So the search may forget what it matched. -/
theorem patternCodes_infix_restart {p : Nat} (hp : p < 6) {code : Word} (h : patternCodes[p]? ≠ some code)
    (rest : List Word) :
    patternCodes <:+: patternCodes.take p ++ code :: rest ↔ patternCodes <:+: code :: rest := by
  interval_cases p <;> simp_all [patternCodes, List.infix_cons_iff]

theorem patternCodes_infix_cons {code : Word} (h : code ≠ 1#32) (rest : List Word) :
    patternCodes <:+: code :: rest ↔ patternCodes <:+: rest := by
  rw [List.infix_cons_iff, patternCodes, List.cons_prefix_cons]
  exact or_iff_right fun ⟨hcode, _⟩ => h hcode.symm

/-! ### One slot in Locate (R122, R124) -/

/-- The receiver is in Locate, on the base grid since its reset (R41). -/
structure RxEngine.Locating (rx : RxEngine) : Prop where
  stage : rx.stage = .locate
  grid : rx.grid = Grid.baseGrid
  pb : rx.pb = #v[some 0, some 2, some 1, some 2, some 0, some 2]
  prev : ∀ slot, rx.prev = some slot → slot.grid = Grid.baseGrid

theorem RxEngine.resetOver_locating (header : Vector Byte 20) : (RxEngine.resetOver header).Locating :=
  ⟨rfl, rfl, rfl, fun _ h => nomatch h⟩

theorem stepLegal_baseGrid : stepLegal Grid.baseGrid.step = true := by decide

namespace RxEngine.Locating

variable {rx : RxEngine} (h : rx.Locating) (code : Word)
include h

/-- A slot that does not complete the match leaves a receiver in Locate. -/
theorem sawSlot (p : Fin 6) : RxEngine.Locating { rx.sawSlot code with prog := p } :=
  ⟨h.stage, h.grid, h.pb, fun _ hs => Option.some.inj hs ▸ h.grid⟩

theorem duplicate_iff : rx.duplicate code = true ↔ rx.prev.map SlotMemory.code = some code := by
  cases hprev : rx.prev with
  | none => simp [RxEngine.duplicate, hprev]
  | some slot =>
    have hslot : slot = ⟨slot.code, rx.grid⟩ := by rw [h.grid, ← h.prev slot hprev]
    have hlegal : stepLegal rx.grid.step = true := h.grid ▸ stepLegal_baseGrid
    rw [RxEngine.duplicate, hprev, RxEngine.slotOf, Option.map_some, Option.some.injEq]
    exact hslot ▸ sameFrequencies_same_grid hlegal slot.code code

theorem fits_single_iff : rx.fits (single code) = true ↔ patternCodes[rx.prog.val]? = some code := by
  obtain ⟨k, hbin, hcode⟩ := patternCodes_of_base rx.prog
  rw [RxEngine.fits_iff, h.pb, hbin, hcode]
  constructor
  · rintro ⟨_, hsingle, ⟨⟩⟩
    rw [single_eq_some_iff.1 hsingle]
  · intro heq
    exact ⟨k, single_eq_some_iff.2 (Option.some.inj heq).symm, rfl⟩

theorem retest_eq : rx.retest (single code) = { rx with prog := if code = 1#32 then 1 else 0 } := by
  have hfits := Locating.fits_single_iff (rx := { rx with prog := 0 }) ⟨h.stage, h.grid, h.pb, h.prev⟩ code
  have hfirst : patternCodes[(0 : Fin 6).val]? = some code ↔ code = 1#32 := by simp [patternCodes, eq_comm]
  rw [RxEngine.retest]
  by_cases hcode : code = 1#32
  · rw [if_pos (hfits.2 (hfirst.2 hcode)), if_pos hcode]
  · rw [if_neg (mt hfits.1 (mt hfirst.1 hcode)), if_neg hcode]

/-- Everything a slot can do in Locate, by its code. -/
theorem rxStep_cases :
    (rx.duplicate code = true ∧ (rxStep rx code).rx = { rx.sawSlot code with prog := rx.prog })
    ∨ (rx.duplicate code = false ∧ patternCodes[rx.prog.val]? = some code ∧
        ((∃ hp : rx.prog.val + 1 < 6, (rxStep rx code).rx = { rx.sawSlot code with prog := ⟨rx.prog.val + 1, hp⟩ })
        ∨ (rx.prog = 5 ∧ (rxStep rx code).rx.stage = .header)))
    ∨ (rx.duplicate code = false ∧ patternCodes[rx.prog.val]? ≠ some code
        ∧ (rxStep rx code).rx = { rx.sawSlot code with prog := if code = 1#32 then 1 else 0 }) := by
  have hsaw : (rx.sawSlot code).Locating := h.sawSlot code rx.prog
  cases hd : rx.duplicate code with
  | true => exact .inl ⟨rfl, by simp [rxStep, h.stage, hd, SlotResult.quiet, RxEngine.sawSlot, RxEngine.slotOf]⟩
  | false =>
    have hstep : rxStep rx code = locateStep (rx.sawSlot code) (single code) := by
      simp [rxStep, h.stage, hd, RxEngine.sawSlot, RxEngine.slotOf]
    rw [hstep]
    rcases locateStep_cases (rx.sawSlot code) (single code) with
      ⟨hp, hfits, heq⟩ | ⟨hp, hfits, heq⟩ | ⟨hfits, heq⟩
    · exact .inr (.inl ⟨rfl, (hsaw.fits_single_iff code).1 hfits, .inl ⟨hp, by rw [heq]; rfl⟩⟩)
    · exact .inr (.inl ⟨rfl, (hsaw.fits_single_iff code).1 hfits, .inr ⟨Fin.ext hp, by rw [heq]; rfl⟩⟩)
    · refine .inr (.inr ⟨rfl, fun hcode => ?_, by rw [heq, hsaw.retest_eq]; rfl⟩)
      rw [(hsaw.fits_single_iff code).2 hcode] at hfits
      cases hfits

end RxEngine.Locating

/-! ### Many slots (R132) -/

theorem SlotResult.quiet_rx (rx : RxEngine) : (SlotResult.quiet rx).rx = rx := rfl

/-- No slot leads back to Locate. -/
theorem rxStep_stage_ne_locate {rx : RxEngine} (h : rx.stage ≠ .locate) (code : Word) :
    (rxStep rx code).rx.stage ≠ .locate := by
  rcases rxStep_cases rx code with ⟨-, heq⟩ | ⟨-, -, heq⟩ | ⟨hs, -, -⟩ | ⟨-, -, heq⟩ | ⟨-, -, heq⟩
  · rw [heq]; exact h
  · rw [heq]; exact h
  · exact absurd hs h
  · rw [heq]
    rcases headerStep_cases (rx.sawSlot code) (single code) with ⟨-, heq⟩ | ⟨k, -, -, heq⟩ | ⟨k, -, -, heq⟩
    · rw [heq]; exact h
    · rw [heq]; exact h
    · rw [heq]
      obtain ⟨p, -, ⟨e, -, heq⟩ | ⟨-, heq⟩⟩ := rxValidate_cases _ <;> rw [heq] <;> exact nofun
  · rw [heq]
    rcases payloadStep_cases (rx.sawSlot code) (single code) with
      ⟨_, -, heq⟩ | ⟨-, -, heq⟩ | ⟨-, -, heq⟩ | ⟨-, -, heq⟩
    · rw [heq]; exact h
    · rw [heq]; exact nofun
    · rw [heq, RxEngine.commit, RxEngine.retest]; split <;> exact h
    · rw [heq, RxEngine.commit, RxEngine.retest]; split <;> exact h

theorem rxFeed_nil (rx : RxEngine) : (rxFeed rx []).1 = rx := rfl

theorem rxFeed_cons (rx : RxEngine) (code : Word) (codes : List Word) :
    (rxFeed rx (code :: codes)).1 = (rxFeed (rxStep rx code).rx codes).1 := rfl

theorem rxFeed_append (rx : RxEngine) (xs ys : List Word) :
    (rxFeed rx (xs ++ ys)).1 = (rxFeed (rxFeed rx xs).1 ys).1 := by
  induction xs generalizing rx with
  | nil => rfl
  | cons x xs ih => exact ih _

theorem rxFeed_stage_ne_locate {rx : RxEngine} (h : rx.stage ≠ .locate) (codes : List Word) :
    (rxFeed rx codes).1.stage ≠ .locate := by
  induction codes generalizing rx with
  | nil => exact h
  | cons code codes ih => exact ih (rxStep_stage_ne_locate h code)

/-- The codes that the duplicate filter lets through on one grid, after the slot it remembers (R122). -/
def RxEngine.passed (rx : RxEngine) (codes : List Word) : List Word :=
  match rx.prev with
  | none => codes.destutter (· ≠ ·)
  | some slot => ((slot.code :: codes).destutter (· ≠ ·)).tail

namespace RxEngine.Locating

variable {rx : RxEngine} (h : rx.Locating)
include h

theorem passed_cons_duplicate {code : Word} (hd : rx.duplicate code = true) (p : Fin 6) (codes : List Word) :
    rx.passed (code :: codes) = RxEngine.passed { rx.sawSlot code with prog := p } codes := by
  obtain ⟨slot, hprev, rfl⟩ := Option.map_eq_some_iff.1 ((h.duplicate_iff code).1 hd)
  simp [RxEngine.passed, RxEngine.sawSlot, hprev, List.destutter_cons']

theorem passed_cons_new {code : Word} (hd : rx.duplicate code = false) (p : Fin 6) (codes : List Word) :
    rx.passed (code :: codes) = code :: RxEngine.passed { rx.sawSlot code with prog := p } codes := by
  have hnew : rx.prev.map SlotMemory.code ≠ some code := by rw [Ne, ← h.duplicate_iff, hd]; exact nofun
  cases hprev : rx.prev with
  | none =>
    simp only [RxEngine.passed, RxEngine.sawSlot, hprev]
    exact destutter_eq_cons_tail code codes
  | some slot =>
    rw [hprev, Option.map_some, Ne, Option.some.injEq] at hnew
    simp only [RxEngine.passed, RxEngine.sawSlot, hprev, List.destutter_cons_cons, if_pos hnew, List.tail_cons]
    exact destutter_eq_cons_tail code codes

/-- From a match of some length, the receiver leaves Locate exactly when the pattern occurs in the codes matched so far
followed by the codes that pass the filter. -/
theorem rxFeed_left_iff (codes : List Word) :
    (rxFeed rx codes).1.stage ≠ .locate ↔ patternCodes <:+: patternCodes.take rx.prog.val ++ rx.passed codes := by
  induction codes generalizing rx with
  | nil =>
    have hnil : rx.passed [] = [] := by cases hprev : rx.prev <;> simp [RxEngine.passed, hprev]
    rw [hnil, List.append_nil]
    refine iff_of_false (not_not.2 h.stage) fun hinfix => ?_
    have hsix : patternCodes.length = 6 := rfl
    have hlen := hinfix.length_le
    rw [List.length_take, hsix] at hlen
    omega
  | cons code codes ih =>
    rw [rxFeed_cons]
    rcases h.rxStep_cases code with ⟨hd, heq⟩ | ⟨hd, hcode, ⟨hp, heq⟩ | ⟨hp, hheader⟩⟩ | ⟨hd, hcode, heq⟩
    · rw [heq, ih (h.sawSlot code _), h.passed_cons_duplicate hd]
    · rw [heq, ih (h.sawSlot code _), h.passed_cons_new hd, List.take_add_one, hcode, List.append_assoc]
      rfl
    · refine iff_of_true (rxFeed_stage_ne_locate (by rw [hheader]; exact nofun) codes) ?_
      have hwhole : patternCodes.take rx.prog.val ++ [code] = patternCodes := by
        rw [hp] at hcode ⊢
        obtain rfl : 4#32 = code := Option.some.inj hcode
        rfl
      rw [h.passed_cons_new hd 0, List.append_cons, hwhole]
      exact (List.prefix_append _ _).isInfix
    · rw [heq, ih (h.sawSlot code _), h.passed_cons_new hd, patternCodes_infix_restart rx.prog.isLt hcode]
      by_cases hone : code = 1#32
      · rw [if_pos hone, hone]
        rfl
      · rw [if_neg hone, patternCodes_infix_cons hone]
        rfl

/-- As long as it stays in Locate, the receiver stays on the base grid. -/
theorem locating_rxFeed {codes : List Word} (hs : (rxFeed rx codes).1.stage = .locate) : (rxFeed rx codes).1.Locating := by
  induction codes generalizing rx with
  | nil => exact h
  | cons code codes ih =>
    rw [rxFeed_cons] at hs ⊢
    rcases h.rxStep_cases code with ⟨-, heq⟩ | ⟨-, -, ⟨hp, heq⟩ | ⟨-, hheader⟩⟩ | ⟨-, -, heq⟩
    · rw [heq] at hs ⊢; exact ih (h.sawSlot code _) hs
    · rw [heq] at hs ⊢; exact ih (h.sawSlot code _) hs
    · exact absurd hs (rxFeed_stage_ne_locate (by rw [hheader]; exact nofun) codes)
    · rw [heq] at hs ⊢; exact ih (h.sawSlot code _) hs

/-- Only a slot after five matched positions leaves Locate. -/
theorem prog_of_left {code : Word} (hs : (rxStep rx code).rx.stage ≠ .locate) : rx.prog = 5 := by
  rcases h.rxStep_cases code with ⟨-, heq⟩ | ⟨-, -, ⟨_, heq⟩ | ⟨hp, -⟩⟩ | ⟨-, -, heq⟩
  · exact absurd (heq ▸ h.stage) hs
  · exact absurd (heq ▸ h.stage) hs
  · exact hp
  · exact absurd (heq ▸ h.stage) hs

theorem prev_of_stayed {code : Word} (hs : (rxStep rx code).rx.stage = .locate) :
    (rxStep rx code).rx.prev.map SlotMemory.code = some code := by
  rcases h.rxStep_cases code with ⟨-, heq⟩ | ⟨-, -, ⟨_, heq⟩ | ⟨-, hheader⟩⟩ | ⟨-, -, heq⟩
  · rw [heq]; rfl
  · rw [heq]; rfl
  · rw [hheader] at hs; cases hs
  · rw [heq]; rfl

/-- In Locate the filter remembers the last slot. -/
theorem prev_of_stayed_append {codes : List Word} {code : Word}
    (hs : (rxFeed rx (codes ++ [code])).1.stage = .locate) :
    (rxFeed rx (codes ++ [code])).1.prev.map SlotMemory.code = some code := by
  rw [rxFeed_append, rxFeed_cons, rxFeed_nil] at hs ⊢
  have hbefore : (rxFeed rx codes).1.stage = .locate :=
    not_not.1 fun hleft => rxStep_stage_ne_locate hleft code hs
  exact (h.locating_rxFeed hbefore).prev_of_stayed hs

/-- After five positions, the last of them the code 1, a code other than 1 and 4 restarts the match at progress 0. -/
theorem rxStep_diverging (hp : rx.prog = 5) (hprev : rx.prev.map SlotMemory.code = some 1#32) {x : Word}
    (h1 : x ≠ 1#32) (h4 : x ≠ 4#32) : (rxStep rx x).rx.stage = .locate ∧ (rxStep rx x).rx.prog = 0 := by
  rcases h.rxStep_cases x with ⟨hd, -⟩ | ⟨-, hcode, -⟩ | ⟨-, -, heq⟩
  · rw [h.duplicate_iff, hprev] at hd
    exact absurd (Option.some.inj hd).symm h1
  · rw [hp] at hcode
    exact absurd (Option.some.inj hcode).symm h4
  · rw [heq, if_neg h1]
    exact ⟨h.stage, rfl⟩

end RxEngine.Locating

/-- From a reset, the receiver has left Locate exactly when the pattern has occurred. -/
theorem rxFeed_resetOver_left_iff (header : Vector Byte 20) (codes : List Word) :
    (rxFeed (RxEngine.resetOver header) codes).1.stage ≠ .locate ↔ patternCodes <:+: codes.destutter (· ≠ ·) :=
  (RxEngine.resetOver_locating header).rxFeed_left_iff codes

/-- The whole pattern at the end of the codes is found, whatever came before it. -/
theorem rxFeed_resetOver_pattern (header : Vector Byte 20) (codes : List Word) :
    (rxFeed (RxEngine.resetOver header) (codes ++ patternCodes)).1.stage ≠ .locate :=
  (rxFeed_resetOver_left_iff header _).2 (suffix_destutter_append (by decide) codes).isInfix

/-- Settles O34: the search automaton agrees with the occurrence of the pattern; since one slot more would complete the
match, its progress before the diverging slot is 5. -/
theorem locateFindsThePattern : Obligations.LocateFindsThePattern := by
  intro header codes
  refine ⟨rxFeed_resetOver_left_iff header codes, ?_⟩
  intro x rx hs h1 h4
  have hstart : (RxEngine.resetOver header).Locating := RxEngine.resetOver_locating header
  have hrx : rx.Locating := hstart.locating_rxFeed hs
  have hp : rx.prog = 5 := by
    have hleft : (rxFeed (RxEngine.resetOver header) ((codes ++ [1#32, 4#32, 2#32, 4#32, 1#32]) ++ [4#32])).1.stage
        ≠ .locate := by
      rw [List.append_assoc]
      exact rxFeed_resetOver_pattern header codes
    rw [rxFeed_append] at hleft
    exact hrx.prog_of_left hleft
  have hprev : rx.prev.map SlotMemory.code = some 1#32 := by
    have hlast := hstart.prev_of_stayed_append (codes := codes ++ [1#32, 4#32, 2#32, 4#32]) (code := 1#32)
    rw [List.append_assoc] at hlast
    exact hlast hs
  exact ⟨hp, hrx.rxStep_diverging hp hprev h1 h4⟩

/-! ### The receiver reset (R129) -/

theorem exec_rxReset (ignored : BitVec 30) (s : State) :
    exec (.rxReset ignored) s = .next ({ s with rx := RxEngine.resetOver s.rx.hbytes } : State).acknowledge := rfl

/-- `RX_STATUS` of a reset receiver has `PAT_OK` alone set (R38). -/
theorem rxStatusWord_resetOver (header : Vector Byte 20) :
    rxStatusWord (RxEngine.resetOver header) = 0x00000080#32 := by
  change 0#16 ++ 0#8 ++ BitVec.ofBool true ++ BitVec.ofBool false ++ 0#3 ++ 0#3 = 0x00000080#32
  decide

/-- With no payload byte received, `RX_BUF` reads as 0 (R64, R140). -/
theorem State.busByte_rx_of_empty {s : State} (h : s.rx.pu.nout = 0) (i : Nat) : s.busByte .rx i = 0#8 :=
  if_pos ⟨rfl, h ▸ Nat.zero_le i⟩

/-- Settles O40: the header bytes stay, the rest of the receiver is that of the reset table. -/
theorem rxResetCompletes : Obligations.RxResetCompletes := by
  intro ignored s
  exact ⟨_, s.rx.hbytes, 0#32, exec_rxReset ignored s, rfl, rxStatusWord_resetOver s.rx.hbytes,
    State.busByte_rx_of_empty rfl⟩

end Sys2Proof.Machine
end

