-- ==== Sys2Proof/Proofs/Control.lean ====
section
/-! Control (45_control.md): NOP and the illegal command words from acceptance to completion, and the interrupt
acknowledge. -/

namespace Sys2Proof.Machine

/-! ### NOP (R137) -/

theorem exec_nop (s : State) : exec .nop s = .next (s.acceptCommand 0#32) := rfl

/-- NOP's rule ends normally and writes nothing. -/
theorem effect_zero (s : State) : effect 0#32 s = .ok s := rfl

theorem State.complete_nop {s : State} (h : s.tx.pending = none) :
    (s.acceptCommand 0#32).complete = (s.afterSuccess 0x00#8 s.tx s.mem).answered 0#32 := by
  rw [State.complete_acceptCommand_ok h (effect_zero _), State.acceptCommand_idle h]
  rfl

/-- `TX_STATUS` after a success: `DONE`, and the low byte of the command word in bits 23:16 (10_state.md R33). -/
theorem State.txStatus_afterSuccess (s : State) (cmd : Byte) (tx : TxEngine) (mem : Memory) :
    (s.afterSuccess cmd tx mem).readReg .txStatus = 0x00#8 ++ cmd ++ 0x0002#16 := by
  change 0#8 ++ cmd ++ 0#8 ++ 0#6 ++ BitVec.ofBool true ++ BitVec.ofBool false = 0x00#8 ++ cmd ++ 0x0002#16
  simp only [BitVec.append_assoc, BitVec.cast_eq]
  rfl

/-- The port's answer shows in no register. -/
theorem State.readReg_answered (s : State) (d : Word) (r : Reg) : (s.answered d).readReg r = s.readReg r := by
  cases r <;> rfl

/-- Settles O8: NOP's rule keeps the state, so its completion is the status update of a success alone. -/
theorem nopCompletes : Obligations.NopCompletes := by
  intro s h
  refine ⟨s.acceptCommand 0#32, 0#32, exec_nop s, ?_, State.complete_nop h, ?_⟩
  · rw [State.acceptCommand_idle h]
  · rw [State.complete_nop h, State.readReg_answered, State.txStatus_afterSuccess]
    rfl

/-! ### Illegal command words (R136) -/

theorem exec_illegalCmd (word : Word) (s : State) : exec (.illegalCmd word) s = .next (s.acceptCommand word) := rfl

/-- The rule of a word that the table of 30_encoding.md R85 does not list is the error ILLEGAL_CMD. -/
theorem effect_of_gt {w : Word} (h : 0x06 < w.toNat) (s : State) : effect w s = .error .illegalCmd := by
  unfold effect
  split
  case h_8 => rfl
  all_goals omega

/-- Settles O9: the rule of a word above 6 fails with ILLEGAL_CMD, and a failure leaves its status alone. -/
theorem illegalCmdCompletes : Obligations.IllegalCmdCompletes := by
  intro word s hword h
  refine ⟨s.acceptCommand word, 0#32, exec_illegalCmd word s, ?_,
    State.complete_acceptCommand_error h (effect_of_gt hword _)⟩
  rw [State.acceptCommand_idle h]

/-! ### The interrupt acknowledge (R139) -/

theorem exec_irqAck (ignored : BitVec 28) (clear : BitVec 4) (s : State) :
    exec (.irqAck ignored clear) s = .next ({ s with irqStatus := s.irqStatus &&& ~~~clear } : State).acknowledge := rfl

/-- An admitted write answers with read data 0. -/
theorem State.acknowledge_eq_answered (s : State) : s.acknowledge = s.answered 0#32 := rfl

/-- Settles O45: the ignored bits do not reach the next state, and the write is answered in every state. -/
theorem irqAckClears : Obligations.IrqAckClears := by
  intro ignored clear s
  exact ⟨0#32, by rw [exec_irqAck, State.acknowledge_eq_answered]⟩

end Sys2Proof.Machine
end

/-! Hazards of reception (70_reset_and_hazards.md): on a grid that lacks a pattern frequency, Payload never ends. -/

namespace Sys2Proof.Machine

/-! ### One slot in Header and in Payload (R121, R122) -/

theorem rxStep_of_header {rx : RxEngine} (h : rx.stage = .header) (code : Word) :
    (rx.duplicate code = true ∧ rxStep rx code = .quiet (rx.sawSlot code))
    ∨ (rx.duplicate code = false ∧ rxStep rx code = headerStep (rx.sawSlot code) (single code)) := by
  simpa [h] using rxStep_cases rx code

theorem rxStep_of_payload {rx : RxEngine} (h : rx.stage = .payload) (code : Word) :
    (rx.duplicate code = true ∧ rxStep rx code = .quiet (rx.sawSlot code))
    ∨ (rx.duplicate code = false ∧ rxStep rx code = payloadStep (rx.sawSlot code) (single code)) := by
  simpa [h] using rxStep_cases rx code

/-! ### The pattern on the header's grid (R126) -/

theorem binAt_eq_none_iff {g : Grid} {hz : Nat} :
    binAt g hz = none ↔ ∀ k, k < 32 → frequency g k ≠ (hz : Int) * 2 ^ 149 := by
  have hunits : ((hz * unitsPerHz : Nat) : Int) = hz * 2 ^ 149 := by rw [unitsPerHz]; push_cast; rfl
  simp only [binAt, List.find?_eq_none, List.mem_finRange, true_imp_iff, beq_iff_eq, hunits]
  exact Fin.forall_iff

theorem patternBins_getElem (g : Grid) (j : Fin 6) : (patternBins g)[j] = binAt g Config.patternHz[j] := by
  fin_cases j <;> rfl

theorem patternHz_of_mem : ∀ hz ∈ ([14000, 15000, 14500, 15000, 14000, 15000] : List Int),
    ∃ j : Fin 6, ((Config.patternHz[j] : Nat) : Int) = hz := by decide

theorem RxEngine.patOk_eq_false {rx : RxEngine} {j : Fin 6} (h : rx.pb[j] = none) : rx.patOk = false := by
  rw [RxEngine.patOk, List.all_eq_false]
  exact ⟨none, Vector.mem_toList_iff.2 (h ▸ Vector.getElem_mem j.isLt), nofun⟩

/-- The slot that takes Header to Payload starts the match anew, on the pattern as bins of the header's grid. -/
theorem rxStep_entering_payload {rx : RxEngine} {code : Word} (hs : rx.stage = .header)
    (hentered : (rxStep rx code).rx.stage = .payload) :
    (rxStep rx code).rx.pb = patternBins (rxStep rx code).rx.grid ∧ (rxStep rx code).rx.prog = 0 := by
  have hseen : (rx.sawSlot code).stage ≠ .payload := by rw [RxEngine.sawSlot, hs]; exact nofun
  rcases rxStep_of_header hs code with ⟨-, heq⟩ | ⟨-, heq⟩
  · rw [heq] at hentered
    exact absurd hentered hseen
  rw [heq] at hentered ⊢
  rcases headerStep_cases (rx.sawSlot code) (single code) with ⟨-, heq⟩ | ⟨k, -, -, heq⟩ | ⟨k, -, -, heq⟩
  · rw [heq] at hentered
    exact absurd hentered hseen
  · rw [heq] at hentered
    exact absurd hentered hseen
  · rw [heq] at hentered ⊢
    obtain ⟨p, -, ⟨e, -, heq⟩ | ⟨-, heq⟩⟩ := rxValidate_cases _
    · rw [heq] at hentered
      cases hentered
    · rw [heq]
      exact ⟨rfl, rfl⟩

/-! ### A pattern entry that is no bin (R127, R170) -/

/-- The receiver is in Payload with pattern entry `j` no bin of its grid, and the match has not passed it. -/
structure RxEngine.BlockedAt (rx : RxEngine) (j : Fin 6) : Prop where
  stage : rx.stage = .payload
  bin : rx.pb[j] = none
  prog : rx.prog.val ≤ j.val

namespace RxEngine.BlockedAt

variable {rx : RxEngine} {j : Fin 6} (h : rx.BlockedAt j)
include h

theorem sawSlot (code : Word) : (rx.sawSlot code).BlockedAt j := ⟨h.stage, h.bin, h.prog⟩

/-- No slot fits an entry that is no bin, so a match that goes on is still before it. -/
theorem prog_lt_of_fits {s : Option (Fin 32)} (hfits : rx.fits s = true) : rx.prog.val < j.val := by
  obtain ⟨k, -, hbin⟩ := (rx.fits_iff s).1 hfits
  refine lt_of_le_of_ne h.prog fun heq => ?_
  obtain rfl : rx.prog = j := Fin.ext heq
  exact nomatch h.bin.symm.trans hbin

theorem retest (s : Option (Fin 32)) : (rx.retest s).BlockedAt j := by
  have hzero : RxEngine.BlockedAt { rx with prog := 0 } j := ⟨h.stage, h.bin, Nat.zero_le _⟩
  unfold RxEngine.retest
  split
  · next hfits => exact ⟨h.stage, h.bin, hzero.prog_lt_of_fits hfits⟩
  · exact hzero

theorem commit (symbols : List Nat) : (rx.commit symbols).rx.BlockedAt j := ⟨h.stage, h.bin, h.prog⟩

/-- The match would have to fit every entry to reach Done. -/
theorem payloadStep (s : Option (Fin 32)) : (payloadStep rx s).rx.BlockedAt j := by
  rcases payloadStep_cases rx s with ⟨_, hfits, heq⟩ | ⟨hp, hfits, -⟩ | ⟨-, -, heq⟩ | ⟨-, -, heq⟩
  · rw [heq]
    exact ⟨h.stage, h.bin, h.prog_lt_of_fits hfits⟩
  · have hlt := h.prog_lt_of_fits hfits
    omega
  · rw [heq]
    exact (h.retest s).commit _
  · rw [heq]
    exact (h.retest s).commit _

theorem rxStep (code : Word) : (rxStep rx code).rx.BlockedAt j := by
  rcases rxStep_of_payload h.stage code with ⟨-, heq⟩ | ⟨-, heq⟩
  · rw [heq]
    exact h.sawSlot code
  · rw [heq]
    exact (h.sawSlot code).payloadStep _

theorem rxFeed (codes : List Word) : (rxFeed rx codes).1.BlockedAt j := by
  induction codes generalizing rx with
  | nil => exact h
  | cons code codes ih => exact ih (h.rxStep code)

end RxEngine.BlockedAt

/-- Settles O37: the entry of the missing frequency is no bin, the match starts at or before it, and never passes it. -/
theorem noPatternNeverDone : Obligations.NoPatternNeverDone := by
  rintro rx code hs hentered ⟨hz, hmem, hmissing⟩
  obtain ⟨j, rfl⟩ := patternHz_of_mem hz hmem
  obtain ⟨hpb, hprog⟩ := rxStep_entering_payload hs hentered
  have hbin : (rxStep rx code).rx.pb[j] = none := by
    rw [hpb, patternBins_getElem, binAt_eq_none_iff]
    exact hmissing
  have hblocked : (rxStep rx code).rx.BlockedAt j := ⟨hentered, hbin, by rw [hprog]; exact Nat.zero_le _⟩
  exact ⟨RxEngine.patOk_eq_false hbin, fun codes => (hblocked.rxFeed codes).stage⟩

end Sys2Proof.Machine

/-! The opcode table (30_encoding.md): `decode` and `encode` undo each other. -/

namespace Sys2Proof

/-! ### The low bits of the data -/

theorem extractLsb'_append_low {n k : Nat} (x : BitVec (n + k)) : x.extractLsb' k n ++ x.extractLsb' 0 k = x := by
  refine BitVec.eq_of_getLsbD_eq fun i hi => ?_
  rw [BitVec.getLsbD_append]
  by_cases h : i < k
  · simp [h]
  · simp [h, show i - k < n by omega, show k + (i - k) = i by omega]

theorem and_one_eq_iff {d : Word} : d &&& 1#32 = 1#32 ↔ d.extractLsb' 0 1 = 1#1 := by
  rw [← BitVec.toNat_inj, ← BitVec.toNat_inj]
  simp

theorem and_three_eq_iff {d : Word} : d &&& 3#32 = 2#32 ↔ d.extractLsb' 0 2 = 2#2 := by
  have hlow : d.toNat &&& 3 = d.toNat % 4 := Nat.and_two_pow_sub_one_eq_mod d.toNat 2
  rw [← BitVec.toNat_inj, ← BitVec.toNat_inj]
  simp [hlow]

theorem low_bit_iff {d : Word} : d.extractLsb' 0 1 = 1#1 ↔ d.getLsbD 0 = true := by
  have hbit : ∀ x : BitVec 1, x = 1#1 ↔ x.getLsbD 0 = true := by decide
  simp [hbit]

theorem low_bits_iff {d : Word} : d.extractLsb' 0 2 = 2#2 ↔ d.getLsbD 0 = false ∧ d.getLsbD 1 = true := by
  have hbits : ∀ x : BitVec 2, x = 2#2 ↔ x.getLsbD 0 = false ∧ x.getLsbD 1 = true := by decide
  simp [hbits]

/-- A word that the RX_RESET row takes is none that the SOFT_RESET row takes. -/
theorem low_bit_of_low_bits {d : Word} (h : d &&& 3#32 = 2#32) : d &&& 1#32 ≠ 1#32 := by
  rw [and_three_eq_iff, low_bits_iff] at h
  rw [Ne, and_one_eq_iff, low_bit_iff, h.1]
  exact nofun

/-! ### Decoding by the fields of a request (R83, R87) -/

/-- The instruction of a 32-bit write to `TX_CMD` (R85). -/
def commandOf (d : Word) : Instr :=
  if d = 0#32 then .nop
  else if d = 1#32 then .serializeHeader
  else if d = 2#32 then .parseHeader
  else if d = 3#32 then .pack
  else if d = 4#32 then .unpack
  else if d = 5#32 then .synth
  else if d = 6#32 then .buildFrame
  else .illegalCmd d

/-- The instruction of a 32-bit write (R85, R86). -/
def write32Of (a : Addr) (d : Word) : Instr :=
  if a = 0x034#25 then commandOf d
  else if a = 0x080#25 then .rxPushSlot d
  else if a = 0x004#25 ∧ d &&& 1#32 = 1#32 then .softReset (d.extractLsb' 1 31)
  else if a = 0x004#25 ∧ d &&& 3#32 = 2#32 then .rxReset (d.extractLsb' 2 30)
  else if a = 0x008#25 then .irqAck (d.extractLsb' 4 28) (d.extractLsb' 0 4)
  else .busWrite32 a d

theorem extractLsb'_transaction {k n : Nat} (h : k + n ≤ 32) (w : Bool) (s : BitVec 2) (a : Addr) (d : Word) :
    (transaction w s a d).extractLsb' k n = d.extractLsb' k n := by
  refine BitVec.eq_of_getLsbD_eq fun i hi => ?_
  rw [BitVec.getLsbD_extractLsb', BitVec.getLsbD_extractLsb', transaction_getLsbD, if_pos (by omega)]

theorem decode_write32 (a : Addr) (d : Word) : decode (transaction true 2#2 a d) = .ok (write32Of a d) := by
  unfold decode write32Of commandOf
  simp only [opcodeTable_by_fields, List.find?_cons, fits_all, fits_request, fits_bit, fits_twoBits, fits_top, true_and]
  split_ifs <;> simp [*, extractLsb'_transaction, low_bit_of_low_bits]

/-- The instruction of a request, by its direction and `SIZE` (R86). -/
def requestOf (write : Bool) (size : BitVec 2) (a : Addr) (d : Word) : Instr :=
  match write with
  | true => if size = 0#2 then .busWrite8 a d else if size = 1#2 then .busWrite16 a d else write32Of a d
  | false => if size = 0#2 then .busRead8 a d else if size = 1#2 then .busRead16 a d else .busRead32 a d

theorem size_cases {size : BitVec 2} (h : size ≠ 3#2) : size = 0#2 ∨ size = 1#2 ∨ size = 2#2 := by
  revert size
  decide

/-- Every request of `SIZE` 0 to 2 decodes (R89). -/
theorem decode_transaction {size : BitVec 2} (h : size ≠ 3#2) (write : Bool) (a : Addr) (d : Word) :
    decode (transaction write size a d) = .ok (requestOf write size a d) := by
  by_cases hwrite : write = true ∧ size = 2#2
  · obtain ⟨rfl, rfl⟩ := hwrite
    exact decode_write32 a d
  · unfold decode requestOf
    simp only [opcodeTable_by_fields, List.find?_cons, fits_all, fits_request, fits_bit, fits_twoBits, fits_top]
    cases write <;> rcases size_cases h with rfl | rfl | rfl <;> simp at hwrite ⊢

theorem decode_reserved (write : Bool) (a : Addr) (d : Word) :
    decode (transaction write 3#2 a d) = .error .sizeReserved := by
  simp [decode, opcodeTable_by_fields, fits_all, fits_request, fits_bit, fits_twoBits, fits_top]

/-- No row fits a word whose bits 63:60 are not 0. -/
theorem decode_spare {t : Transaction} (h : spareField t ≠ 0#4) : decode t = .error .spareBitsSet := by
  have hrow : ∀ r ∈ opcodeTable, spareField r.mask = 0xF#4 ∧ spareField r.pattern = 0#4 := by decide
  have hnone : opcodeTable.find? (fun r => r.fits t) = none := List.find?_eq_none.2 fun r hr hfits => by
    obtain ⟨hmask, hpattern⟩ := hrow r hr
    have hand : spareField t &&& spareField r.mask = spareField r.pattern := by
      rw [← beq_iff_eq.1 hfits]
      simp [spareField, BitVec.extractLsb'_and]
    rw [hmask, hpattern, show (0xF#4 : BitVec 4) = BitVec.allOnes 4 from rfl, BitVec.and_allOnes] at hand
    exact h hand
  rw [decode, hnone, if_neg h]

/-- A word with bits 63:60 at 0 is a request. -/
theorem exists_transaction {t : Transaction} (h : spareField t = 0#4) :
    ∃ write size a d, t = transaction write size a d := ⟨_, _, _, _, (transaction_eta h).symm⟩

/-- The words that decode, and what they decode to. -/
theorem decode_eq_ok_iff {t : Transaction} {i : Instr} :
    decode t = .ok i ↔ ∃ write size a d, size ≠ 3#2 ∧ t = transaction write size a d ∧ i = requestOf write size a d := by
  constructor
  · intro h
    have hspare : spareField t = 0#4 := by
      by_contra hspare
      rw [decode_spare hspare] at h
      cases h
    obtain ⟨write, size, a, d, rfl⟩ := exists_transaction hspare
    by_cases hsize : size = 3#2
    · rw [hsize, decode_reserved] at h
      cases h
    · rw [decode_transaction hsize] at h
      exact ⟨write, size, a, d, hsize, rfl, (Except.ok.inj h).symm⟩
  · rintro ⟨write, size, a, d, hsize, rfl, rfl⟩
    exact decode_transaction hsize write a d

/-! ### The two halves of the round trip -/

theorem isCommandWord_eq_false_iff {w : Word} : isCommandWord w = false ↔
    w ≠ 0#32 ∧ w ≠ 1#32 ∧ w ≠ 2#32 ∧ w ≠ 3#32 ∧ w ≠ 4#32 ∧ w ≠ 5#32 ∧ w ≠ 6#32 := by
  simp only [isCommandWord, decide_eq_false_iff_not]
  bv_omega

theorem commandOf_of_not {w : Word} (h : isCommandWord w = false) : commandOf w = .illegalCmd w := by
  obtain ⟨h0, h1, h2, h3, h4, h5, h6⟩ := isCommandWord_eq_false_iff.1 h
  simp only [commandOf, if_neg, h0, h1, h2, h3, h4, h5, h6, not_false_eq_true]

/-- A command word's instruction is well formed and stands for that word. -/
theorem encode_commandOf (d : Word) :
    (commandOf d).WellFormed ∧ encode (commandOf d) = transaction true 2#2 0x034#25 d := by
  by_cases h : isCommandWord d = true
  · have hle : d.toNat ≤ 6 := of_decide_eq_true h
    obtain ⟨n, hn, rfl⟩ : ∃ n, n ≤ 6 ∧ d = BitVec.ofNat 32 n := ⟨d.toNat, hle, by simp⟩
    interval_cases n <;> exact ⟨rfl, rfl⟩
  · rw [Bool.not_eq_true] at h
    rw [commandOf_of_not h]
    exact ⟨by rw [Instr.WellFormed, Instr.wellFormed, h]; rfl, rfl⟩

theorem selectsOperation_eq_false_iff {a : Addr} {d : Word} : selectsOperation a d = false ↔
    a ≠ 0x034#25 ∧ a ≠ 0x080#25 ∧ a ≠ 0x008#25
      ∧ ¬(a = 0x004#25 ∧ d &&& 1#32 = 1#32) ∧ ¬(a = 0x004#25 ∧ d &&& 3#32 = 2#32) := by
  rw [and_one_eq_iff, and_three_eq_iff, low_bit_iff, low_bits_iff]
  simp only [selectsOperation, Bool.or_eq_false_iff, Bool.and_eq_false_iff, beq_eq_false_iff_ne, and_assoc]
  cases d.getLsbD 0 <;> cases d.getLsbD 1 <;> simp

theorem write32Of_of_not {a : Addr} {d : Word} (h : selectsOperation a d = false) : write32Of a d = .busWrite32 a d := by
  obtain ⟨h34, h80, h8, hsoft, hrx⟩ := selectsOperation_eq_false_iff.1 h
  rw [write32Of, if_neg h34, if_neg h80, if_neg hsoft, if_neg hrx, if_neg h8]

/-- The instruction of a 32-bit write is well formed and stands for that write. -/
theorem encode_write32Of (a : Addr) (d : Word) :
    (write32Of a d).WellFormed ∧ encode (write32Of a d) = transaction true 2#2 a d := by
  unfold write32Of
  split_ifs with hcmd hslot hsoft hrx hack
  · exact hcmd ▸ encode_commandOf d
  · exact hslot ▸ ⟨rfl, rfl⟩
  · obtain ⟨rfl, hbit⟩ := hsoft
    have hd := extractLsb'_append_low (n := 31) (k := 1) d
    rw [and_one_eq_iff.1 hbit] at hd
    exact ⟨rfl, congrArg (transaction true 2#2 0x004#25) hd⟩
  · obtain ⟨rfl, hbits⟩ := hrx
    have hd := extractLsb'_append_low (n := 30) (k := 2) d
    rw [and_three_eq_iff.1 hbits] at hd
    exact ⟨rfl, congrArg (transaction true 2#2 0x004#25) hd⟩
  · subst hack
    exact ⟨rfl, congrArg (transaction true 2#2 0x008#25) (extractLsb'_append_low (n := 28) (k := 4) d)⟩
  · have hplain : selectsOperation a d = false := selectsOperation_eq_false_iff.2 ⟨hcmd, hslot, hack, hsoft, hrx⟩
    exact ⟨by rw [Instr.WellFormed, Instr.wellFormed, hplain]; rfl, rfl⟩

/-- Settles O2: a word that decodes is a request, and the instruction of a request stands for it. -/
theorem encodeOfDecode : Obligations.EncodeOfDecode := by
  intro t i h
  obtain ⟨write, size, a, d, hsize, rfl, rfl⟩ := decode_eq_ok_iff.1 h
  rcases size_cases hsize with rfl | rfl | rfl <;> cases write
  case inr.inr.true => exact encode_write32Of a d
  all_goals exact ⟨rfl, rfl⟩

theorem extractLsb'_append_high {n k : Nat} (x : BitVec n) (y : BitVec k) : (x ++ y).extractLsb' k n = x := by
  refine BitVec.eq_of_getLsbD_eq fun i hi => ?_
  simp [hi, BitVec.getLsbD_append]

theorem extractLsb'_append_zero {n k : Nat} (x : BitVec n) (y : BitVec k) : (x ++ y).extractLsb' 0 k = y := by
  refine BitVec.eq_of_getLsbD_eq fun i hi => ?_
  simp [hi, BitVec.getLsbD_append]

theorem write32Of_softReset (ignored : BitVec 31) : write32Of 0x004#25 (ignored ++ 1#1) = .softReset ignored := by
  have hbit : (ignored ++ 1#1 : Word) &&& 1#32 = 1#32 := and_one_eq_iff.2 (extractLsb'_append_zero ignored 1#1)
  have hignored : (ignored ++ 1#1 : Word).extractLsb' 1 31 = ignored := extractLsb'_append_high ignored 1#1
  rw [write32Of, if_neg (by decide), if_neg (by decide), if_pos ⟨rfl, hbit⟩, hignored]

theorem write32Of_rxReset (ignored : BitVec 30) : write32Of 0x004#25 (ignored ++ 2#2) = .rxReset ignored := by
  have hbits : (ignored ++ 2#2 : Word) &&& 3#32 = 2#32 := and_three_eq_iff.2 (extractLsb'_append_zero ignored 2#2)
  have hignored : (ignored ++ 2#2 : Word).extractLsb' 2 30 = ignored := extractLsb'_append_high ignored 2#2
  rw [write32Of, if_neg (by decide), if_neg (by decide), if_neg fun h => low_bit_of_low_bits hbits h.2,
    if_pos ⟨rfl, hbits⟩, hignored]

theorem write32Of_irqAck (ignored : BitVec 28) (clear : BitVec 4) :
    write32Of 0x008#25 (ignored ++ clear) = .irqAck ignored clear := by
  have hignored : (ignored ++ clear : Word).extractLsb' 4 28 = ignored := extractLsb'_append_high ignored clear
  have hclear : (ignored ++ clear : Word).extractLsb' 0 4 = clear := extractLsb'_append_zero ignored clear
  rw [write32Of, if_neg (by decide), if_neg (by decide), if_neg fun h => absurd h.1 (by decide),
    if_neg fun h => absurd h.1 (by decide), if_pos rfl, hignored, hclear]

/-- Settles O1: the word of an instruction is a request; the rows before the instruction's own leave it to it, by well
formedness for the two rows that take what is left over. -/
theorem decodeOfEncode : Obligations.DecodeOfEncode := by
  intro i hwf
  cases i with
  | illegalCmd word =>
    have hword : isCommandWord word = false := by simpa [Instr.WellFormed, Instr.wellFormed] using hwf
    rw [encode, decode_write32, write32Of, if_pos rfl, commandOf_of_not hword]
  | softReset ignored => rw [encode, decode_write32, write32Of_softReset]
  | rxReset ignored => rw [encode, decode_write32, write32Of_rxReset]
  | irqAck ignored clear => rw [encode, decode_write32, write32Of_irqAck]
  | busWrite32 addr data =>
    have hplain : selectsOperation addr data = false := by simpa [Instr.WellFormed, Instr.wellFormed] using hwf
    rw [encode, decode_write32, write32Of_of_not hplain]
  | nop | serializeHeader | parseHeader | pack | unpack | synth | buildFrame | rxPushSlot code =>
    exact decode_write32 _ _
  | busWrite8 addr data | busWrite16 addr data | busRead8 addr data | busRead16 addr data | busRead32 addr data =>
    exact decode_transaction (by decide) _ _ _

/-- Settles O3: a word with spare bits 0 is a request, and of requests only `SIZE` 3 fits no row. -/
theorem decodeDefinedExactly : Obligations.DecodeDefinedExactly := by
  intro t
  constructor
  · rintro ⟨i, h⟩
    obtain ⟨write, size, a, d, hsize, rfl, -⟩ := decode_eq_ok_iff.1 h
    rw [spareField_transaction, sizeField_transaction]
    exact ⟨rfl, hsize⟩
  · rintro ⟨hspare, hsize⟩
    obtain ⟨write, size, a, d, rfl⟩ := exists_transaction hspare
    rw [sizeField_transaction] at hsize
    exact ⟨_, decode_transaction hsize write a d⟩

/-- Settles O4: fixed words, evaluated. -/
theorem sampleWordsDecode : Obligations.SampleWordsDecode := by
  unfold Obligations.SampleWordsDecode
  decide

end Sys2Proof

/-! Several stores in a row (20_memory.md R54): what a command's completion and an aborting reset do to memory. -/

namespace Sys2Proof.Machine

/-- Bytes stored at each of a list of addresses, in order. -/
def Memory.storeAll (m : Memory) (writes : List (Nat × List Byte)) : Memory :=
  writes.foldl (fun m w => m.store w.1 w.2) m

/-- The address lies in a range, given by its first address and its length. -/
def InRange (x : Nat) (r : Nat × Nat) : Prop := r.1 ≤ x ∧ x < r.1 + r.2

/-- Every write lies in a listed range, at its start. -/
def WritesInside (writes : List (Nat × List Byte)) (ranges : List (Nat × Nat)) : Prop :=
  ∀ w ∈ writes, ∃ r ∈ ranges, w.1 = r.1 ∧ w.2.length ≤ r.2

@[simp] theorem Memory.storeAll_nil (m : Memory) : m.storeAll [] = m := rfl

@[simp] theorem Memory.storeAll_cons (m : Memory) (w : Nat × List Byte) (writes : List (Nat × List Byte)) :
    m.storeAll (w :: writes) = (m.store w.1 w.2).storeAll writes := rfl

theorem Memory.storeAll_wf {m : Memory} (h : m.wf) (writes : List (Nat × List Byte)) : (m.storeAll writes).wf := by
  induction writes generalizing m with
  | nil => exact h
  | cons w writes ih => exact ih (Memory.store_wf h _ _)

theorem Memory.peek_storeAll_outside {m : Memory} {writes : List (Nat × List Byte)} {x : Nat}
    (h : ∀ w ∈ writes, ¬InRange x (w.1, w.2.length)) : Memory.peek (m.storeAll writes) x = Memory.peek m x := by
  induction writes generalizing m with
  | nil => rfl
  | cons w writes ih =>
    obtain ⟨hw, hrest⟩ := List.forall_mem_cons.1 h
    rw [Memory.storeAll_cons, ih hrest, Memory.peek_store_outside]
    simp only [InRange] at hw
    omega

theorem WritesInside.outside {writes : List (Nat × List Byte)} {ranges : List (Nat × Nat)}
    (h : WritesInside writes ranges) {x : Nat} (hx : ∀ r ∈ ranges, ¬InRange x r) :
    ∀ w ∈ writes, ¬InRange x (w.1, w.2.length) := by
  intro w hw hin
  obtain ⟨r, hr, haddr, hlen⟩ := h w hw
  refine hx r hr ?_
  simp only [InRange] at hin ⊢
  omega

/-- A written byte stays written. -/
theorem Memory.isSome_peek_store {m : Memory} {x : Nat} (h : (Memory.peek m x).isSome = true) (a : Nat)
    (bytes : List Byte) : (Memory.peek (m.store a bytes) x).isSome = true := by
  by_cases hin : a ≤ x ∧ x < a + bytes.length
  · rw [Memory.peek_store_inside hin.1 hin.2, List.getElem?_eq_getElem (by omega)]
    rfl
  · rwa [Memory.peek_store_outside (by omega)]

theorem Memory.isSome_peek_storeAll {m : Memory} {x : Nat} (h : (Memory.peek m x).isSome = true)
    (writes : List (Nat × List Byte)) : (Memory.peek (m.storeAll writes) x).isSome = true := by
  induction writes generalizing m with
  | nil => exact h
  | cons w writes ih => exact ih (Memory.isSome_peek_store h _ _)

/-- The ranges are parts of buffers that hold something, from their first byte on. -/
def InBuffers (ranges : List (Nat × Nat)) : Prop :=
  ∀ r ∈ ranges, ∃ b : Buffer, b.txSide = true ∧ r.1 = b.base ∧ r.2 ≤ b.storable

/-- Bytes stored in the storable part of a buffer keep the memory inside the buffers. -/
theorem Memory.inside_store {m : Memory} (h : m.inside) {b : Buffer} {i : Nat} {bytes : List Byte}
    (hlen : bytes ≠ [] → i + bytes.length ≤ b.storable) : (m.store (b.base + i) bytes).inside := by
  intro c hc
  rcases Memory.mem_store hc with hc | ⟨hlo, hhi⟩
  · exact h c hc
  · have hne : bytes ≠ [] := by rintro rfl; rw [List.length_nil] at hhi; omega
    have := hlen hne
    exact ⟨b, by omega, by omega⟩

theorem Memory.inside_storeAll {m : Memory} (h : m.inside) {writes : List (Nat × List Byte)}
    {ranges : List (Nat × Nat)} (hin : WritesInside writes ranges) (hbuf : InBuffers ranges) :
    (m.storeAll writes).inside := by
  induction writes generalizing m with
  | nil => exact h
  | cons w writes ih =>
    obtain ⟨⟨r, hr, haddr, hlen⟩, hrest⟩ := List.forall_mem_cons.1 hin
    obtain ⟨b, -, hbase, hsize⟩ := hbuf r hr
    refine ih ?_ hrest
    have hstart : w.1 = b.base + 0 := haddr.trans hbase
    change Memory.inside (m.store w.1 w.2)
    rw [hstart]
    exact Memory.inside_store h fun _ => by omega

/-- An address of a buffer other than the TX-side ones lies in no range of them. -/
theorem InBuffers.not_rx {ranges : List (Nat × Nat)} (h : InBuffers ranges) {j : Nat} (hj : j < 4096) :
    ∀ r ∈ ranges, ¬InRange (Buffer.rx.base + j) r := by
  rintro r hr ⟨hlo, hhi⟩
  obtain ⟨b, hside, hbase, hlen⟩ := h r hr
  have hb : Buffer.rx ≠ b := by rintro rfl; cases hside
  have := b.storable_le_size
  exact Buffer.disjoint hb (i := j) (j := Buffer.rx.base + j - b.base) hj (by omega) (by omega)

/-- Unspecified values are stored like any others. -/
theorem Memory.unspecify_eq_storeAll (m : Memory) (draw : Nat) (ranges : List (Nat × Nat)) :
    m.unspecify draw ranges = m.storeAll (ranges.map fun r => (r.1, unspecifiedBytes draw r.1 r.2)) := by
  rw [Memory.unspecify, Memory.storeAll, List.foldl_map]

theorem writesInside_unspecified (draw : Nat) (ranges : List (Nat × Nat)) :
    WritesInside (ranges.map fun r => (r.1, unspecifiedBytes draw r.1 r.2)) ranges := by
  intro w hw
  obtain ⟨r, hr, rfl⟩ := List.mem_map.1 hw
  exact ⟨r, hr, rfl, by simp [unspecifiedBytes]⟩

theorem Memory.peek_storeAll_congr {m n : Memory} {x : Nat} (h : Memory.peek m x = Memory.peek n x)
    (writes : List (Nat × List Byte)) : Memory.peek (m.storeAll writes) x = Memory.peek (n.storeAll writes) x := by
  induction writes generalizing m n with
  | nil => exact h
  | cons w writes ih =>
    refine ih ?_
    by_cases hin : w.1 ≤ x ∧ x < w.1 + w.2.length
    · rw [Memory.peek_store_inside hin.1 hin.2, Memory.peek_store_inside hin.1 hin.2]
    · rw [Memory.peek_store_outside (by omega), Memory.peek_store_outside (by omega), h]

/-- Two stores that share no address commute. -/
theorem Memory.store_storeAll_comm {m : Memory} (h : m.wf) {a : Nat} {bytes : List Byte}
    {writes : List (Nat × List Byte)}
    (hdisj : ∀ x, InRange x (a, bytes.length) → ∀ w ∈ writes, ¬InRange x (w.1, w.2.length)) :
    (m.storeAll writes).store a bytes = (m.store a bytes).storeAll writes := by
  refine Memory.eq_of_peek (Memory.store_wf (Memory.storeAll_wf h _) _ _) (Memory.storeAll_wf (Memory.store_wf h _ _) _)
    fun x => ?_
  by_cases hin : InRange x (a, bytes.length)
  · obtain ⟨hlo, hhi⟩ := hin
    rw [Memory.peek_store_inside hlo hhi, Memory.peek_storeAll_outside (hdisj x ⟨hlo, hhi⟩),
      Memory.peek_store_inside hlo hhi]
  · rw [Memory.peek_store_outside (by simp only [InRange] at hin; omega)]
    exact Memory.peek_storeAll_congr (Memory.peek_store_outside (by simp only [InRange] at hin; omega)).symm writes

end Sys2Proof.Machine

/-! What a command's completion does (45_control.md R135), said once: the registers and the stores of its rule, what they
depend on, and where they lie. -/

namespace Sys2Proof.Machine

/-! ### The result of a command's rule -/

/-- The TX engine's registers after a command's rule, and the stores it makes. -/
abbrev CommandResult := TxEngine × List (Nat × List Byte)

/-- The result of a waveform (R116, R120). -/
def waveResult (tx : TxEngine) (shape : WaveShape) (score : List Tones) : CommandResult :=
  (tx.played shape score, shape.channelList.map fun c =>
    ((Buffer.samp c).base, (((playScore Oscillators.atStart score).2.map fun h => h[c]).flatMap (leBytes 4))))

/-- The result of the rule of a command word, or its error. -/
def State.commandResult (s : State) (w : Word) : Except ErrorCode CommandResult :=
  match w.toNat with
  | 0 => .ok (s.tx, [])
  | 1 => .ok ({ s.tx with hdrAvail := 20#32, outLen := 20#32, outChannels := 0#32 },
      [(Buffer.hdr.base, headerBytes s.tx.params)])
  | 2 =>
    if s.tx.hdrAvail.toNat < 20 then .error .headerDecode
    else .ok ({ s.tx with parsed := headerParams (s.byteAt .hdr), outLen := 0#32, outChannels := 0#32 }, [])
  | 3 => (checkPack s).map fun n =>
      ({ s.tx with symCount := BitVec.ofNat 32 n, outLen := BitVec.ofNat 32 n, outChannels := 0#32 },
        [(Buffer.sym.base, (s.packedSymbols.map (BitVec.ofNat 32)).flatMap (leBytes 4))])
  | 4 => (checkUnpack s).map fun _ =>
      ({ s.tx with outLen := BitVec.ofNat 32 s.unpackedBytes.length, outChannels := 0#32 },
        [(Buffer.unp.base, s.unpackedBytes)])
  | 5 => (checkSynth s).map fun shape => waveResult s.tx shape s.synthScore
  | 6 => (checkBuildFrame s).map fun shape => waveResult s.tx shape s.frameScore
  | _ => .error .illegalCmd

/-- The state with a command's result. -/
def State.withResult (s : State) (r : CommandResult) : State := { s with tx := r.1, mem := s.mem.storeAll r.2 }

theorem State.writeSamples_mem (s : State) (frames : List (Vector Word 8)) (channels : List (Fin 8)) :
    (s.writeSamples frames channels).mem
      = s.mem.storeAll (channels.map fun c => ((Buffer.samp c).base, (frames.map fun h => h[c]).flatMap (leBytes 4))) := by
  induction channels generalizing s with
  | nil => rfl
  | cons c channels ih =>
    have hstep : s.writeSamples frames (c :: channels)
        = (s.writeWords (.samp c) 0 (frames.map fun h => h[c])).writeSamples frames channels := rfl
    rw [hstep, ih, State.writeWords_mem, Nat.mul_zero, Nat.add_zero, List.map_cons, Memory.storeAll_cons]

theorem State.playWaveform_eq_withResult (s : State) (shape : WaveShape) (score : List Tones) :
    s.playWaveform shape score = s.withResult (waveResult s.tx shape score) := by
  rw [State.playWaveform_eq, State.writeSamples_mem]
  rfl

/-- A passed check of UNPACK gives the payload length. -/
theorem checkUnpack_ok {s : State} {count : Nat} (h : checkUnpack s = .ok count) :
    count = s.tx.params.payloadLen.toNat := by
  rw [checkUnpack_eq] at h
  split_ifs at h
  exact (Except.ok.inj h).symm

/-- A command's effect is its result. -/
theorem effect_eq (w : Word) (s : State) : effect w s = (s.commandResult w).map s.withResult := by
  unfold effect State.commandResult
  generalize w.toNat = n
  match n with
  | 0 | 1 => rfl
  | 2 =>
    simp only [effectParseHeader, hdrBytes_eq]
    split <;> rfl
  | 3 =>
    cases h : checkPack s with
    | error e => exact effectPack_of_error h
    | ok n => exact effectPack_of_ok h
  | 4 =>
    cases h : checkUnpack s with
    | error e => exact effectUnpack_of_error h
    | ok count => exact effectUnpack_of_ok (checkUnpack_ok h ▸ h)
  | 5 =>
    cases h : checkSynth s with
    | error e => exact effectSynth_of_error h
    | ok shape => exact (effectSynth_of_ok h).trans (congrArg _ (State.playWaveform_eq_withResult _ _ _))
  | 6 =>
    cases h : checkBuildFrame s with
    | error e => exact effectBuildFrame_of_error h
    | ok shape => exact (effectBuildFrame_of_ok h).trans (congrArg _ (State.playWaveform_eq_withResult _ _ _))
  | _ + 7 => rfl

/-- The status a completion leaves in the TX engine. -/
def TxEngine.ended (tx : TxEngine) (code : Byte) : TxEngine := { tx with pending := none, done := true, err := code }

/-- Everything a completion can do (R135): nothing when idle, else the command's result with the status of a success, or
the status of a failure. -/
theorem State.complete_result (s : State) :
    (s.tx.pending = none ∧ s.complete = s)
    ∨ (∃ w r, s.tx.pending = some w ∧ s.commandResult w = .ok r ∧ s.complete = { s with
        tx := r.1.ended 0#8, mem := s.mem.storeAll r.2, irqStatus := s.irqStatus ||| irqTxDone })
    ∨ (∃ w e, s.tx.pending = some w ∧ s.commandResult w = .error e ∧ s.complete = { s with
        tx := s.tx.ended e.code, irqStatus := s.irqStatus ||| irqTxErr }) := by
  cases hp : s.tx.pending with
  | none => exact .inl ⟨rfl, State.complete_idle hp⟩
  | some w =>
    cases hr : s.commandResult w with
    | ok r =>
      have he : effect w s = .ok (s.withResult r) := by rw [effect_eq, hr]; rfl
      exact .inr (.inl ⟨w, r, rfl, hr, by rw [State.complete_ok hp he]; rfl⟩)
    | error e =>
      have he : effect w s = .error e := by rw [effect_eq, hr]; rfl
      refine .inr (.inr ⟨w, e, rfl, hr, ?_⟩)
      rw [State.complete_error hp he, State.finish, if_neg e.code_ne_zero]
      rfl

/-! ### What passed checks say (41_symbol_codec.md R101, R102; 42_synthesizer.md R116; 43_frame_assembler.md R120) -/

theorem checkPack_ok {s : State} {n : Nat} (h : checkPack s = .ok n) :
    1 ≤ s.tx.params.symbolBits.toInt ∧ s.tx.params.payloadLen.toNat ≤ 4096 ∧ s.packedSymbols.length = n ∧ n ≤ 262144
      ∧ n = (8 * s.tx.params.payloadLen.toNat + (s.tx.params.symbolBits.toNat - 1)) / s.tx.params.symbolBits.toNat
          * s.tx.replication.toNat := by
  have hchain := (checkPack_eq s).symm.trans h
  split_ifs at hchain with hsb hr hlen hover
  have hpos := hsb.1
  rw [toNat_toInt_of_pos hpos] at hchain hover
  have hn := Except.ok.inj hchain
  refine ⟨hpos, by omega, ?_, by omega, hn.symm⟩
  have hsbNat : 1 ≤ s.tx.params.symbolBits.toNat := by rw [← toNat_toInt_of_pos hpos]; omega
  rw [State.packedSymbols, packSymbols_length hsbNat, State.readBytes_length, ceilDiv_eq hsbNat, hn]

theorem checkUnpack_ok_le {s : State} {count : Nat} (h : checkUnpack s = .ok count) :
    count ≤ 4096 ∧ s.tx.symCount.toNat ≤ 262144 := by
  have hcount := checkUnpack_ok h
  rw [checkUnpack_eq] at h
  split_ifs at h
  omega

theorem checkSynth_ok {s : State} {shape : WaveShape} (h : checkSynth s = .ok shape) :
    shape = s.synthShape ∧ (s.tx.params.modulation.toInt = 0 ∨ 1 ≤ s.tx.params.symbolBits.toInt)
      ∧ shape.channels ≤ 8 ∧ shape.instants ≤ 262144 ∧ s.tx.symCount.toNat ≤ 262144 := by
  have hchain := (checkSynth_eq s).symm.trans h
  split_ifs at hchain with hmod htwo hsb _ _ _ _ hcount hover
  obtain rfl := Except.ok.inj hchain
  refine ⟨rfl, by omega, ?_, by omega, by omega⟩
  unfold State.synthShape
  simp only
  split_ifs with hzero
  · exact Nat.le_of_ble_eq_true rfl
  · simp only
    omega

theorem checkBuildFrame_ok {s : State} {shape : WaveShape} (h : checkBuildFrame s = .ok shape) :
    shape = s.frameShape ∧ 1 ≤ s.tx.params.symbolBits.toInt ∧ shape.channels ≤ 8 ∧ shape.instants ≤ 262144
      ∧ s.tx.params.payloadLen.toNat ≤ 4096 := by
  have hchain := (checkBuildFrame_eq s).symm.trans h
  by_cases hzero : s.tx.params.modulation.toInt = 0
  all_goals
    simp only [hzero, if_true, if_false] at hchain
    split_ifs at hchain with hmod htwo hsb _ _ _ _ hlen hover
    obtain rfl := Except.ok.inj hchain
    refine ⟨rfl, by omega, ?_, by omega, by omega⟩
    simp only [State.frameShape, hzero, if_true, if_false]
    omega

/-! ### Where the stores lie (70_reset_and_hazards.md R160) -/

theorem Except.map_eq_ok {ε α β : Type} {x : Except ε α} {f : α → β} {b : β} (h : x.map f = .ok b) :
    ∃ a, x = .ok a ∧ f a = b := by
  cases x with
  | error e => cases h
  | ok a => exact ⟨a, rfl, Except.ok.inj h⟩

/-- The sample ranges of a waveform. -/
def WaveShape.ranges (shape : WaveShape) : List (Nat × Nat) :=
  shape.channelList.map fun c => ((Buffer.samp c).base, 4 * shape.instants)

theorem waveResult_inside {shape : WaveShape} {score : List Tones} (h : score.length = shape.instants) (tx : TxEngine) :
    WritesInside (waveResult tx shape score).2 shape.ranges := by
  intro w hw
  obtain ⟨c, hc, rfl⟩ := List.mem_map.1 hw
  refine ⟨_, List.mem_map.2 ⟨c, hc, rfl⟩, rfl, ?_⟩
  rw [flatMap_leBytes_length, List.length_map, playScore_length, h]

theorem WaveShape.ranges_inBuffers {shape : WaveShape} (h : shape.instants ≤ 262144) : InBuffers shape.ranges := by
  intro r hr
  obtain ⟨c, -, rfl⟩ := List.mem_map.1 hr
  exact ⟨.samp c, rfl, rfl, by rw [Buffer.storable_samp]; omega⟩

theorem writesInside_singleton {a : Nat} {bytes : List Byte} {n : Nat} (h : bytes.length ≤ n) :
    WritesInside [(a, bytes)] [(a, n)] := by
  intro w hw
  obtain rfl := List.mem_singleton.1 hw
  exact ⟨_, List.mem_singleton_self _, rfl, h⟩

theorem inBuffers_singleton {b : Buffer} {n : Nat} (hside : b.txSide = true) (h : n ≤ b.storable) :
    InBuffers [(b.base, n)] := by
  intro r hr
  obtain rfl := List.mem_singleton.1 hr
  exact ⟨b, hside, rfl, h⟩

/-- The destination of a command word, its checks answered. -/
theorem destination_eq (w : Word) (s : State) : destination w s =
    match w.toNat with
    | 1 => [(Buffer.hdr.base, 20)]
    | 3 => match checkPack s with | .ok n => [(Buffer.sym.base, 4 * n)] | .error _ => []
    | 4 => match checkUnpack s with | .ok count => [(Buffer.unp.base, count)] | .error _ => []
    | 5 => match checkSynth s with | .ok shape => shape.ranges | .error _ => []
    | 6 => match checkBuildFrame s with | .ok shape => shape.ranges | .error _ => []
    | _ => [] := rfl

/-- A completion stores inside the destination only. -/
theorem commandResult_inside {s : State} {w : Word} {r : CommandResult} (h : s.commandResult w = .ok r) :
    WritesInside r.2 (destination w s) := by
  unfold State.commandResult at h
  rw [destination_eq]
  generalize w.toNat = n at h ⊢
  match n with
  | 0 =>
    obtain rfl := Except.ok.inj h
    exact nofun
  | 1 =>
    obtain rfl := Except.ok.inj h
    exact writesInside_singleton (headerBytes_length _).le
  | 2 =>
    simp only at h
    split at h
    · cases h
    · obtain rfl := Except.ok.inj h
      exact nofun
  | 3 =>
    obtain ⟨n, hcheck, rfl⟩ := Except.map_eq_ok h
    simp only [hcheck]
    refine writesInside_singleton ?_
    rw [flatMap_leBytes_length, List.length_map, (checkPack_ok hcheck).2.2.1]
  | 4 =>
    obtain ⟨count, hcheck, rfl⟩ := Except.map_eq_ok h
    simp only [hcheck]
    exact writesInside_singleton (checkUnpack_ok hcheck ▸ (unpackSymbols_length _ _ _).2)
  | 5 =>
    obtain ⟨shape, hcheck, rfl⟩ := Except.map_eq_ok h
    obtain ⟨rfl, hscheme, -⟩ := checkSynth_ok hcheck
    simp only [hcheck]
    exact waveResult_inside (State.synthScore_length hscheme) _
  | 6 =>
    obtain ⟨shape, hcheck, rfl⟩ := Except.map_eq_ok h
    obtain ⟨rfl, hpos, -⟩ := checkBuildFrame_ok hcheck
    simp only [hcheck]
    exact waveResult_inside (State.frameScore_length hpos) _
  | _ + 7 => cases h

/-- Every destination lies in the TX-side buffers. -/
theorem destination_inBuffers (w : Word) (s : State) : InBuffers (destination w s) := by
  rw [destination_eq]
  split
  · exact inBuffers_singleton rfl (by decide)
  · split
    next hcheck =>
      obtain ⟨-, -, -, hn, -⟩ := checkPack_ok hcheck
      exact inBuffers_singleton rfl (by rw [Buffer.storable_sym]; omega)
    next => exact nofun
  · split
    next hcheck => exact inBuffers_singleton rfl (checkUnpack_ok_le hcheck).1
    next => exact nofun
  · split
    next hcheck =>
      obtain ⟨-, -, -, hinstants, -⟩ := checkSynth_ok hcheck
      exact WaveShape.ranges_inBuffers hinstants
    next => exact nofun
  · split
    next hcheck =>
      obtain ⟨-, -, -, hinstants, -⟩ := checkBuildFrame_ok hcheck
      exact WaveShape.ranges_inBuffers hinstants
    next => exact nofun
  · exact nofun

/-- A completion's memory: stores inside the pending command's destination, none when idle or failing. -/
theorem State.complete_mem (s : State) :
    ∃ writes, s.complete.mem = s.mem.storeAll writes
      ∧ (writes = [] ∨ ∃ w, s.tx.pending = some w ∧ WritesInside writes (destination w s)) := by
  rcases State.complete_result s with ⟨-, heq⟩ | ⟨w, r, hp, hr, heq⟩ | ⟨w, e, -, -, heq⟩
  · exact ⟨[], by rw [heq]; rfl, .inl rfl⟩
  · exact ⟨r.2, by rw [heq], .inr ⟨w, hp, commandResult_inside hr⟩⟩
  · exact ⟨[], by rw [heq]; rfl, .inl rfl⟩

end Sys2Proof.Machine

/-! What an instruction and a step can do (45_control.md; 20_memory.md R69), said once: the frames and the invariants are
read off from it. -/

namespace Sys2Proof.Machine

/-! ### The receiver's slot and the resets as states -/

/-- The state after a slot write (44_receiver.md R121). -/
def State.pushSlot (s : State) (code : Word) : State :=
  { s with
    rx := (rxStep s.rx code).rx, mem := s.mem.store (Buffer.rx.base + s.rx.pu.nout) (rxStep s.rx code).bytes
    irqStatus := s.irqStatus ||| (rxStep s.rx code).irq, port := some ⟨false, 0#32⟩ }

theorem exec_rxPushSlot (code : Word) (s : State) : exec (.rxPushSlot code) s = .next (s.pushSlot code) := rfl

theorem exec_softReset (ignored : BitVec 31) (s : State) :
    exec (.softReset ignored) s = .next s.softReset.acknowledge := rfl

/-- A soft reset stores unspecified values in the destination of a pending command, and nothing when idle (R160). -/
theorem State.softReset_mem (s : State) :
    ∃ writes, s.softReset.mem = s.mem.storeAll writes
      ∧ (writes = [] ∨ ∃ w, s.tx.pending = some w ∧ WritesInside writes (destination w s)) := by
  cases hp : s.tx.pending with
  | none => exact ⟨[], by simp [State.softReset, hp], .inl rfl⟩
  | some w =>
    refine ⟨_, ?_, .inr ⟨w, rfl, writesInside_unspecified s.nextDraw (destination w s)⟩⟩
    simp only [State.softReset, hp]
    exact Memory.unspecify_eq_storeAll _ _ _

/-! ### Instructions -/

/-- What an instruction can do to a state. -/
inductive State.Access (s : State) : Instr → State → Prop
  /-- A read, or a bus error: the port's answer alone. -/
  | answered (i : Instr) (answer : PortAnswer) : s.Access i { s with port := some answer }
  /-- A command word is accepted (R134). -/
  | accepted {i : Instr} {w : Word} (hi : commandWord i = some w) (hidle : s.tx.pending = none) :
      s.Access i { s with
        tx := { s.tx with pending := some w, done := false, err := 0#8, lastCmd := w.setWidth 8 }
        port := some ⟨false, 0#32⟩ }
  /-- A slot. -/
  | slot (code : Word) : s.Access (.rxPushSlot code) (s.pushSlot code)
  /-- A soft reset. -/
  | softReset (ignored : BitVec 31) : s.Access (.softReset ignored) s.softReset.acknowledge
  /-- A receiver reset. -/
  | rxReset (ignored : BitVec 30) :
      s.Access (.rxReset ignored) ({ s with rx := RxEngine.resetOver s.rx.hbytes } : State).acknowledge
  /-- An interrupt acknowledge. -/
  | irqAck (ignored : BitVec 28) (clear : BitVec 4) :
      s.Access (.irqAck ignored clear) ({ s with irqStatus := s.irqStatus &&& ~~~clear } : State).acknowledge
  /-- A plain write of the page, to a register that the busy window leaves open. -/
  | page {i : Instr} {offset : Nat} (data : Word) (hplain : actsOnReceiver i = false)
      (hopen : ∀ r, Reg.atOffset offset = some r → s.busy = false ∨ r.txSide = false) :
      s.Access i (s.writePage offset data).acknowledge
  /-- A write of a TX-side buffer while idle, inside its storable part. -/
  | buffer {i : Instr} {b : Buffer} {index : Nat} {bytes : List Byte} (hplain : actsOnReceiver i = false)
      (hside : b.txSide = true) (hidle : s.busy = false) (hfits : bytes ≠ [] → index + bytes.length ≤ b.storable) :
      s.Access i (s.writeBytes b index bytes).acknowledge

theorem State.acceptCommand_access {s : State} {i : Instr} {w : Word} (hi : commandWord i = some w) :
    s.Access i (s.acceptCommand w) := by
  cases hp : s.tx.pending with
  | none => rw [State.acceptCommand_idle hp]; exact .accepted hi hp
  | some v => rw [State.acceptCommand_busy hp]; exact .answered i _

theorem State.busRead_access (s : State) (i : Instr) (n a : Nat) : s.Access i (s.busRead n a) := by
  rcases State.busRead_cases s n a with ⟨-, heq⟩ | ⟨-, heq⟩ <;> rw [heq] <;> exact .answered i _

/-- The bytes an access of `n` bytes stores at an index end inside the storable part. -/
theorem take_leBytes_fits {n i storable : Nat} (data : Word) :
    (leBytes n data).take (storable - i) ≠ [] → i + ((leBytes n data).take (storable - i)).length ≤ storable := by
  intro hne
  have hpos := List.length_pos_iff.2 hne
  rw [List.length_take] at hpos ⊢
  omega

theorem State.busWrite_access {s : State} {i : Instr} (hplain : actsOnReceiver i = false) (n a : Nat) (data : Word) :
    s.Access i (s.busWrite n a data) := by
  rcases State.busWrite_cases s n a data with ⟨hadmits, heq⟩ | ⟨-, heq⟩
  case inr => rw [heq]; exact .answered i _
  rw [heq]
  rcases State.busStore_cases s n a data with ⟨offset, ht, hstore⟩ | ⟨b, j, ht, hstore⟩ | ⟨-, hstore⟩
  · rw [hstore]
    exact .page data hplain (State.admits_register ht hadmits).2.2
  · obtain ⟨-, -, hwritable, hopen⟩ := State.admits_buffer ht hadmits
    have hside : b.txSide = true := by cases b <;> simp_all [Buffer.writable, Buffer.txSide]
    rw [hstore]
    exact .buffer hplain hside (hopen.resolve_right (by rw [hside]; exact nofun)) (take_leBytes_fits data)
  · rw [hstore]
    exact .answered i _

/-- No instruction stops the machine. -/
theorem exec_next (i : Instr) (s : State) : ∃ t, exec i s = .next t := by cases i <;> exact ⟨_, rfl⟩

/-- Everything an instruction can do. -/
theorem exec_access {i : Instr} {s t : State} (h : exec i s = .next t) : s.Access i t := by
  cases i
  case rxPushSlot code => exact Host.Outcome.next.inj h ▸ .slot code
  case softReset ignored => exact Host.Outcome.next.inj h ▸ .softReset ignored
  case rxReset ignored => exact Host.Outcome.next.inj h ▸ .rxReset ignored
  case irqAck ignored clear => exact Host.Outcome.next.inj h ▸ .irqAck ignored clear
  case busWrite8 addr data => exact Host.Outcome.next.inj h ▸ State.busWrite_access rfl _ _ _
  case busWrite16 addr data => exact Host.Outcome.next.inj h ▸ State.busWrite_access rfl _ _ _
  case busWrite32 addr data => exact Host.Outcome.next.inj h ▸ State.busWrite_access rfl _ _ _
  case busRead8 addr data => exact Host.Outcome.next.inj h ▸ State.busRead_access s _ _ _
  case busRead16 addr data => exact Host.Outcome.next.inj h ▸ State.busRead_access s _ _ _
  case busRead32 addr data => exact Host.Outcome.next.inj h ▸ State.busRead_access s _ _ _
  all_goals exact Host.Outcome.next.inj h ▸ State.acceptCommand_access rfl

/-! ### Steps -/

theorem State.takeEvent_of_empty {s : State} (h : s.agenda = []) : s.takeEvent = s := by
  rw [State.takeEvent, h, List.tail_nil, ← h]

/-- Everything a step can do. -/
theorem step_cases {s t : State} (h : step s = .next t) :
    (∃ i, s.takeEvent.Access i t) ∨ t = s.takeEvent.complete ∨ t = s.takeEvent.powerOn := by
  unfold step State.advance at h
  cases hagenda : s.agenda with
  | nil =>
    simp only [hagenda, List.head?_nil] at h
    rw [State.takeEvent_of_empty hagenda]
    exact .inr (.inl (Host.Outcome.next.inj h).symm)
  | cons e rest =>
    simp only [hagenda, List.head?_cons] at h
    cases e with
    | bus word =>
      unfold State.runEvent State.runTransaction at h
      simp only at h
      split at h
      · exact .inl ⟨_, exec_access h⟩
      · cases h
    | completion => exact .inr (.inl (Host.Outcome.next.inj h).symm)
    | powerOn => exact .inr (.inr (Host.Outcome.next.inj h).symm)

end Sys2Proof.Machine

/-! The invariants of a run (10_state.md R33 to R49; 20_memory.md R54, R64): every step keeps the memory canonical and
inside the buffers, and both engines sound. -/

namespace Sys2Proof.Machine

/-! ### The receiver stays sound under a slot (44_receiver.md R121 to R128) -/

theorem checkHeader_eq_none_bounds {p : Params} (h : checkHeader p = none) :
    1 ≤ p.symbolBits.toNat ∧ p.symbolBits.toNat ≤ 4 ∧ p.payloadLen.toNat ≤ 4096 := by
  obtain ⟨-, hlo, hhi, -, -, hlen, hmax⟩ := checkHeader_none h
  have hsb := toNat_toInt_of_pos hlo
  have hcond := BitVec.toInt_eq_toNat_cond p.payloadLen
  have := p.payloadLen.isLt
  split at hcond <;> omega

/-- The reset receiver is sound, whatever its header bytes. -/
theorem RxEngine.resetOver_sound (header : Vector Byte 20) : (RxEngine.resetOver header).Sound where
  base := fun _ => ⟨rfl, rfl⟩
  negotiated := nofun
  headerUnpacker := ⟨rfl, rfl, Nat.zero_lt_succ 7, Nat.zero_le 20, nofun⟩
  payloadUnpacker := ⟨le_rfl, Nat.le_of_ble_eq_true rfl, Nat.zero_le _, Nat.zero_lt_succ 7, le_rfl⟩
  noBytes := fun _ => rfl
  outLen := rfl
  err := ⟨fun _ => nofun, fun _ => rfl⟩
  unset := fun _ => rfl
  idle := fun _ => rfl
  withheldBins := fun i hi => absurd hi (Fin.not_lt_zero i)

namespace RxEngine.Sound

variable {rx : RxEngine} (h : rx.Sound)
include h

/-- The slot count and the slot remembered are free. -/
theorem seen (slots : Word) (prev : Option SlotMemory) : RxEngine.Sound { rx with slots := slots, prev := prev } :=
  ⟨h.base, h.negotiated, h.headerUnpacker, h.payloadUnpacker, h.noBytes, h.outLen, h.err, h.unset, h.idle, h.withheldBins⟩

theorem withProg {p : Fin 6} (hstage : rx.stage = .locate ∨ rx.stage = .payload)
    (hbins : ∀ i : Fin 6, i < p → (rx.pb[i]).isSome = true) : RxEngine.Sound { rx with prog := p } :=
  ⟨h.base, h.negotiated, h.headerUnpacker, h.payloadUnpacker, h.noBytes, h.outLen, h.err, h.unset,
    fun hidle => by rcases hstage with hs | hs <;> simp [hs] at hidle, hbins⟩

/-- A matching slot extends the match over a bin. -/
theorem extended {s : Option (Fin 32)} (hstage : rx.stage = .locate ∨ rx.stage = .payload) (hfits : rx.fits s = true)
    (hp : rx.prog.val + 1 < 6) : RxEngine.Sound { rx with prog := ⟨rx.prog.val + 1, hp⟩ } := by
  obtain ⟨k, -, hbin⟩ := (rx.fits_iff s).1 hfits
  refine h.withProg hstage fun i hi => ?_
  rcases Nat.lt_succ_iff_lt_or_eq.1 hi with hlt | heq
  · exact h.withheldBins i hlt
  · obtain rfl : i = rx.prog := Fin.ext heq
    rw [hbin]
    rfl

theorem keeps_retest {s : Option (Fin 32)} (hstage : rx.stage = .locate ∨ rx.stage = .payload) : (rx.retest s).Sound := by
  rcases RxEngine.retest_cases rx s with ⟨heq, k, -, hbin⟩ | ⟨heq, -⟩
  · rw [heq]
    refine h.withProg hstage fun i hi => ?_
    obtain rfl : i = 0 := Fin.lt_one_iff i |>.1 hi
    rw [hbin]
    rfl
  · rw [heq]
    exact h.withProg hstage fun i hi => absurd hi (Fin.not_lt_zero i)

theorem keeps_locateStep (hs : rx.stage = .locate) (s : Option (Fin 32)) : (locateStep rx s).rx.Sound := by
  rcases locateStep_cases rx s with ⟨hp, hfits, heq⟩ | ⟨-, -, heq⟩ | ⟨-, heq⟩
  · rw [heq]
    exact h.extended (.inl hs) hfits hp
  · rw [heq]
    have hbase : rx.stage.onBaseGrid = true := by rw [hs]; rfl
    exact {
      base := fun _ => h.base hbase
      negotiated := nofun
      headerUnpacker := ⟨rfl, rfl, Nat.zero_lt_succ 7, Nat.zero_le 20, fun _ => Nat.zero_lt_succ 19⟩
      payloadUnpacker := h.payloadUnpacker
      noBytes := fun _ => h.noBytes hbase
      outLen := h.outLen.trans (by rw [hs]; rfl)
      err := ⟨fun _ => nofun, fun _ => h.err.2 (by rw [hs]; exact nofun)⟩
      unset := fun _ => h.unset (.inl hs)
      idle := fun _ => rfl
      withheldBins := fun i hi => absurd hi (Fin.not_lt_zero i) }
  · rw [heq]
    exact h.keeps_retest (.inl hs)

/-- What one symbol does to the header unpacker. -/
theorem headerPush (symbol : Nat) : (rx.hu.push symbol).1.sb = 1 ∧ (rx.hu.push symbol).1.target = 20
    ∧ (rx.hu.push symbol).1.nacc < 8 ∧ (rx.hu.push symbol).1.nout ≤ 20 := by
  obtain ⟨hsb, htarget, hnacc, hnout, -⟩ := h.headerUnpacker
  obtain ⟨psb, ptarget, -, pnout, pnacc⟩ := Unpacker.push_facts rx.hu symbol hnacc (htarget ▸ hnout)
  exact ⟨psb.trans hsb, ptarget.trans htarget, pnacc, htarget ▸ pnout⟩

theorem keeps_headerStep (hs : rx.stage = .header) (s : Option (Fin 32)) : (headerStep rx s).rx.Sound := by
  have hbase : rx.stage.onBaseGrid = true := by rw [hs]; rfl
  have hout : rx.outLen = 0#32 := h.outLen.trans (by rw [hs]; rfl)
  have herr : rx.err = 0#8 := h.err.2 (by rw [hs]; exact nofun)
  rcases headerStep_cases rx s with ⟨-, heq⟩ | ⟨k, -, hmore, heq⟩ | ⟨k, -, -, heq⟩
  · rw [heq]
    exact h
  · rw [heq]
    obtain ⟨hsb, htarget, hnacc, hnout⟩ := h.headerPush k.val
    exact ⟨h.base, h.negotiated, ⟨hsb, htarget, hnacc, hnout, fun _ => lt_of_le_of_ne hnout hmore⟩, h.payloadUnpacker,
      h.noBytes, h.outLen, h.err, h.unset, h.idle, h.withheldBins⟩
  · rw [heq]
    obtain ⟨hsb, htarget, hnacc, hnout⟩ := h.headerPush k.val
    obtain ⟨p, -, ⟨e, -, heq⟩ | ⟨hcheck, heq⟩⟩ := rxValidate_cases { rx with
      hu := (rx.hu.push k.val).1, hbytes := storeHeaderBytes rx.hbytes rx.hu.nout (rx.hu.push k.val).2 }
    · rw [heq]
      exact {
        base := fun _ => h.base hbase
        negotiated := nofun
        headerUnpacker := ⟨hsb, htarget, hnacc, hnout, nofun⟩
        payloadUnpacker := h.payloadUnpacker
        noBytes := fun _ => h.noBytes hbase
        outLen := hout
        err := ⟨fun hz => absurd hz e.code_ne_zero, fun hne => absurd rfl hne⟩
        unset := nofun
        idle := fun _ => rfl
        withheldBins := fun i hi => absurd hi (Fin.not_lt_zero i) }
    · rw [heq]
      obtain ⟨-, -, -, hfinite, hstep, -⟩ := checkHeader_none hcheck
      obtain ⟨hlo, hhi, hlen⟩ := checkHeader_eq_none_bounds hcheck
      exact {
        base := nofun
        negotiated := fun _ => ⟨rfl, hfinite, hstep, rfl, rfl, rfl⟩
        headerUnpacker := ⟨hsb, htarget, hnacc, hnout, nofun⟩
        payloadUnpacker := ⟨hlo, hhi, hlen, Nat.zero_lt_succ 7, Nat.zero_le _⟩
        noBytes := nofun
        outLen := hout
        err := ⟨fun _ => nofun, fun _ => herr⟩
        unset := nofun
        idle := fun _ => rfl
        withheldBins := fun i hi => absurd hi (Fin.not_lt_zero i) }

/-- What several symbols do to the payload unpacker. -/
theorem pushAll (symbols : List Nat) :
    (rx.pu.pushAll symbols).1.sb = rx.pu.sb ∧ (rx.pu.pushAll symbols).1.target = rx.pu.target
      ∧ (rx.pu.pushAll symbols).1.nout = rx.pu.nout + (rx.pu.pushAll symbols).2.length
      ∧ (rx.pu.pushAll symbols).1.nout ≤ rx.pu.target ∧ (rx.pu.pushAll symbols).1.nacc < 8 := by
  obtain ⟨-, -, -, hnacc, hnout⟩ := h.payloadUnpacker
  exact Unpacker.pushAll_facts rx.pu symbols hnacc hnout

theorem keeps_commit (hs : rx.stage = .payload) (symbols : List Nat) : (rx.commit symbols).rx.Sound := by
  obtain ⟨hlo, hhi, htarget, hnacc, hnout⟩ := h.payloadUnpacker
  obtain ⟨psb, ptarget, -, pnout, pnacc⟩ := h.pushAll symbols
  have hgrid : rx.stage.onBaseGrid = false := by rw [hs]; rfl
  obtain ⟨ngrid, nfinite, nstep, npb, nsb, ntarget⟩ := h.negotiated hgrid
  exact {
    base := h.base
    negotiated := fun _ => ⟨ngrid, nfinite, nstep, npb, psb.trans nsb, ptarget.trans ntarget⟩
    headerUnpacker := h.headerUnpacker
    payloadUnpacker := ⟨psb ▸ hlo, psb ▸ hhi, ptarget ▸ htarget, pnacc, ptarget ▸ pnout⟩
    noBytes := fun hb => absurd (hgrid.symm.trans hb) nofun
    outLen := h.outLen.trans (by rw [hs]; exact (if_neg (by simp [RxEngine.commit, hs])).symm)
    err := h.err
    unset := h.unset
    idle := h.idle
    withheldBins := h.withheldBins }

end RxEngine.Sound

theorem RxEngine.retest_stage (rx : RxEngine) (s : Option (Fin 32)) : (rx.retest s).stage = rx.stage := by
  unfold RxEngine.retest
  split <;> rfl

theorem RxEngine.retest_pu (rx : RxEngine) (s : Option (Fin 32)) : (rx.retest s).pu = rx.pu := by
  unfold RxEngine.retest
  split <;> rfl

/-- Only a slot that Payload takes unpacks bytes; no other slot moves the payload unpacker but to start it. -/
theorem rxStep_unpacks_nothing {rx : RxEngine} {code : Word} (h : ¬(rx.stage = .payload ∧ rx.duplicate code = false)) :
    (rxStep rx code).bytes = [] ∧ ((rxStep rx code).rx.pu = rx.pu ∨ (rxStep rx code).rx.pu.nout = 0) := by
  rcases rxStep_cases rx code with ⟨-, heq⟩ | ⟨-, -, heq⟩ | ⟨-, -, heq⟩ | ⟨-, -, heq⟩ | ⟨hs, hd, -⟩
  · rw [heq]
    exact ⟨rfl, .inl rfl⟩
  · rw [heq]
    exact ⟨rfl, .inl rfl⟩
  · rw [heq]
    rcases locateStep_cases (rx.sawSlot code) (single code) with ⟨_, -, heq⟩ | ⟨-, -, heq⟩ | ⟨-, heq⟩ <;> rw [heq]
    · exact ⟨rfl, .inl rfl⟩
    · exact ⟨rfl, .inl rfl⟩
    · exact ⟨rfl, .inl (RxEngine.retest_pu _ _)⟩
  · rw [heq]
    rcases headerStep_cases (rx.sawSlot code) (single code) with ⟨-, heq⟩ | ⟨k, -, -, heq⟩ | ⟨k, -, -, heq⟩ <;> rw [heq]
    · exact ⟨rfl, .inl rfl⟩
    · exact ⟨rfl, .inl rfl⟩
    · obtain ⟨p, -, ⟨e, -, heq⟩ | ⟨-, heq⟩⟩ := rxValidate_cases _ <;> rw [heq]
      · exact ⟨rfl, .inl rfl⟩
      · exact ⟨rfl, .inr rfl⟩
  · exact absurd ⟨hs, hd⟩ h

namespace RxEngine.Sound

variable {rx : RxEngine} (h : rx.Sound)
include h

theorem keeps_payloadStep (hs : rx.stage = .payload) (s : Option (Fin 32)) : (payloadStep rx s).rx.Sound := by
  have hretest : (rx.retest s).stage = .payload := (rx.retest_stage s).trans hs
  rcases payloadStep_cases rx s with ⟨hp, hfits, heq⟩ | ⟨-, -, heq⟩ | ⟨-, -, heq⟩ | ⟨-, -, heq⟩
  · rw [heq]
    exact h.extended (.inr hs) hfits hp
  · rw [heq]
    exact {
      base := nofun
      negotiated := fun _ => h.negotiated (by rw [hs]; rfl)
      headerUnpacker := by
        obtain ⟨hsb, htarget, hnacc, hnout, -⟩ := h.headerUnpacker
        exact ⟨hsb, htarget, hnacc, hnout, nofun⟩
      payloadUnpacker := h.payloadUnpacker
      noBytes := nofun
      outLen := rfl
      err := ⟨fun _ => nofun, fun _ => h.err.2 (by rw [hs]; exact nofun)⟩
      unset := nofun
      idle := fun _ => rfl
      withheldBins := fun i hi => absurd hi (Fin.not_lt_zero i) }
  · rw [heq]
    exact (h.keeps_retest (.inr hs)).keeps_commit hretest _
  · rw [heq]
    exact (h.keeps_retest (.inr hs)).keeps_commit hretest _

/-- A slot keeps the receiver sound. -/
theorem keeps_rxStep (code : Word) : (rxStep rx code).rx.Sound := by
  have hsaw : (rx.sawSlot code).Sound := h.seen _ _
  rcases rxStep_cases rx code with ⟨-, heq⟩ | ⟨-, -, heq⟩ | ⟨hs, -, heq⟩ | ⟨hs, -, heq⟩ | ⟨hs, -, heq⟩
  · rw [heq]
    exact h.seen _ rx.prev
  · rw [heq]
    exact hsaw
  · rw [heq]
    exact hsaw.keeps_locateStep hs _
  · rw [heq]
    exact hsaw.keeps_headerStep hs _
  · rw [heq]
    exact hsaw.keeps_payloadStep hs _

/-- A slot in Payload counts the bytes it unpacks, and never passes the target. -/
theorem payloadStep_unpacks (s : Option (Fin 32)) :
    (payloadStep rx s).rx.pu.nout = rx.pu.nout + (payloadStep rx s).bytes.length
      ∧ (payloadStep rx s).rx.pu.nout ≤ 4096 := by
  obtain ⟨-, -, htarget, -, hnout⟩ := h.payloadUnpacker
  have hcommit : ∀ symbols, ((rx.retest s).commit symbols).rx.pu.nout
      = rx.pu.nout + ((rx.retest s).commit symbols).bytes.length
        ∧ ((rx.retest s).commit symbols).rx.pu.nout ≤ 4096 := fun symbols => by
    obtain ⟨-, -, hcount, hle, -⟩ := h.pushAll symbols
    rw [RxEngine.commit, RxEngine.retest_pu]
    exact ⟨hcount, hle.trans htarget⟩
  rcases payloadStep_cases rx s with ⟨hp, -, heq⟩ | ⟨-, -, heq⟩ | ⟨-, -, heq⟩ | ⟨-, -, heq⟩ <;> rw [heq]
  · exact ⟨rfl, hnout.trans htarget⟩
  · exact ⟨rfl, hnout.trans htarget⟩
  · exact hcommit _
  · exact hcommit _

/-- A slot unpacks bytes from `RX_PAY_BYTES` on and counts them, or starts the count anew; `RX_BUF` holds them all. -/
theorem rxStep_unpacks (code : Word) :
    ((rxStep rx code).rx.pu.nout = rx.pu.nout + (rxStep rx code).bytes.length ∨ (rxStep rx code).rx.pu.nout = 0)
      ∧ rx.pu.nout + (rxStep rx code).bytes.length ≤ 4096 := by
  obtain ⟨-, -, htarget, -, hnout⟩ := h.payloadUnpacker
  by_cases hpayload : rx.stage = .payload ∧ rx.duplicate code = false
  · obtain ⟨hs, hd⟩ := hpayload
    have heq := (rxStep_of_payload hs code).resolve_left fun hdup => by rw [hd] at hdup; cases hdup.1
    obtain ⟨hcount, hle⟩ := RxEngine.Sound.payloadStep_unpacks (rx := rx.sawSlot code) (h.seen _ _) (single code)
    rw [heq.2]
    exact ⟨.inl hcount, hcount ▸ hle⟩
  · obtain ⟨hbytes, hpu⟩ := rxStep_unpacks_nothing hpayload
    rw [hbytes]
    exact ⟨hpu.imp (congrArg Unpacker.nout) id, hnout.trans htarget⟩

end RxEngine.Sound

/-! ### Parts that a completion leaves alone -/

@[simp] theorem State.complete_rx (s : State) : s.complete.rx = s.rx := by rw [State.complete_frame]
@[simp] theorem State.complete_port (s : State) : s.complete.port = s.port := by rw [State.complete_frame]
@[simp] theorem State.complete_agenda (s : State) : s.complete.agenda = s.agenda := by rw [State.complete_frame]
@[simp] theorem State.complete_nextDraw (s : State) : s.complete.nextDraw = s.nextDraw := by rw [State.complete_frame]
@[simp] theorem State.complete_bufferDraw (s : State) : s.complete.bufferDraw = s.bufferDraw := by
  rw [State.complete_frame]

/-! ### Memory -/

theorem State.Access.mem {s t : State} {i : Instr} (h : s.Access i t) : ∃ writes, t.mem = s.mem.storeAll writes := by
  cases h with
  | answered _ _ | accepted _ _ | rxReset _ | irqAck _ _ => exact ⟨[], rfl⟩
  | slot code => exact ⟨[(_, _)], rfl⟩
  | softReset ignored =>
    obtain ⟨writes, hmem, -⟩ := s.softReset_mem
    exact ⟨writes, hmem⟩
  | page data _ _ => exact ⟨[], by simp⟩
  | buffer _ _ _ _ => exact ⟨[(_, _)], rfl⟩

/-- Settles O55: a step stores, or empties the memory at a power-on. -/
theorem stepKeepsMemoryCanonical : Obligations.StepKeepsMemoryCanonical := by
  intro s t hwf h
  rcases step_cases h with ⟨i, haccess⟩ | rfl | rfl
  · obtain ⟨writes, hmem⟩ := haccess.mem
    rw [hmem]
    exact Memory.storeAll_wf hwf writes
  · obtain ⟨writes, hmem, -⟩ := s.takeEvent.complete_mem
    rw [hmem]
    exact Memory.storeAll_wf hwf writes
  · exact Memory.wf_nil

/-- Stores in the destination of a pending command stay inside the buffers. -/
theorem Memory.inside_storeAll_destination {s : State} (h : s.mem.inside) {writes : List (Nat × List Byte)}
    (hw : writes = [] ∨ ∃ w, s.tx.pending = some w ∧ WritesInside writes (destination w s)) :
    (s.mem.storeAll writes).inside := by
  rcases hw with rfl | ⟨w, -, hw⟩
  · exact h
  · exact Memory.inside_storeAll h hw (destination_inBuffers w s)

/-- The bytes a slot unpacks join those received before. -/
theorem State.pushSlot_receivedBytesWritten {s : State} (hrx : s.rx.Sound) (h : s.receivedBytesWritten) (code : Word) :
    (s.pushSlot code).receivedBytesWritten := by
  intro i hi
  obtain ⟨hcount, -⟩ := hrx.rxStep_unpacks code
  by_cases hnew : s.rx.pu.nout ≤ i
  · have hlt : i < s.rx.pu.nout + (rxStep s.rx code).bytes.length := by
      rcases hcount with hcount | hcount
      · exact hcount ▸ hi
      · exact absurd (hcount ▸ hi) (Nat.not_lt_zero i)
    have hlast : Buffer.rx.base + i - (Buffer.rx.base + s.rx.pu.nout) < (rxStep s.rx code).bytes.length := by omega
    rw [State.pushSlot, Memory.peek_store_inside (by omega) (by omega), List.getElem?_eq_getElem hlast]
    rfl
  · exact Memory.isSome_peek_store (h i (Nat.lt_of_not_le hnew)) _ _

/-- Settles O58: every store of a step lies in a buffer, and no step forgets a byte but the resets, which receive none. -/
theorem stepKeepsMemoryPlacement : Obligations.StepKeepsMemoryPlacement := by
  intro s t hrx hinside hreceived h
  rcases step_cases h with ⟨i, haccess⟩ | rfl | rfl
  · cases haccess with
    | answered _ _ | accepted _ _ | irqAck _ _ => exact ⟨hinside, hreceived⟩
    | slot code =>
      refine ⟨Memory.inside_store hinside fun _ => ?_, State.pushSlot_receivedBytesWritten (s := s.takeEvent) hrx hreceived code⟩
      exact (hrx.rxStep_unpacks code).2
    | softReset ignored =>
      obtain ⟨writes, hmem, hw⟩ := s.takeEvent.softReset_mem
      refine ⟨?_, fun i hi => absurd hi (Nat.not_lt_zero i)⟩
      rw [State.acknowledge_mem, hmem]
      exact Memory.inside_storeAll_destination hinside hw
    | rxReset ignored => exact ⟨hinside, fun i hi => absurd hi (Nat.not_lt_zero i)⟩
    | page data _ _ =>
      unfold State.receivedBytesWritten
      simp only [State.acknowledge_mem, State.acknowledge_rx, State.writePage_mem, State.writePage_rx]
      exact ⟨hinside, hreceived⟩
    | buffer _ _ _ hfits =>
      exact ⟨Memory.inside_store hinside hfits, fun i hi => Memory.isSome_peek_store (hreceived i hi) _ _⟩
  · obtain ⟨writes, hmem, hw⟩ := s.takeEvent.complete_mem
    unfold State.receivedBytesWritten
    rw [State.complete_rx, hmem]
    exact ⟨Memory.inside_storeAll_destination hinside hw, fun i hi => Memory.isSome_peek_storeAll (hreceived i hi) _⟩
  · exact ⟨nofun, fun i hi => absurd hi (Nat.not_lt_zero i)⟩

/-! ### The two engines -/

/-- Settles O57: slots keep the receiver sound, resets make it so, and nothing else touches it. -/
theorem stepKeepsRxSound : Obligations.StepKeepsRxSound := by
  intro s t hrx h
  rcases step_cases h with ⟨i, haccess⟩ | rfl | rfl
  · cases haccess with
    | answered _ _ | accepted _ _ | irqAck _ _ | buffer _ _ _ _ => exact hrx
    | slot code => exact hrx.keeps_rxStep code
    | softReset ignored => exact RxEngine.resetOver_sound _
    | rxReset ignored => exact RxEngine.resetOver_sound _
    | page data _ _ =>
      rw [State.acknowledge_rx, State.writePage_rx]
      exact hrx
  · rw [State.complete_rx]
    exact hrx
  · exact RxEngine.resetOver_sound _

theorem TxEngine.reset_sound : TxEngine.reset.Sound where
  busy := nofun
  fresh := fun _ _ => ⟨rfl, rfl, rfl⟩
  code := Nat.zero_le _

/-- The codes of 60_exceptions.md R142 end at 0x0B. -/
theorem ErrorCode.code_le (e : ErrorCode) : e.code.toNat ≤ 0x0B := by cases e <;> decide

theorem TxEngine.ended_sound (tx : TxEngine) {code : Byte} (h : code.toNat ≤ 0x0B) : (tx.ended code).Sound where
  busy := nofun
  fresh := nofun
  code := h

/-- Settles O56: acceptance and completion leave legal words, a reset the fresh one, and a register write leaves the
status alone. -/
theorem stepKeepsTxSound : Obligations.StepKeepsTxSound := by
  intro s t htx h
  rcases step_cases h with ⟨i, haccess⟩ | rfl | rfl
  · cases haccess with
    | answered _ _ | slot _ | rxReset _ | irqAck _ _ | buffer _ _ _ _ => exact htx
    | accepted _ _ => exact ⟨fun w hw => Option.some.inj hw ▸ ⟨rfl, rfl, rfl⟩, nofun, Nat.zero_le _⟩
    | softReset ignored => exact TxEngine.reset_sound
    | page data _ _ =>
      rw [State.acknowledge_tx, State.writePage_tx_frame]
      exact ⟨htx.busy, htx.fresh, htx.code⟩
  · rcases s.takeEvent.complete_result with ⟨-, heq⟩ | ⟨w, r, -, -, heq⟩ | ⟨w, e, -, -, heq⟩ <;> rw [heq]
    · exact htx
    · exact TxEngine.ended_sound _ (Nat.zero_le _)
    · exact TxEngine.ended_sound _ e.code_le
  · exact TxEngine.reset_sound

/-- Settles O59: the reset state is sound part by part. -/
theorem resetIsSound : Obligations.ResetIsSound where
  canonical := Memory.wf_nil
  inside := nofun
  tx := TxEngine.reset_sound
  rx := RxEngine.resetOver_sound _
  received := fun i hi => absurd hi (Nat.not_lt_zero i)

end Sys2Proof.Machine

/-! Payload conserves symbols (44_receiver.md R127): what is accepted is committed or withheld, in order. -/

namespace Sys2Proof.Machine

/-! ### Withheld symbols -/

theorem RxEngine.withheld_zero (rx : RxEngine) : RxEngine.withheld { rx with prog := 0 } = [] := rfl

/-- A match over one position more withholds that position's bin. -/
theorem RxEngine.withheld_succ {rx : RxEngine} {p q : Fin 6} (hq : q.val = p.val + 1) {k : Fin 32}
    (hbin : rx.pb[p] = some k) :
    RxEngine.withheld { rx with prog := q } = RxEngine.withheld { rx with prog := p } ++ [k.val] := by
  have hget : rx.pb.toList[p.val]? = some (some k) := by
    rw [List.getElem?_eq_getElem (by simp), Vector.getElem_toList, ← hbin]
    rfl
  rw [RxEngine.withheld, RxEngine.withheld, hq, List.take_add_one, hget, List.filterMap_append]
  rfl

/-! ### One slot -/

/-- The symbol a slot adds to those accepted. -/
def symbolOf (s : Option (Fin 32)) : List Nat := (s.map Fin.val).toList

/-- What a slot does with the symbols in Payload: those committed and those withheld after it are those withheld before
it and its own, and the unpacker consumes the committed ones. -/
theorem payloadStep_conserves {rx : RxEngine} {s : Option (Fin 32)} (h : (payloadStep rx s).rx.stage = .payload) :
    ∃ committed, committed ++ (payloadStep rx s).rx.withheld = rx.withheld ++ symbolOf s
      ∧ rx.pu.pushAll committed = ((payloadStep rx s).rx.pu, (payloadStep rx s).bytes) := by
  rcases payloadStep_cases rx s with ⟨hp, hfits, heq⟩ | ⟨-, -, heq⟩ | ⟨-, hprog, heq⟩ | ⟨-, hprog, heq⟩
  · obtain ⟨k, rfl, hbin⟩ := (rx.fits_iff s).1 hfits
    rw [heq]
    exact ⟨[], RxEngine.withheld_succ rfl hbin, rfl⟩
  · rw [heq] at h
    cases h
  · rw [heq]
    rcases RxEngine.retest_cases rx s with ⟨hretest, k, rfl, hbin⟩ | ⟨hretest, -⟩
    · refine ⟨rx.withheld, ?_, ?_⟩
      · rw [hretest]
        exact congrArg (rx.withheld ++ ·) (RxEngine.withheld_succ (p := 0) rfl hbin)
      · rw [RxEngine.commit, RxEngine.retest_pu]
    · rw [hretest] at hprog
      cases hprog
  · rw [heq]
    refine ⟨rx.withheld ++ symbolOf s, ?_, ?_⟩
    · have hnone : ((rx.retest s).commit (rx.withheld ++ symbolOf s)).rx.withheld = [] := by
        rw [RxEngine.commit, RxEngine.withheld, hprog]
        rfl
      exact (congrArg _ hnone).trans (List.append_nil _)
    · rw [RxEngine.commit, RxEngine.retest_pu]
      rfl

/-- The symbols one code adds to those accepted. -/
def RxEngine.acceptedOne (rx : RxEngine) (code : Word) : List Nat :=
  if rx.duplicate code then [] else symbolOf (single code)

theorem RxEngine.acceptedFrom_cons (rx : RxEngine) (code : Word) (codes : List Word) :
    rx.acceptedFrom (code :: codes) = rx.acceptedOne code ++ acceptedSymbols code codes := rfl

/-- What a slot that stays in Payload does with the symbols (R122, R127). -/
theorem rxStep_conserves {rx : RxEngine} {code : Word} (hs : rx.stage = .payload)
    (hstay : (rxStep rx code).rx.stage = .payload) :
    ∃ committed, committed ++ (rxStep rx code).rx.withheld = rx.withheld ++ rx.acceptedOne code
      ∧ rx.pu.pushAll committed = ((rxStep rx code).rx.pu, (rxStep rx code).bytes) := by
  rcases rxStep_of_payload hs code with ⟨hd, heq⟩ | ⟨hd, heq⟩
  · rw [heq, RxEngine.acceptedOne, hd]
    exact ⟨[], (List.append_nil _).symm, rfl⟩
  · rw [heq] at hstay ⊢
    rw [RxEngine.acceptedOne, hd]
    exact payloadStep_conserves hstay

/-! ### Many slots -/

theorem payloadStep_grid (rx : RxEngine) (s : Option (Fin 32)) :
    (payloadStep rx s).rx.grid = rx.grid ∧ (payloadStep rx s).rx.prev = rx.prev := by
  rcases payloadStep_cases rx s with ⟨_, -, heq⟩ | ⟨-, -, heq⟩ | ⟨-, -, heq⟩ | ⟨-, -, heq⟩ <;> rw [heq]
  · exact ⟨rfl, rfl⟩
  · exact ⟨rfl, rfl⟩
  · rw [RxEngine.commit, RxEngine.retest]
    split <;> exact ⟨rfl, rfl⟩
  · rw [RxEngine.commit, RxEngine.retest]
    split <;> exact ⟨rfl, rfl⟩

/-- In Payload the grid stays, and the filter remembers the slot on it. -/
theorem rxStep_payload_seen {rx : RxEngine} (hs : rx.stage = .payload) (code : Word) :
    (rxStep rx code).rx.grid = rx.grid ∧ (rxStep rx code).rx.prev = some ⟨code, rx.grid⟩ := by
  rcases rxStep_of_payload hs code with ⟨-, heq⟩ | ⟨-, heq⟩ <;> rw [heq]
  · exact ⟨rfl, rfl⟩
  · exact payloadStep_grid _ _

/-- Done is final. -/
theorem rxFeed_done {rx : RxEngine} (h : rx.stage = .done) (codes : List Word) : (rxFeed rx codes).1.stage = .done := by
  induction codes generalizing rx with
  | nil => exact h
  | cons code codes ih => exact ih (by simp [rxStep, h, SlotResult.quiet])

/-- A run that ends in Payload was in Payload after its first slot. -/
theorem rxStep_payload_of_feed {rx : RxEngine} {code : Word} {codes : List Word} (hs : rx.stage = .payload)
    (h : (rxFeed rx (code :: codes)).1.stage = .payload) : (rxStep rx code).rx.stage = .payload := by
  have hnext : (rxStep rx code).rx.stage = .payload ∨ (rxStep rx code).rx.stage = .done := by
    rcases rxStep_of_payload hs code with ⟨-, heq⟩ | ⟨-, heq⟩
    · rw [heq]
      exact .inl hs
    · rw [heq]
      rcases payloadStep_cases (rx.sawSlot code) (single code) with
        ⟨_, -, heq⟩ | ⟨-, -, heq⟩ | ⟨-, -, heq⟩ | ⟨-, -, heq⟩ <;> rw [heq]
      · exact .inl hs
      · exact .inr rfl
      · exact .inl ((RxEngine.retest_stage _ _).trans hs)
      · exact .inl ((RxEngine.retest_stage _ _).trans hs)
  refine hnext.resolve_right fun hdone => ?_
  rw [rxFeed_cons, rxFeed_done hdone] at h
  cases h

/-- After a slot on the grid in force, the codes accepted are those that differ from the one before. -/
theorem RxEngine.acceptedFrom_eq {rx : RxEngine} {before : Word} (hstep : stepLegal rx.grid.step = true)
    (hprev : rx.prev = some ⟨before, rx.grid⟩) (codes : List Word) :
    rx.acceptedFrom codes = acceptedSymbols before codes := by
  cases codes with
  | nil => rfl
  | cons code codes =>
    have hdup : rx.duplicate code = true ↔ before = code := by
      rw [RxEngine.duplicate, hprev]
      exact sameFrequencies_same_grid hstep before code
    rw [RxEngine.acceptedFrom_cons, RxEngine.acceptedOne]
    by_cases hcode : before = code
    · rw [if_pos (hdup.2 hcode), acceptedSymbols, acceptedSymbols, List.destutter_cons_cons, if_neg (not_not.2 hcode),
        hcode, List.destutter_cons']
      rfl
    · rw [if_neg (mt hdup.1 hcode), acceptedSymbols, acceptedSymbols, List.destutter_cons_cons, if_pos hcode,
        List.tail_cons, ← List.destutter_cons', destutter_eq_cons_tail code codes, List.tail_cons]
      cases hsingle : single code <;> simp [symbolOf, hsingle]

/-- Settles O36: slot by slot, since the committed symbols of a run are those of its slots in turn. -/
theorem payloadConservesSymbols : Obligations.PayloadConservesSymbols := by
  intro rx codes
  induction codes generalizing rx with
  | nil => exact fun _ _ _ => ⟨[], (List.append_nil _).symm, rfl⟩
  | cons code codes ih =>
    intro hs hstep hend
    have hstay := rxStep_payload_of_feed hs hend
    obtain ⟨hgrid, hprev⟩ := rxStep_payload_seen hs code
    obtain ⟨first, hfirst, hpush⟩ := rxStep_conserves hs hstay
    obtain ⟨rest, hrest, hpushes⟩ := ih (rxStep rx code).rx hstay (hgrid ▸ hstep) hend
    rw [RxEngine.acceptedFrom_eq (before := code) (hgrid ▸ hstep) (hgrid ▸ hprev)] at hrest
    refine ⟨first ++ rest, ?_, ?_⟩
    · calc first ++ rest ++ (rxFeed rx (code :: codes)).1.withheld
          = first ++ ((rxStep rx code).rx.withheld ++ acceptedSymbols code codes) := by
            rw [List.append_assoc, ← hrest]
            rfl
        _ = rx.withheld ++ rx.acceptedFrom (code :: codes) := by
            rw [← List.append_assoc, hfirst, RxEngine.acceptedFrom_cons, List.append_assoc]
    · rw [Unpacker.pushAll_append, hpush, hpushes]
      rfl

end Sys2Proof.Machine

/-! The packed symbols (41_symbol_codec.md R95 to R98): their values, the repeat rule, and their replication. -/

namespace Sys2Proof.Machine

/-! ### Group values (R95) -/

theorem valueOf_take (bits : List Bool) (n : Nat) :
    valueOf (bits.take n) = valueOf bits / 2 ^ (bits.length - n) := by
  have hsplit := valueOf_append (bits.take n) (bits.drop n)
  rw [List.take_append_drop, List.length_drop] at hsplit
  have hlt := valueOf_lt (bits.drop n)
  rw [List.length_drop] at hlt
  rw [hsplit, mul_two_pow_add_div hlt]

theorem valueOf_drop (bits : List Bool) (n : Nat) : valueOf (bits.drop n) = valueOf bits % 2 ^ (bits.length - n) := by
  have hsplit := valueOf_append (bits.take n) (bits.drop n)
  rw [List.take_append_drop] at hsplit
  have hlt := valueOf_lt (bits.drop n)
  rw [List.length_drop] at hsplit hlt
  rw [hsplit, Nat.mul_add_mod_self_right, Nat.mod_eq_of_lt hlt]

/-- The value of a run of bits inside a bit stream. -/
theorem valueOf_slice {bits : List Bool} {i n : Nat} (h : i + n ≤ bits.length) :
    valueOf ((bits.drop i).take n) = valueOf bits / 2 ^ (bits.length - (i + n)) % 2 ^ n := by
  rw [valueOf_take, valueOf_drop, List.length_drop,
    show bits.length - i = (bits.length - (i + n)) + n by omega, Nat.add_sub_cancel, pow_add,
    Nat.mod_mul_right_div_self]

theorem valueOf_bitsOfBytes (bytes : List Byte) : valueOf (bitsOfBytes bytes) = bytesValue bytes := by
  induction bytes using List.reverseRecOn with
  | nil => rfl
  | append_singleton bytes b ih =>
    rw [bitsOfBytes, List.flatMap_append, List.flatMap_singleton, valueOf_append, bitsOf_length, valueOf_bitsOf,
      Nat.mod_eq_of_lt b.isLt, ← bitsOfBytes, ih, bytesValue, bytesValue, List.foldl_append, Nat.mul_comm]
    rfl

theorem valueOf_replicate_false (n : Nat) : valueOf (List.replicate n false) = 0 := by
  induction n with
  | zero => rfl
  | succ n ih => rw [List.replicate_succ, valueOf_cons, ih, Bool.toNat_false, Nat.zero_mul]

/-- The padded payload as a number. -/
theorem valueOf_padBits {sb : Nat} (h : 1 ≤ sb) (bytes : List Byte) :
    valueOf (padBits sb (bitsOfBytes bytes))
      = bytesValue bytes * 2 ^ (ceilDiv (8 * bytes.length) sb * sb - 8 * bytes.length) := by
  rw [padBits, valueOf_append, valueOf_replicate_false, List.length_replicate, valueOf_bitsOfBytes, bitsOfBytes_length,
    ceilDiv_mul_eq h, Nat.add_sub_cancel_left, Nat.add_zero]

/-- Group `g` of a payload as a number (R95). -/
theorem groupValues_getElem? {sb g : Nat} (h : 1 ≤ sb) {bytes : List Byte} (hg : g < ceilDiv (8 * bytes.length) sb) :
    (groupValues sb bytes)[g]? = some
      (bytesValue bytes * 2 ^ (ceilDiv (8 * bytes.length) sb * sb - 8 * bytes.length)
        / 2 ^ (sb * (ceilDiv (8 * bytes.length) sb - 1 - g)) % 2 ^ sb) := by
  have hlen : (padBits sb (bitsOfBytes bytes)).length = ceilDiv (8 * bytes.length) sb * sb := by
    rw [padBits_length h, bitsOfBytes_length]
  obtain ⟨rest, hrest⟩ : ∃ rest, ceilDiv (8 * bytes.length) sb = g + 1 + rest := ⟨_, (Nat.add_sub_cancel' hg).symm⟩
  have hend : g * sb + sb + sb * rest = ceilDiv (8 * bytes.length) sb * sb := by rw [hrest]; ring
  rw [groupValues, List.getElem?_map, groupsOf_getElem? _ _ _ (by rwa [hlen, Nat.mul_div_cancel _ h]), Option.map_some,
    valueOf_slice (by omega), hlen, valueOf_padBits h]
  rw [show ceilDiv (8 * bytes.length) sb * sb - (g * sb + sb) = sb * rest by omega,
    show ceilDiv (8 * bytes.length) sb - 1 - g = rest by omega]

/-! ### The repeat rule (R97) -/

/-- The bins of a payload's groups. -/
def dataBins (sb : Nat) (bytes : List Byte) : List Nat := (groupValues sb bytes).map fun v => 1 + v

theorem dataBins_ne_zero {sb : Nat} {bytes : List Byte} : ∀ k ∈ dataBins sb bytes, k ≠ 0 := by simp [dataBins]

theorem packSymbols_one (bytes : List Byte) (sb : Nat) :
    packSymbols bytes sb 1 = emitSymbols none (dataBins sb bytes) := by
  rw [packSymbols, dataBins]
  exact List.flatMap_singleton' _

/-- Each emitted symbol by the bin of its group and the symbol before it. -/
theorem emitSymbols_getElem? (prev : Option Nat) (ks : List Nat) (g : Nat) :
    (emitSymbols prev ks)[g]? = ks[g]?.map fun k =>
      if (if g = 0 then prev else (emitSymbols prev ks)[g - 1]?) = some k then 0 else k := by
  induction ks generalizing prev g with
  | nil => rfl
  | cons k ks ih =>
    cases g with
    | zero => rfl
    | succ g =>
      rw [emitSymbols, List.getElem?_cons_succ, List.getElem?_cons_succ, ih]
      cases g with
      | zero => rfl
      | succ g => rfl

/-- Settles O18: a group's bin, and the repeat rule against the symbol before it. -/
theorem packedSymbolsRule : Obligations.PackedSymbolsRule := by
  intro bytes sb g hsb groups value emitted hg
  have hgroups : ceilDiv (8 * bytes.length) sb = groups := ceilDiv_eq hsb _
  have hbin : (dataBins sb bytes)[g]? = some (1 + value) := by
    rw [dataBins, List.getElem?_map, groupValues_getElem? hsb (hgroups ▸ hg), hgroups]
    rfl
  have hemitted : emitted = emitSymbols none (dataBins sb bytes) := packSymbols_one bytes sb
  rw [hemitted, emitSymbols_getElem?, hbin, Option.map_some]
  congr 1
  refine if_congr ?_ rfl rfl
  cases g with
  | zero => simp
  | succ g => simp

/-- No emitted symbol equals the one before it. -/
theorem emitSymbols_isChain {ks : List Nat} (h : ∀ k ∈ ks, k ≠ 0) (prev : Nat) :
    (prev :: emitSymbols (some prev) ks).IsChain (· ≠ ·) := by
  induction ks generalizing prev with
  | nil => exact .singleton prev
  | cons k ks ih =>
    obtain ⟨hk, hks⟩ := List.forall_mem_cons.1 h
    rw [emitSymbols]
    refine .cons_cons ?_ (ih hks _)
    by_cases hrep : prev = k
    · rwa [if_pos (congrArg some hrep), hrep]
    · rwa [if_neg (mt Option.some.inj hrep)]

/-- Settles O20: the repeat rule leaves no copy, and the first symbol, with none before it, is a data bin. -/
theorem noAdjacentEmittedRepeat : Obligations.NoAdjacentEmittedRepeat := by
  intro bytes sb _
  rw [packSymbols_one]
  have hbins := dataBins_ne_zero (sb := sb) (bytes := bytes)
  cases hks : dataBins sb bytes with
  | nil => exact ⟨.nil, nofun⟩
  | cons k ks =>
    rw [hks] at hbins
    obtain ⟨hk, hks⟩ := List.forall_mem_cons.1 hbins
    exact ⟨emitSymbols_isChain hks k, fun h => hk (Option.some.inj h)⟩

/-! ### Replication (R98) -/

/-- Runs of equal length, joined: element `j` belongs to run `j / r`. -/
theorem flatMap_replicate_getElem? {α β : Type} {r : Nat} (h : 1 ≤ r) (f : α → β) (xs : List α) (j : Nat) :
    (xs.flatMap fun x => List.replicate r (f x))[j]? = xs[j / r]?.map f := by
  induction xs generalizing j with
  | nil => simp
  | cons x xs ih =>
    rw [List.flatMap_cons]
    by_cases hj : j < r
    · rw [List.getElem?_append_left (by simpa using hj), List.getElem?_replicate_of_lt hj, Nat.div_eq_of_lt hj]
      rfl
    · obtain ⟨i, rfl⟩ : ∃ i, j = i + r := ⟨j - r, by omega⟩
      rw [List.getElem?_append_right (by simp), List.length_replicate, Nat.add_sub_cancel, ih, Nat.add_div_right _ h,
        List.getElem?_cons_succ]

theorem packSymbols_getElem? {r : Nat} (h : 1 ≤ r) (bytes : List Byte) (sb j : Nat) :
    (packSymbols bytes sb r)[j]? = (packSymbols bytes sb 1)[j / r]? := by
  rw [packSymbols_one, packSymbols, flatMap_replicate_getElem? h (fun e => e), Option.map_id']
  rfl

theorem packSymbols_le {sb r e : Nat} (h : 1 ≤ sb) {bytes : List Byte} (he : e ∈ packSymbols bytes sb r) :
    e ≤ 2 ^ sb := by
  obtain ⟨x, hx, hrep⟩ := List.mem_flatMap.1 he
  obtain rfl := (List.mem_replicate.1 hrep).2
  rcases emitSymbols_mem hx with rfl | hdata
  · exact Nat.zero_le _
  · obtain ⟨v, hv, rfl⟩ := List.mem_map.1 hdata
    have := groupValues_lt h hv
    omega

/-- Settles O19: each emitted symbol is a run of `r` copies. -/
theorem packLengthAndReplication : Obligations.PackLengthAndReplication := by
  intro bytes sb r hsb hr
  exact ⟨by rw [packSymbols_length hsb, ceilDiv_eq hsb], fun e he => packSymbols_le hsb he,
    fun j _ => packSymbols_getElem? hr bytes sb j⟩

end Sys2Proof.Machine

/-! What a slot does in each stage (44_receiver.md R121 to R128). -/

namespace Sys2Proof.Machine

/-! ### Slots that are dropped -/

theorem rxStep_terminal {rx : RxEngine} (h : rx.stage = .done ∨ rx.stage = .error) (code : Word) :
    rxStep rx code = .quiet { rx with slots := rx.slots + 1#32 } := by
  rcases h with h | h <;> simp [rxStep, h]

/-- In Locate, Header and Payload a duplicate is counted and remembered, and nothing else. -/
theorem rxStep_duplicate {rx : RxEngine} {code : Word} (h : rx.stage = .locate ∨ rx.stage = .header ∨ rx.stage = .payload)
    (hd : rx.duplicate code = true) : rxStep rx code = .quiet (rx.sawSlot code) := by
  rcases h with h | h | h <;> simp [rxStep, h, hd, RxEngine.sawSlot, RxEngine.slotOf]

theorem rxStep_locate_new {rx : RxEngine} {code : Word} (h : rx.stage = .locate) (hd : rx.duplicate code = false) :
    rxStep rx code = locateStep (rx.sawSlot code) (single code) := by
  simp [rxStep, h, hd, RxEngine.sawSlot, RxEngine.slotOf]

theorem rxStep_header_new {rx : RxEngine} {code : Word} (h : rx.stage = .header) (hd : rx.duplicate code = false) :
    rxStep rx code = headerStep (rx.sawSlot code) (single code) := by
  simp [rxStep, h, hd, RxEngine.sawSlot, RxEngine.slotOf]

theorem rxStep_payload_new {rx : RxEngine} {code : Word} (h : rx.stage = .payload) (hd : rx.duplicate code = false) :
    rxStep rx code = payloadStep (rx.sawSlot code) (single code) := by
  simp [rxStep, h, hd, RxEngine.sawSlot, RxEngine.slotOf]

/-! ### The match (R123, R124, R127) -/

/-- The slot's one bin is the pattern's bin at a position. -/
def RxEngine.Hits (rx : RxEngine) (code : Word) (j : Fin 6) : Prop := ∃ k : Fin 32, code = slotCode k.val ∧ rx.pb[j] = some k

theorem RxEngine.fits_single_iff (rx : RxEngine) (code : Word) : rx.fits (single code) = true ↔ rx.Hits code rx.prog := by
  simp only [RxEngine.fits_iff, RxEngine.Hits, single_eq_some_iff]

/-- A match that goes on in Locate or in Payload. -/
theorem rxStep_extends {rx : RxEngine} {code : Word} (hs : rx.stage = .locate ∨ rx.stage = .payload)
    (hd : rx.duplicate code = false) (hhits : rx.Hits code rx.prog) (hp : rx.prog.val + 1 < 6) :
    rxStep rx code = .quiet { rx.sawSlot code with prog := ⟨rx.prog.val + 1, hp⟩ } := by
  have hfits : (rx.sawSlot code).fits (single code) = true := ((rx.sawSlot code).fits_single_iff code).2 hhits
  rcases hs with hs | hs
  · rw [rxStep_locate_new hs hd, locateStep, if_pos hfits]
    exact dif_pos hp
  · rw [rxStep_payload_new hs hd, payloadStep, if_pos hfits]
    exact dif_pos hp

/-- The sixth match in Locate enters Header. -/
theorem rxStep_locate_found {rx : RxEngine} {code : Word} (hs : rx.stage = .locate)
    (hd : rx.duplicate code = false) (hhits : rx.Hits code rx.prog) (hp : rx.prog.val = 5) :
    rxStep rx code = .quiet { rx.sawSlot code with prog := 0, stage := .header, hu := Unpacker.fresh 1 20 } := by
  have hfits : (rx.sawSlot code).fits (single code) = true := ((rx.sawSlot code).fits_single_iff code).2 hhits
  rw [rxStep_locate_new hs hd, locateStep, if_pos hfits]
  exact dif_neg (show ¬rx.prog.val + 1 < 6 by omega)

/-- The sixth match in Payload enters Done. -/
theorem rxStep_payload_found {rx : RxEngine} {code : Word} (hs : rx.stage = .payload)
    (hd : rx.duplicate code = false) (hhits : rx.Hits code rx.prog) (hp : rx.prog.val = 5) :
    rxStep rx code
      = ⟨{ rx.sawSlot code with prog := 0, stage := .done, outLen := BitVec.ofNat 32 rx.pu.nout }, [], irqRxDone⟩ := by
  have hfits : (rx.sawSlot code).fits (single code) = true := ((rx.sawSlot code).fits_single_iff code).2 hhits
  rw [rxStep_payload_new hs hd, payloadStep, if_pos hfits]
  exact dif_neg (show ¬rx.prog.val + 1 < 6 by omega)

/-- A match that breaks restarts: at 1 when the slot is the pattern's first bin, else at 0. -/
theorem RxEngine.retest_hits (rx : RxEngine) (code : Word) :
    (rx.Hits code 0 → rx.retest (single code) = { rx with prog := 1 })
      ∧ (¬rx.Hits code 0 → rx.retest (single code) = { rx with prog := 0 }) := by
  have hfits := RxEngine.fits_single_iff { rx with prog := 0 } code
  exact ⟨fun h => if_pos (hfits.2 h), fun h => if_neg (mt hfits.1 h)⟩

theorem rxStep_locate_breaks {rx : RxEngine} {code : Word} (hs : rx.stage = .locate)
    (hd : rx.duplicate code = false) (hmiss : ¬rx.Hits code rx.prog) :
    rxStep rx code = .quiet ((rx.sawSlot code).retest (single code)) := by
  have hfits := mt ((rx.sawSlot code).fits_single_iff code).1 hmiss
  rw [rxStep_locate_new hs hd, locateStep, if_neg hfits]

/-- In Payload a match that breaks commits symbols too. -/
theorem rxStep_payload_breaks {rx : RxEngine} {code : Word} (hs : rx.stage = .payload)
    (hd : rx.duplicate code = false) (hmiss : ¬rx.Hits code rx.prog) :
    ∃ symbols, rxStep rx code = ((rx.sawSlot code).retest (single code)).commit symbols := by
  have hfits := mt ((rx.sawSlot code).fits_single_iff code).1 hmiss
  rw [rxStep_payload_new hs hd, payloadStep, if_neg hfits]
  exact ⟨_, rfl⟩

/-- A broken match in Locate or in Payload: stage and progress. -/
theorem rxStep_breaks {rx : RxEngine} {code : Word} (hs : rx.stage = .locate ∨ rx.stage = .payload)
    (hd : rx.duplicate code = false) (hmiss : ¬rx.Hits code rx.prog) :
    (rxStep rx code).rx.stage = rx.stage ∧ (rxStep rx code).rx.prog = ((rx.sawSlot code).retest (single code)).prog := by
  rcases hs with hs | hs
  · rw [rxStep_locate_breaks hs hd hmiss]
    exact ⟨RxEngine.retest_stage _ _, rfl⟩
  · obtain ⟨symbols, heq⟩ := rxStep_payload_breaks hs hd hmiss
    rw [heq]
    exact ⟨RxEngine.retest_stage _ _, rfl⟩

/-- The match by its cases, in Locate and in Payload. -/
theorem rxStep_match {rx : RxEngine} (code : Word) (hs : rx.stage = .locate ∨ rx.stage = .payload) :
    let r := rxStep rx code
    (rx.duplicate code = true → r.rx.stage = rx.stage ∧ r.rx.prog = rx.prog)
    ∧ (rx.duplicate code = false → rx.Hits code rx.prog → rx.prog.val < 5 →
        r.rx.stage = rx.stage ∧ r.rx.prog.val = rx.prog.val + 1)
    ∧ (rx.duplicate code = false → rx.Hits code rx.prog → rx.prog.val = 5 →
        r.rx.prog = 0 ∧ r.rx.stage = if rx.stage = .locate then .header else .done)
    ∧ (rx.duplicate code = false → ¬rx.Hits code rx.prog →
        r.rx.stage = rx.stage ∧ (rx.Hits code 0 → r.rx.prog = 1) ∧ (¬rx.Hits code 0 → r.rx.prog = 0)) := by
  intro r
  refine ⟨fun hd => ?_, fun hd hhits hp => ?_, fun hd hhits hp => ?_, fun hd hmiss => ?_⟩
  · rw [show r = _ from rxStep_duplicate (hs.imp_right .inr) hd]
    exact ⟨rfl, rfl⟩
  · rw [show r = _ from rxStep_extends hs hd hhits (Nat.succ_lt_succ hp)]
    exact ⟨rfl, rfl⟩
  · rcases hs with hs | hs
    · rw [show r = _ from rxStep_locate_found hs hd hhits hp, if_pos hs]
      exact ⟨rfl, rfl⟩
    · rw [show r = _ from rxStep_payload_found hs hd hhits hp, if_neg (by rw [hs]; exact nofun)]
      exact ⟨rfl, rfl⟩
  · obtain ⟨hstage, hprog⟩ := rxStep_breaks hs hd hmiss
    obtain ⟨hone, hzero⟩ := (rx.sawSlot code).retest_hits code
    exact ⟨hstage, fun h => hprog.trans (by rw [hone h]), fun h => hprog.trans (by rw [hzero h])⟩

/-! ### The stages and their frames -/

theorem RxEngine.retest_frame (rx : RxEngine) (s : Option (Fin 32)) : rx.retest s = { rx with prog := (rx.retest s).prog } := by
  rcases RxEngine.retest_cases rx s with ⟨heq, -⟩ | ⟨heq, -⟩ <;> rw [heq]

/-- Everything a slot can do in Locate: it stays, or enters Header with the header unpacker fresh. -/
theorem rxStep_locate {rx : RxEngine} (hs : rx.stage = .locate) (code : Word) :
    (∃ p : Fin 6, rxStep rx code = .quiet { rx.sawSlot code with prog := p })
    ∨ rxStep rx code = .quiet { rx.sawSlot code with prog := 0, stage := .header, hu := Unpacker.fresh 1 20 } := by
  cases hd : rx.duplicate code with
  | true => exact .inl ⟨rx.prog, rxStep_duplicate (.inl hs) hd⟩
  | false =>
    by_cases hhits : rx.Hits code rx.prog
    · by_cases hp : rx.prog.val + 1 < 6
      · exact .inl ⟨_, rxStep_extends (.inl hs) hd hhits hp⟩
      · exact .inr (rxStep_locate_found hs hd hhits (by have := rx.prog.isLt; omega))
    · refine .inl ⟨((rx.sawSlot code).retest (single code)).prog, ?_⟩
      rw [← RxEngine.retest_frame]
      exact rxStep_locate_breaks hs hd hhits

/-- Everything a slot can do in Payload: it stays, or enters Done. -/
theorem rxStep_payload {rx : RxEngine} (hs : rx.stage = .payload) (code : Word) :
    (∃ (p : Fin 6) (pu : Unpacker) (bytes : List Byte),
      rxStep rx code = ⟨{ rx.sawSlot code with prog := p, pu := pu }, bytes, 0#4⟩)
    ∨ rxStep rx code
      = ⟨{ rx.sawSlot code with prog := 0, stage := .done, outLen := BitVec.ofNat 32 rx.pu.nout }, [], irqRxDone⟩ := by
  cases hd : rx.duplicate code with
  | true => exact .inl ⟨rx.prog, rx.pu, [], rxStep_duplicate (.inr (.inr hs)) hd⟩
  | false =>
    by_cases hhits : rx.Hits code rx.prog
    · by_cases hp : rx.prog.val + 1 < 6
      · exact .inl ⟨_, rx.pu, [], rxStep_extends (.inr hs) hd hhits hp⟩
      · exact .inr (rxStep_payload_found hs hd hhits (by have := rx.prog.isLt; omega))
    · obtain ⟨symbols, heq⟩ := rxStep_payload_breaks hs hd hhits
      rw [RxEngine.retest_frame] at heq
      exact .inl ⟨_, _, _, heq⟩

/-- The receiver with a symbol pushed into the header unpacker (R125). -/
def RxEngine.pushHeader (rx : RxEngine) (symbol : Nat) : RxEngine :=
  { rx with
    hu := (rx.hu.push symbol).1, hbytes := storeHeaderBytes rx.hbytes rx.hu.nout (rx.hu.push symbol).2 }

/-- The five received words (R126). -/
def RxEngine.received (rx : RxEngine) : Params := headerParams fun i => rx.hbytes.toList.getD i 0#8

theorem headerStep_some (rx : RxEngine) (k : Fin 32) :
    headerStep rx (some k)
      = if (rx.hu.push k.val).1.nout = 20 then rxValidate (rx.pushHeader k.val) else .quiet (rx.pushHeader k.val) := rfl

theorem rxValidate_error {rx : RxEngine} {e : ErrorCode} (h : checkHeader rx.received = some e) :
    rxValidate rx = ⟨{ rx with neg := rx.received, stage := .error, err := e.code, prog := 0 }, [], irqRxErr⟩ := by
  simp only [rxValidate, show checkHeader (headerParams fun i => rx.hbytes.toList.getD i 0#8) = some e from h]
  rfl

theorem rxValidate_payload {rx : RxEngine} (h : checkHeader rx.received = none) :
    rxValidate rx = .quiet { rx with
      neg := rx.received, stage := .payload, prog := 0, grid := ⟨rx.received.baseFreq, rx.received.step⟩
      pb := patternBins ⟨rx.received.baseFreq, rx.received.step⟩
      pu := Unpacker.fresh rx.received.symbolBits.toNat rx.received.payloadLen.toNat } := by
  simp only [rxValidate, show checkHeader (headerParams fun i => rx.hbytes.toList.getD i 0#8) = none from h]
  rfl

/-- A slot that is no duplicate and has the one bin `k` gives it to the header unpacker, and the 20th byte ends Header. -/
theorem rxStep_header_pushed {rx : RxEngine} {code : Word} {k : Fin 32} (hs : rx.stage = .header)
    (hd : rx.duplicate code = false) (hk : code = slotCode k.val) :
    rxStep rx code = if (rx.hu.push k.val).1.nout = 20 then rxValidate ((rx.sawSlot code).pushHeader k.val)
      else .quiet ((rx.sawSlot code).pushHeader k.val) := by
  rw [rxStep_header_new hs hd, single_eq_some_iff.2 hk, headerStep_some]
  rfl

/-- A slot that is a duplicate, or has no single bin, leaves Header's unpacker alone. -/
theorem rxStep_header_dropped {rx : RxEngine} {code : Word} (hs : rx.stage = .header)
    (h : rx.duplicate code = true ∨ ∀ k : Fin 32, code ≠ slotCode k.val) :
    rxStep rx code = .quiet (rx.sawSlot code) := by
  cases hd : rx.duplicate code with
  | true => exact rxStep_duplicate (.inr (.inl hs)) hd
  | false =>
    have hnone : single code = none := Option.eq_none_iff_forall_ne_some.2 fun k hk =>
      h.resolve_left (by rw [hd]; exact nofun) k (single_eq_some_iff.1 hk)
    rw [rxStep_header_new hs hd, hnone]
    rfl

/-- The 20th byte leads to Error or to Payload (R126). -/
theorem rxValidate_outcome (rx : RxEngine) :
    (∃ e : ErrorCode, rxValidate rx
      = ⟨{ rx with neg := rx.received, stage := .error, err := e.code, prog := 0 }, [], irqRxErr⟩)
    ∨ ∃ (grid : Grid) (pb : Vector (Option (Fin 32)) 6) (pu : Unpacker), rxValidate rx = .quiet { rx with
        neg := rx.received, stage := .payload, prog := 0, grid := grid, pb := pb, pu := pu } := by
  cases h : checkHeader rx.received with
  | some e => exact .inl ⟨e, rxValidate_error h⟩
  | none => exact .inr ⟨_, _, _, rxValidate_payload h⟩

/-- Everything a slot can do in Header. -/
theorem rxStep_header {rx : RxEngine} (hs : rx.stage = .header) (code : Word) :
    ((rx.duplicate code = true ∨ ∀ k : Fin 32, code ≠ slotCode k.val) ∧ rxStep rx code = .quiet (rx.sawSlot code))
    ∨ ∃ k : Fin 32, rx.duplicate code = false ∧ code = slotCode k.val ∧
      (((rx.hu.push k.val).1.nout ≠ 20 ∧ rxStep rx code = .quiet ((rx.sawSlot code).pushHeader k.val))
      ∨ ((rx.hu.push k.val).1.nout = 20 ∧ rxStep rx code = rxValidate ((rx.sawSlot code).pushHeader k.val))) := by
  by_cases hdrop : rx.duplicate code = true ∨ ∀ k : Fin 32, code ≠ slotCode k.val
  · exact .inl ⟨hdrop, rxStep_header_dropped hs hdrop⟩
  · obtain ⟨hd, hk⟩ := not_or.1 hdrop
    obtain ⟨k, hk⟩ := not_forall_not.1 hk
    rw [Bool.not_eq_true] at hd
    refine .inr ⟨k, hd, hk, ?_⟩
    rw [rxStep_header_pushed hs hd hk]
    by_cases hn : (rx.hu.push k.val).1.nout = 20
    · exact .inr ⟨hn, if_pos hn⟩
    · exact .inl ⟨hn, if_neg hn⟩

/-- Header bytes after a run of them is stored. -/
theorem storeHeaderBytes_getElem (hbytes : Vector Byte 20) (i : Nat) (bytes : List Byte) (j : Fin 20) :
    (storeHeaderBytes hbytes i bytes)[j] =
      if i ≤ j.val ∧ j.val < i + bytes.length then bytes.getD (j.val - i) 0#8 else hbytes[j] := by
  induction bytes generalizing hbytes i with
  | nil => rw [storeHeaderBytes, if_neg (by simp)]
  | cons b bs ih =>
    rw [storeHeaderBytes, ih, List.length_cons]
    by_cases hfirst : i = j.val
    · subst hfirst
      simp
    · have hkeep : (hbytes.setIfInBounds i b)[j] = hbytes[j] := Vector.getElem_setIfInBounds_ne j.isLt hfirst
      rw [hkeep]
      by_cases hin : i + 1 ≤ j.val ∧ j.val < i + 1 + bs.length
      · rw [if_pos hin, if_pos (by omega), show j.val - i = (j.val - (i + 1)) + 1 by omega, List.getD_cons_succ]
      · rw [if_neg hin, if_neg (by omega)]

/-- The stages a slot can move between, with the interrupt bit it sets (R124 to R128; 10_state.md R21). -/
theorem rxStep_moves (rx : RxEngine) (code : Word) :
    ((rxStep rx code).rx.stage = rx.stage ∧ (rxStep rx code).irq = 0#4)
    ∨ (rx.stage = .locate ∧ (rxStep rx code).rx.stage = .header ∧ (rxStep rx code).irq = 0#4)
    ∨ (rx.stage = .header ∧ (rxStep rx code).rx.stage = .payload ∧ (rxStep rx code).irq = 0#4)
    ∨ (rx.stage = .header ∧ (rxStep rx code).rx.stage = .error ∧ (rxStep rx code).irq = 8#4)
    ∨ (rx.stage = .payload ∧ (rxStep rx code).rx.stage = .done ∧ (rxStep rx code).irq = 4#4) := by
  cases hs : rx.stage with
  | locate =>
    rcases rxStep_locate hs code with ⟨p, heq⟩ | heq <;> rw [heq]
    · exact .inl ⟨hs, rfl⟩
    · exact .inr (.inl ⟨rfl, rfl, rfl⟩)
  | header =>
    rcases rxStep_header hs code with ⟨-, heq⟩ | ⟨k, -, -, ⟨-, heq⟩ | ⟨-, heq⟩⟩ <;> rw [heq]
    · exact .inl ⟨hs, rfl⟩
    · exact .inl ⟨hs, rfl⟩
    · rcases rxValidate_outcome ((rx.sawSlot code).pushHeader k.val) with ⟨e, heq⟩ | ⟨grid, pb, pu, heq⟩ <;> rw [heq]
      · exact .inr (.inr (.inr (.inl ⟨rfl, rfl, rfl⟩)))
      · exact .inr (.inr (.inl ⟨rfl, rfl, rfl⟩))
  | payload =>
    rcases rxStep_payload hs code with ⟨p, pu, bytes, heq⟩ | heq <;> rw [heq]
    · exact .inl ⟨hs, rfl⟩
    · exact .inr (.inr (.inr (.inr ⟨rfl, rfl, rfl⟩)))
  | done =>
    rw [rxStep_terminal (.inl hs)]
    exact .inl ⟨hs, rfl⟩
  | error =>
    rw [rxStep_terminal (.inr hs)]
    exact .inl ⟨hs, rfl⟩

/-- Locate leaves all but the stage, the progress and, on entry to Header, the header unpacker (R124). -/
theorem rxStep_locate_frame {rx : RxEngine} (hs : rx.stage = .locate) (code : Word) :
    (rxStep rx code).rx = { rx.sawSlot code with
      stage := (rxStep rx code).rx.stage, prog := (rxStep rx code).rx.prog
      hu := if (rxStep rx code).rx.stage = .header then Unpacker.fresh 1 20 else rx.hu } := by
  rcases rxStep_locate hs code with ⟨p, heq⟩ | heq
  · have hstage : (rxStep rx code).rx.stage ≠ .header := by rw [heq]; exact ne_of_eq_of_ne hs nofun
    rw [if_neg hstage, heq]
    rfl
  · rw [heq]
    rfl

/-- Payload leaves all but the stage, the progress, the payload unpacker and `RX_OUT_LEN`; entry to Done commits
nothing (R127). -/
theorem rxStep_payload_frame {rx : RxEngine} (hs : rx.stage = .payload) (code : Word) :
    let r := rxStep rx code
    r.rx = { rx.sawSlot code with stage := r.rx.stage, prog := r.rx.prog, pu := r.rx.pu, outLen := r.rx.outLen }
      ∧ (r.rx.stage ≠ .done → r.rx.outLen = rx.outLen)
      ∧ (r.rx.stage = .done → r.rx.outLen = BitVec.ofNat 32 r.rx.pu.nout ∧ r.rx.pu = rx.pu ∧ r.bytes = []) := by
  intro r
  rcases rxStep_payload hs code with ⟨p, pu, bytes, heq⟩ | heq
  · have hstage : r.rx.stage ≠ .done := by rw [show r = _ from heq]; exact ne_of_eq_of_ne hs nofun
    rw [show r = _ from heq] at hstage ⊢
    exact ⟨rfl, fun _ => rfl, fun h => absurd h hstage⟩
  · rw [show r = _ from heq]
    exact ⟨rfl, fun h => absurd rfl h, fun _ => ⟨rfl, rfl, rfl⟩⟩

/-- The 20th byte leaves Header, nothing else does. -/
theorem rxValidate_stage_ne_header (rx : RxEngine) : (rxValidate rx).rx.stage ≠ .header := by
  rcases rxValidate_outcome rx with ⟨e, heq⟩ | ⟨grid, pb, pu, heq⟩ <;> rw [heq] <;> exact nofun

/-- A slot given to the header unpacker: the unpacker, the bytes, and what the three stages that can follow leave
(R125, R126). -/
theorem rxStep_header_frame {rx : RxEngine} {code : Word} {k : Fin 32} (hs : rx.stage = .header)
    (hd : rx.duplicate code = false) (hk : code = slotCode k.val) :
    let r := rxStep rx code
    let pushed := rx.hu.push k.val
    let seen := rx.sawSlot code
    r.rx.hu = pushed.1
    ∧ (∀ i : Fin 20, r.rx.hbytes[i] =
        if rx.hu.nout ≤ i.val ∧ i.val < rx.hu.nout + pushed.2.length
        then pushed.2.getD (i.val - rx.hu.nout) 0#8 else rx.hbytes[i])
    ∧ (r.rx.stage = .header → r.rx = { seen with hu := r.rx.hu, hbytes := r.rx.hbytes })
    ∧ (r.rx.stage ≠ .header → r.rx.neg =
        ⟨r.rx.headerWord 0, r.rx.headerWord 4, r.rx.headerWord 8, r.rx.headerWord 12, r.rx.headerWord 16⟩)
    ∧ (r.rx.stage = .error → r.rx = { seen with
        stage := .error, prog := 0, hu := r.rx.hu, hbytes := r.rx.hbytes, neg := r.rx.neg, err := r.rx.err })
    ∧ (r.rx.stage = .payload → r.rx = { seen with
        stage := .payload, prog := 0, hu := r.rx.hu, hbytes := r.rx.hbytes, neg := r.rx.neg, grid := r.rx.grid
        pb := r.rx.pb, pu := r.rx.pu }) := by
  intro r pushed seen
  have hseen : seen.stage = .header := hs
  have hbytes : ∀ i : Fin 20, (storeHeaderBytes rx.hbytes rx.hu.nout pushed.2)[i] = _ :=
    storeHeaderBytes_getElem rx.hbytes rx.hu.nout pushed.2
  have heq : r = if pushed.1.nout = 20 then rxValidate (seen.pushHeader k.val) else .quiet (seen.pushHeader k.val) :=
    rxStep_header_pushed hs hd hk
  split at heq
  · rcases rxValidate_outcome (seen.pushHeader k.val) with ⟨e, hout⟩ | ⟨grid, pb, pu, hout⟩ <;> rw [heq, hout]
    · exact ⟨rfl, hbytes, nofun, fun _ => rfl, fun _ => rfl, nofun⟩
    · exact ⟨rfl, hbytes, nofun, fun _ => rfl, nofun, fun _ => rfl⟩
  · rw [heq]
    have hstage : (SlotResult.quiet (seen.pushHeader k.val)).rx.stage = .header := hseen
    rw [hstage]
    exact ⟨rfl, hbytes, fun _ => rfl, fun h => absurd rfl h, nofun, nofun⟩

/-- Settles O31: the moves, the match, and the frame of each stage. -/
theorem stageTransitions : Obligations.StageTransitions := by
  intro rx code r hits seen
  have hmoves : _ ∨ _ := rxStep_moves rx code
  refine ⟨?_, ?_, fun hs => ?_, rxStep_match code, fun hs => rxStep_locate_frame hs code,
    fun hs => rxStep_payload_frame hs code, fun hs hd => ⟨fun hk => ?_, fun k hk => rxStep_header_frame hs hd hk⟩,
    fun hs => ?_, fun k => single_eq_some_iff⟩
  · rcases hmoves with ⟨hstage, -⟩ | ⟨hs, hstage, -⟩ | ⟨hs, hstage, -⟩ | ⟨hs, hstage, -⟩ | ⟨hs, hstage, -⟩
    · cases hs : rx.stage <;> simp [r, hstage, hs]
    all_goals simp [r, hs, hstage]
  · rcases hmoves with ⟨hstage, hirq⟩ | ⟨hs, hstage, hirq⟩ | ⟨hs, hstage, hirq⟩ | ⟨hs, hstage, hirq⟩ | ⟨hs, hstage, hirq⟩
    · cases hs : rx.stage <;> simp [r, hstage, hs, hirq]
    all_goals simp [r, hs, hstage, hirq]
  · exact (rxStep_unpacks_nothing fun h => hs h.1).1
  · rw [show r = _ from rxStep_header_dropped hs (.inr hk)]
    rfl
  · rcases rxStep_header hs code with ⟨hdrop, heq⟩ | ⟨k, hd, hk, ⟨hn, heq⟩ | ⟨hn, heq⟩⟩
    · rw [show r = _ from heq]
      refine iff_of_false (fun h => h hs) ?_
      rintro ⟨hd, k, hk, -⟩
      exact hdrop.elim (by rw [hd]; exact nofun) fun hnone => hnone k hk
    · rw [show r = _ from heq]
      refine iff_of_false (fun h => h hs) ?_
      rintro ⟨-, j, hj, hout⟩
      rw [hk, ← single_eq_some_iff, single_eq_some_iff.2 rfl] at hj
      exact hn (Option.some.inj hj ▸ hout)
    · rw [show r = _ from heq]
      exact iff_of_true (rxValidate_stage_ne_header _) ⟨hd, k, hk, hn⟩

end Sys2Proof.Machine

/-! Header reception (44_receiver.md R124 to R126): a header sent one slot for each symbol is received, and checked. -/

namespace Sys2Proof.Machine

/-! ### The pattern leads to Header -/

theorem rxFeed_sound {rx : RxEngine} (h : rx.Sound) (codes : List Word) : (rxFeed rx codes).1.Sound := by
  induction codes generalizing rx with
  | nil => exact h
  | cons code codes ih => exact ih (h.keeps_rxStep code)

/-- A receiver that has found the pattern and read no header slot. -/
structure RxEngine.AtHeader (rx : RxEngine) : Prop where
  sound : rx.Sound
  stage : rx.stage = .header
  prev : rx.prev = some ⟨slotCode 2, rx.grid⟩
  hu : rx.hu = Unpacker.fresh 1 20

/-- Only the sixth code of the pattern completes it, so it is that slot that enters Header. -/
theorem rxFeed_pattern_atHeader (header : Vector Byte 20) :
    (rxFeed (RxEngine.resetOver header) patternCodes).1.AtHeader := by
  obtain ⟨rx, hrx⟩ : ∃ rx, (rxFeed (RxEngine.resetOver header) [1#32, 4#32, 2#32, 4#32, 1#32]).1 = rx := ⟨_, rfl⟩
  have hlast : (rxFeed (RxEngine.resetOver header) patternCodes).1 = (rxStep rx 4#32).rx := by
    rw [show patternCodes = [1#32, 4#32, 2#32, 4#32, 1#32] ++ [4#32] from rfl, rxFeed_append, hrx]
    rfl
  have hlocate : rx.stage = .locate := by
    by_contra hleft
    rw [← hrx, ← ne_eq, rxFeed_resetOver_left_iff] at hleft
    exact absurd hleft (by decide)
  have hleft : (rxStep rx 4#32).rx.stage ≠ .locate := hlast ▸ rxFeed_resetOver_pattern header []
  have hsound : (rxStep rx 4#32).rx.Sound := hlast ▸ rxFeed_sound (RxEngine.resetOver_sound header) _
  rw [hlast]
  rcases rxStep_locate hlocate 4#32 with ⟨p, heq⟩ | heq
  · exact absurd (heq ▸ hlocate) hleft
  · refine ⟨hsound, ?_, ?_, ?_⟩ <;> rw [heq] <;> rfl

/-! ### One header symbol -/

theorem slotCode_injective : ∀ {i j : Nat}, i < 32 → j < 32 → slotCode i = slotCode j → i = j := by
  intro i j hi hj h
  have hsingle := (single_eq_some_iff (k := ⟨j, hj⟩)).2 h
  rw [(single_eq_some_iff (k := ⟨i, hi⟩)).2 rfl] at hsingle
  exact congrArg Fin.val (Option.some.inj hsingle)

/-- The bits an unpacker has taken in. -/
def Unpacker.bitsIn (u : Unpacker) : Nat := 8 * u.nout + u.nacc

theorem Unpacker.pushBits_one_bitsIn (u : Unpacker) (b : Bool) : (u.pushBits [b]).1.bitsIn = u.bitsIn + 1 := by
  by_cases hfull : u.nacc + 1 = 8
  · have hdone : (u.pushBits [b]).1 = u.emitted := by
      by_cases hlast : u.target ≤ u.nout + 1
      · rw [Unpacker.pushBits_cons_last hfull hlast]
      · rw [Unpacker.pushBits_cons_full hfull hlast]
        rfl
    rw [hdone]
    simp only [Unpacker.bitsIn, Unpacker.emitted]
    omega
  · rw [Unpacker.pushBits_cons_partial hfull]
    simp only [Unpacker.bitsIn, Unpacker.shifted, Unpacker.pushBits_nil]
    omega

/-- The header unpacker takes one bit from each symbol, and has resolved the last one (R125). -/
structure Unpacker.OneBit (u : Unpacker) (symbols : List Nat) : Prop where
  sb : u.sb = 1
  target : u.target = 20
  nacc : u.nacc < 8
  /-- The symbols to come fill the record. -/
  room : u.bitsIn + symbols.length = 160
  /-- No symbol is a copy of the one before it. -/
  distinct : (u.prevRaw.toList ++ symbols).IsChain (· ≠ ·)
  /-- A sentinel has a symbol before it. -/
  resolved : u.prevRes = none → symbols.head? ≠ some 0

theorem Unpacker.OneBit.push {u : Unpacker} {x : Nat} {xs : List Nat} (h : u.OneBit (x :: xs)) :
    (u.push x).1.OneBit xs := by
  have hroom := h.room
  rw [List.length_cons, Unpacker.bitsIn] at hroom
  have ho : u.nout < u.target := by rw [h.target]; omega
  have hraw : u.prevRaw ≠ some x := fun hraw => by
    have hdistinct := h.distinct
    rw [hraw, Option.toList_some, List.singleton_append, List.isChain_cons_cons] at hdistinct
    exact hdistinct.1 rfl
  obtain ⟨res, hres⟩ : ∃ res, resolvedBin u.prevRes x = some res := by
    rw [← Option.ne_none_iff_exists']
    intro hnone
    unfold resolvedBin at hnone
    split at hnone
    next hzero => exact h.resolved hnone (congrArg some hzero)
    next => cases hnone
  have heq : u.push x = (u.seen x (some res)).pushBits (binBits u.sb res) := by
    rw [Unpacker.push_new ho hraw, hres, Option.toList_some, List.flatMap_singleton]
  obtain ⟨b, hb⟩ : ∃ b, binBits u.sb res = [b] := List.length_eq_one_iff.1 ((binBits_length _ _).trans h.sb)
  rw [hb] at heq
  obtain ⟨hsb, htarget, hprevRaw, hprevRes, -, -, hnacc⟩ := Unpacker.pushBits_facts (u.seen x (some res)) [b] h.nacc ho
  have hbits : (u.push x).1.bitsIn = u.bitsIn + 1 := heq ▸ Unpacker.pushBits_one_bitsIn (u.seen x (some res)) b
  rw [← heq] at hsb htarget hprevRaw hprevRes hnacc
  refine ⟨hsb.trans h.sb, htarget.trans h.target, hnacc, ?_, ?_, fun hnone => ?_⟩
  · rw [hbits, ← h.room, List.length_cons]
    omega
  · rw [hprevRaw]
    exact h.distinct.suffix (List.suffix_append _ _)
  · rw [hprevRes] at hnone
    cases hnone

/-- A receiver in Header that is about to read the last symbols of a header. -/
structure RxEngine.Reading (rx : RxEngine) (symbols : List Nat) : Prop where
  stage : rx.stage = .header
  step : stepLegal rx.grid.step = true
  /-- The slot remembered is the code of a bin, and not of the next symbol's. -/
  prev : ∃ c, c < 32 ∧ rx.prev = some ⟨slotCode c, rx.grid⟩ ∧ (c :: symbols).IsChain (· ≠ ·)
  bins : ∀ x ∈ symbols, x < 32
  hu : rx.hu.OneBit symbols

namespace RxEngine.Reading

variable {rx : RxEngine} {x : Nat} {xs : List Nat} (h : rx.Reading (x :: xs))
include h

theorem not_duplicate : rx.duplicate (slotCode x) = false := by
  obtain ⟨c, hc, hprev, hchain⟩ := h.prev
  rw [List.isChain_cons_cons] at hchain
  rw [← Bool.not_eq_true, RxEngine.duplicate, hprev]
  intro hsame
  exact hchain.1 (slotCode_injective hc (h.bins x List.mem_cons_self)
    ((sameFrequencies_same_grid h.step (slotCode c) (slotCode x)).1 hsame))

theorem rxStep_eq : rxStep rx (slotCode x) = if (rx.hu.push x).1.nout = 20
    then rxValidate ((rx.sawSlot (slotCode x)).pushHeader x) else .quiet ((rx.sawSlot (slotCode x)).pushHeader x) :=
  rxStep_header_pushed (k := ⟨x, h.bins x List.mem_cons_self⟩) h.stage h.not_duplicate rfl

theorem next : ((rx.sawSlot (slotCode x)).pushHeader x).Reading xs := by
  obtain ⟨c, -, -, hchain⟩ := h.prev
  rw [List.isChain_cons_cons] at hchain
  exact ⟨h.stage, h.step, ⟨x, h.bins x List.mem_cons_self, rfl, hchain.2⟩,
    fun y hy => h.bins y (List.mem_cons_of_mem x hy), h.hu.push⟩

theorem push_nout : (rx.hu.push x).1.nout = rx.hu.nout + (rx.hu.push x).2.length := by
  have hroom := h.hu.room
  rw [List.length_cons, Unpacker.bitsIn] at hroom
  exact (Unpacker.push_facts rx.hu x h.hu.nacc (by rw [h.hu.target]; omega)).2.2.1

end RxEngine.Reading

theorem storeHeaderBytes_append (hbytes : Vector Byte 20) (i : Nat) (xs ys : List Byte) :
    storeHeaderBytes hbytes i (xs ++ ys) = storeHeaderBytes (storeHeaderBytes hbytes i xs) (i + xs.length) ys := by
  induction xs generalizing hbytes i with
  | nil => rfl
  | cons x xs ih => rw [List.cons_append, storeHeaderBytes, storeHeaderBytes, ih, List.length_cons, Nat.add_right_comm,
      Nat.add_assoc]

/-- The receiver with several symbols pushed into the header unpacker. -/
def RxEngine.pushHeaderAll (rx : RxEngine) (symbols : List Nat) : RxEngine :=
  { rx with
    hu := (rx.hu.pushAll symbols).1, hbytes := storeHeaderBytes rx.hbytes rx.hu.nout (rx.hu.pushAll symbols).2 }

theorem RxEngine.pushHeaderAll_nil (rx : RxEngine) : rx.pushHeaderAll [] = rx := rfl

theorem RxEngine.pushHeaderAll_cons {rx : RxEngine} {x : Nat}
    (h : (rx.hu.push x).1.nout = rx.hu.nout + (rx.hu.push x).2.length) (xs : List Nat) :
    rx.pushHeaderAll (x :: xs) = (rx.pushHeader x).pushHeaderAll xs := by
  rw [RxEngine.pushHeaderAll, Unpacker.pushAll_cons, storeHeaderBytes_append, ← h]
  rfl

namespace RxEngine.Reading

variable {rx : RxEngine} {x : Nat}

/-- The last symbol fills the record. -/
theorem rxStep_last (h : rx.Reading [x]) :
    rxStep rx (slotCode x) = rxValidate ((rx.sawSlot (slotCode x)).pushHeader x) := by
  have hroom := h.hu.push.room
  have hnacc := h.hu.push.nacc
  rw [List.length_nil, Unpacker.bitsIn] at hroom
  rw [h.rxStep_eq, if_pos (by omega)]

/-- A symbol with others to come does not. -/
theorem rxStep_more {y : Nat} {ys : List Nat} (h : rx.Reading (x :: y :: ys)) :
    rxStep rx (slotCode x) = .quiet ((rx.sawSlot (slotCode x)).pushHeader x) := by
  have hroom := h.hu.push.room
  rw [List.length_cons, Unpacker.bitsIn] at hroom
  rw [h.rxStep_eq, if_neg (by omega)]

/-- The symbols that fill the record are pushed in turn, and the last of them ends Header with its check. -/
theorem rxFeed_eq {xs : List Nat} (h : rx.Reading (x :: xs)) :
    ∃ slots prev, (rxFeed rx ((x :: xs).map slotCode)).1
      = (rxValidate (RxEngine.pushHeaderAll { rx with slots := slots, prev := prev } (x :: xs))).rx := by
  induction xs generalizing rx x with
  | nil =>
    refine ⟨rx.slots + 1#32, some ⟨slotCode x, rx.grid⟩, ?_⟩
    have hpushed := RxEngine.pushHeaderAll_cons (rx := rx.sawSlot (slotCode x)) h.push_nout []
    rw [List.map_cons, List.map_nil, rxFeed_cons, rxFeed_nil, h.rxStep_last]
    exact congrArg (fun rx => (rxValidate rx).rx) hpushed.symm
  | cons y ys ih =>
    obtain ⟨slots, prev, heq⟩ := ih h.next
    refine ⟨slots, prev, ?_⟩
    have hpushed := RxEngine.pushHeaderAll_cons (rx := { rx with slots := slots, prev := prev }) h.push_nout (y :: ys)
    rw [List.map_cons, rxFeed_cons, h.rxStep_more, SlotResult.quiet_rx, heq]
    exact congrArg (fun rx => (rxValidate rx).rx) hpushed.symm

end RxEngine.Reading

/-! ### The symbols of a header -/

/-- A header whose first bit is 0 begins with bin 1. -/
theorem headerSymbols_head {p : Params} (h : p.symbolBits.msb = false) :
    (packSymbols (headerBytes p) 1 1)[0]? = some 1 := by
  have hbit : (p.symbolBits.extractLsb' 24 8).toNat.testBit 7 = false := by
    rw [BitVec.testBit_toNat, BitVec.getLsbD_extractLsb', ← h, BitVec.msb_eq_getLsbD_last]
    rfl
  obtain ⟨bits, hbits⟩ : ∃ bits, bitsOfBytes (headerBytes p) = false :: bits := by
    have hfirst : bitsOfBytes (headerBytes p)
        = bitsOf (7 + 1) (p.symbolBits.extractLsb' 24 8).toNat ++ bitsOfBytes (headerBytes p).tail := rfl
    rw [hfirst, bitsOf_succ, hbit]
    exact ⟨_, rfl⟩
  have hcount : 0 < (padBits 1 (bitsOfBytes (headerBytes p))).length / 1 := by
    rw [padBits_length Nat.one_pos, bitsOfBytes_length, headerBytes_length]
    decide
  have hgroup : (groupValues 1 (headerBytes p))[0]? = some 0 := by
    rw [groupValues, List.getElem?_map, groupsOf_getElem? _ _ _ hcount, hbits]
    rfl
  rw [packSymbols_one, emitSymbols_getElem?, dataBins, List.getElem?_map, hgroup]
  rfl

/-- The symbols of a header as a receiver at Header reads them. -/
theorem RxEngine.AtHeader.reading {rx : RxEngine} (h : rx.AtHeader) {p : Params} (hp : p.symbolBits.msb = false) :
    rx.Reading (packSymbols (headerBytes p) 1 1) := by
  obtain ⟨hgrid, -⟩ := h.sound.base (by rw [h.stage]; rfl)
  obtain ⟨hchain, hhead⟩ := noAdjacentEmittedRepeat (headerBytes p) 1 le_rfl
  obtain ⟨xs, hxs⟩ : ∃ xs, packSymbols (headerBytes p) 1 1 = 1 :: xs :=
    List.head?_eq_some_iff.1 (List.head?_eq_getElem?.trans (headerSymbols_head hp))
  refine ⟨h.stage, hgrid ▸ stepLegal_baseGrid, ⟨2, by decide, h.prev, ?_⟩, fun x hx => ?_, ?_⟩
  · rw [hxs] at hchain ⊢
    exact .cons_cons (by decide) hchain
  · exact lt_of_le_of_lt (packSymbols_le le_rfl hx) (by decide)
  · have hroom : (Unpacker.fresh 1 20).bitsIn = 0 := rfl
    rw [h.hu]
    exact ⟨rfl, rfl, Nat.zero_lt_succ 7, by rw [hroom, headerSymbols_length], hchain, fun _ => hhead⟩

theorem Unpacker.OneBit.pushAll {u : Unpacker} {symbols : List Nat} (h : u.OneBit symbols) :
    (u.pushAll symbols).1.OneBit [] := by
  induction symbols generalizing u with
  | nil => exact h
  | cons x xs ih => exact ih h.push

/-- A header's bytes in place of the record read back as its fields. -/
theorem RxEngine.received_eq {rx : RxEngine} {p : Params} {hbytes : Vector Byte 20}
    (h : rx.hbytes = storeHeaderBytes hbytes 0 (headerBytes p)) : rx.received = p := by
  refine headerParams_of_record fun i hi => ?_
  have hbyte := storeHeaderBytes_getElem hbytes 0 (headerBytes p) ⟨i, hi⟩
  rw [if_pos ⟨Nat.zero_le i, by rw [headerBytes_length]; omega⟩, ← h, Nat.sub_zero] at hbyte
  rw [← hbyte, List.getD_eq_getElem _ _ (by simpa using hi), Vector.getElem_toList]
  rfl

/-- A receiver at Header reads symbols that unpack to a header: it is that of the header's check, with the header's
fields and the record full. -/
theorem RxEngine.AtHeader.rxFeed_eq {start : RxEngine} (h : start.AtHeader) {symbols : List Nat}
    (hreading : start.Reading symbols) {p : Params}
    (hbytes : ((Unpacker.fresh 1 20).pushAll symbols).2 = headerBytes p) :
    ∃ rx : RxEngine, (rxFeed start (symbols.map slotCode)).1 = (rxValidate rx).rx
      ∧ rx.received = p ∧ rx.hu.nout = 20 ∧ rx.hu.nacc = 0 ∧ rx.grid = Grid.baseGrid ∧ rx.err = 0#8 := by
  have hfull := hreading.hu.pushAll
  have hnacc := hfull.nacc
  have hroom := hfull.room
  rw [List.length_nil, Unpacker.bitsIn] at hroom
  have hnout : (start.hu.pushAll symbols).1.nout = 20 := by omega
  obtain ⟨x, xs, rfl⟩ : ∃ x xs, symbols = x :: xs := by
    refine List.exists_cons_of_ne_nil fun hnil => ?_
    rw [hnil, Unpacker.pushAll_nil, h.hu] at hnout
    cases hnout
  obtain ⟨slots, prev, heq⟩ := hreading.rxFeed_eq
  refine ⟨_, heq, RxEngine.received_eq (hbytes := start.hbytes) ?_, hnout, ?_, ?_, ?_⟩
  · simp only [RxEngine.pushHeaderAll, h.hu, hbytes]
    rfl
  · change (start.hu.pushAll _).1.nacc = 0
    omega
  · exact (h.sound.base (by rw [h.stage]; rfl)).1
  · exact h.sound.err.2 (by rw [h.stage]; exact nofun)

/-- After the pattern and a header's symbols, the receiver is that of the header's check. -/
theorem rxFeed_header (header : Vector Byte 20) {p : Params} (hp : p.symbolBits.msb = false) :
    ∃ rx : RxEngine, (rxFeed (RxEngine.resetOver header)
        (patternCodes ++ (packSymbols (headerBytes p) 1 1).map slotCode)).1 = (rxValidate rx).rx
      ∧ rx.received = p ∧ rx.hu.nout = 20 ∧ rx.hu.nacc = 0 ∧ rx.grid = Grid.baseGrid ∧ rx.err = 0#8 := by
  have hstart := rxFeed_pattern_atHeader header
  have hinverse := unpackInvertsPack (headerBytes p) 1 1 (by rw [headerBytes_length]; decide) le_rfl (by decide) le_rfl
  rw [headerBytes_length, unpackSymbols] at hinverse
  rw [rxFeed_append]
  exact hstart.rxFeed_eq (hstart.reading hp) hinverse

/-! ### The checks of a received header (R126) -/

theorem checkHeader_eq (p : Params) :
    let sb := p.symbolBits.toInt
    let mod := p.modulation.toInt
    let len := p.payloadLen.toInt
    checkHeader p =
      if mod = 1 ∨ mod = 2 then some .unsupportedModulation
      else if ¬(0 ≤ mod ∧ mod ≤ 2) then some .badModulation
      else if ¬(1 ≤ sb ∧ sb ≤ 4) then some .badSymbolBits
      else if finite p.baseFreq = false then some .badBaseFreq
      else if finite p.step = false ∨ scaled p.step ≤ 0 then some .badStep
      else if ¬(0 ≤ len ∧ len ≤ 4096) then some .badLength
      else none := by
  intro sb mod len
  have hbits : (!symbolBitsWithin 4 p.symbolBits) = true ↔ ¬(1 ≤ sb ∧ sb ≤ 4) := by
    rw [Bool.not_eq_true', ← Bool.not_eq_true, symbolBitsWithin_iff]; rfl
  have hstep : (!stepLegal p.step) = true ↔ finite p.step = false ∨ scaled p.step ≤ 0 := by
    rw [Bool.not_eq_true', ← Bool.not_eq_true, stepLegal_iff, not_not]
  have hfinite : (!finite p.baseFreq) = true ↔ finite p.baseFreq = false := by rw [Bool.not_eq_true']
  unfold checkHeader
  simp only [sbMaxRx_eq, rxBytes_eq]
  exact if_congr Iff.rfl rfl (if_congr Iff.rfl rfl (if_congr hbits rfl (if_congr hfinite rfl (if_congr hstep rfl
    (if_congr Iff.rfl rfl rfl)))))

theorem binAt_eq_some_iff {g : Grid} (h : stepLegal g.step = true) {hz : Nat} {k : Fin 32} :
    binAt g hz = some k ↔ frequency g k.val = (hz : Int) * 2 ^ 149 := by
  have hunits : ((hz * unitsPerHz : Nat) : Int) = hz * 2 ^ 149 := by rw [unitsPerHz]; push_cast; rfl
  constructor
  · intro hfind
    have hfreq := List.find?_some hfind
    rwa [beq_iff_eq, hunits] at hfreq
  · intro hfreq
    cases hfind : binAt g hz with
    | none => exact absurd hfreq (binAt_eq_none_iff.1 hfind k.val k.isLt)
    | some j =>
      have hfreq' := List.find?_some hfind
      rw [beq_iff_eq, hunits, ← hfreq] at hfreq'
      rw [Fin.ext (frequency_injective h hfreq')]

/-- The pattern bins of a grid are told by their frequencies. -/
theorem patternBins_eq_some_iff {g : Grid} (h : stepLegal g.step = true) {patternHz : Vector Int 6}
    (hHz : ∀ j : Fin 6, ((Config.patternHz[j] : Nat) : Int) = patternHz[j]) (j : Fin 6) (k : Fin 32) :
    (patternBins g)[j] = some k ↔ frequency g k.val = patternHz[j] * 2 ^ 149 := by
  rw [patternBins_getElem, binAt_eq_some_iff h, hHz]

/-- A chain of checks that answer an error or none, and what follows from each answer. -/
theorem ite_of_headerCheck {c P Q : Prop} [Decidable c] {check rest : Option ErrorCode} {e : ErrorCode}
    (hcheck : check = if c then some e else rest) (herror : check = some e → P) (hpass : ¬c → check = rest → Q) :
    if c then P else Q := by
  split
  next hc => exact herror (by rw [hcheck, if_pos hc])
  next hc => exact hpass hc (by rw [hcheck, if_neg hc])

/-- What the check of a full record leaves: the fields, and one outcome for each of its answers. -/
theorem rxValidate_outcomes {full rx : RxEngine} {p : Params} (hrx : rx = (rxValidate full).rx)
    (hreceived : full.received = p) (hgrid : full.grid = Grid.baseGrid) (herr : full.err = 0#8) {patternHz : Vector Int 6}
    (hHz : ∀ j : Fin 6, ((Config.patternHz[j] : Nat) : Int) = patternHz[j]) :
    let rejected (code : Byte) : Prop :=
      rx.stage = .error ∧ rx.err = code ∧ rx.prog = 0 ∧ rx.grid = ⟨0x465AC000#32, 0x43FA0000#32⟩
    let sb := p.symbolBits.toInt
    let mod := p.modulation.toInt
    let len := p.payloadLen.toInt
    rx.neg = p ∧ rx.hu = full.hu ∧
      if mod = 1 ∨ mod = 2 then rejected 0x02#8
      else if ¬(0 ≤ mod ∧ mod ≤ 2) then rejected 0x03#8
      else if ¬(1 ≤ sb ∧ sb ≤ 4) then rejected 0x04#8
      else if finite p.baseFreq = false then rejected 0x05#8
      else if finite p.step = false ∨ scaled p.step ≤ 0 then rejected 0x06#8
      else if ¬(0 ≤ len ∧ len ≤ 4096) then rejected 0x09#8
      else rx.stage = .payload ∧ rx.err = 0#8 ∧ rx.prog = 0 ∧ rx.grid = ⟨p.baseFreq, p.step⟩
        ∧ (∀ (j : Fin 6) (k : Fin 32),
            rx.pb[j] = some k ↔ frequency ⟨p.baseFreq, p.step⟩ k.val = patternHz[j] * 2 ^ 149)
        ∧ rx.pu = ⟨sb.toNat, len.toNat, none, none, 0#8, 0, 0⟩ := by
  intro rejected sb mod len
  have hcheck := checkHeader_eq p
  have hfail : ∀ {e : ErrorCode}, checkHeader p = some e → rejected e.code := fun {e} h => by
    have hout := rxValidate_error (hreceived.symm ▸ h)
    rw [hout] at hrx
    subst hrx
    exact ⟨rfl, rfl, rfl, hgrid⟩
  have hkept : rx.neg = p ∧ rx.hu = full.hu := by
    rcases rxValidate_outcome full with ⟨e, hout⟩ | ⟨grid, pb, pu, hout⟩ <;> rw [hrx, hout] <;> exact ⟨hreceived, rfl⟩
  refine ⟨hkept.1, hkept.2, ?_⟩
  refine ite_of_headerCheck hcheck hfail fun _ hcheck => ?_
  refine ite_of_headerCheck hcheck hfail fun _ hcheck => ?_
  refine ite_of_headerCheck hcheck hfail fun hsb hcheck => ?_
  refine ite_of_headerCheck hcheck hfail fun _ hcheck => ?_
  refine ite_of_headerCheck hcheck hfail fun hstep hcheck => ?_
  refine ite_of_headerCheck hcheck hfail fun hlen hcheck => ?_
  have hout := rxValidate_payload (hreceived.symm ▸ hcheck)
  have hsbNat : sb.toNat = p.symbolBits.toNat := toNat_toInt_of_pos (not_not.1 hsb).1
  have hlenNat : len.toNat = p.payloadLen.toNat := by
    have hcond := BitVec.toInt_eq_toNat_cond p.payloadLen
    split at hcond <;> omega
  rw [hreceived] at hout
  rw [hout] at hrx
  have hpb : rx.pb = patternBins ⟨p.baseFreq, p.step⟩ := by rw [hrx]; rfl
  have hpu : rx.pu = Unpacker.fresh sb.toNat len.toNat := by rw [hrx, hsbNat, hlenNat]; rfl
  refine ⟨by rw [hrx]; rfl, by rw [hrx]; exact herr, by rw [hrx]; rfl, by rw [hrx]; rfl, ?_, hpu⟩
  rw [hpb]
  exact patternBins_eq_some_iff (g := ⟨p.baseFreq, p.step⟩) (stepLegal_iff.2 hstep) hHz

/-- Settles O35: the header's symbols lead to its check, with the record full. -/
theorem headerReception : Obligations.HeaderReception := by
  intro header p hp
  obtain ⟨full, hfull, hreceived, hnout, hnacc, hgrid, herr⟩ := rxFeed_header header hp
  obtain ⟨hneg, hhu, houtcome⟩ := rxValidate_outcomes hfull hreceived hgrid herr
    (patternHz := #v[14000, 15000, 14500, 15000, 14000, 15000]) (by decide)
  exact ⟨hneg, hhu ▸ hnout, hhu ▸ hnacc, houtcome⟩

end Sys2Proof.Machine

/-! The step and the acceptance of commands (20_memory.md R69; 45_control.md R134): what each event does, and that a run
takes them all. -/

namespace Sys2Proof.Machine

/-! ### One event -/

theorem step_of_event {s : State} {e : Event} {rest : List Event} (h : s.agenda = e :: rest) :
    step s = ({ s with agenda := rest } : State).runEvent e := by
  rw [step, State.advance, h, State.takeEvent, h]
  rfl

theorem step_of_empty {s : State} (h : s.agenda = []) : step s = .next s.complete := by
  rw [step, State.advance, h]
  rfl

theorem State.runTransaction_ok {s : State} {t : Transaction} {i : Instr} (h : decode t = .ok i) :
    s.runTransaction t = exec i s := by
  rw [State.runTransaction, h]

theorem State.runTransaction_error {s : State} {t : Transaction} {why : DecodeError} (h : decode t = .error why) :
    s.runTransaction t = .refused (.noSuchTransaction t why) := by
  rw [State.runTransaction, h]

/-- Settles O5. -/
theorem stepRunsDecodedInstruction : Obligations.StepRunsDecodedInstruction := fun _ _ _ _ hagenda hdecode =>
  (step_of_event hagenda).trans (State.runTransaction_ok hdecode)

/-- Settles O6: one equation for each kind of step. -/
theorem stepTakesOtherEvents : Obligations.StepTakesOtherEvents := fun _ =>
  ⟨fun _ hagenda => step_of_event hagenda, fun _ hagenda => step_of_event hagenda,
    fun _ _ _ hagenda hdecode => (step_of_event hagenda).trans (State.runTransaction_error hdecode), step_of_empty⟩

/-- Settles O43. -/
theorem powerOnResets : Obligations.PowerOnResets := fun s _ hagenda =>
  ⟨unspecifiedHeader s.nextDraw, step_of_event hagenda⟩

/-! ### Commands -/

/-- A command instruction is a write of its word. -/
theorem exec_command {i : Instr} {w : Word} (h : commandWord i = some w) (s : State) :
    exec i s = .next (s.acceptCommand w) := by
  cases i <;> cases h <;> rfl

/-- Settles O7: a write of a command word is accepted when idle and rejected when busy. -/
theorem commandWriteAcceptedOrRefused : Obligations.CommandWriteAcceptedOrRefused := by
  intro i w s hi
  rw [exec_command hi]
  refine ⟨fun hidle => ⟨0#32, ?_⟩, fun hbusy => ?_⟩
  · rw [State.acceptCommand_idle hidle]
    rfl
  · obtain ⟨v, hv⟩ := Option.isSome_iff_exists.1 hbusy
    rw [State.acceptCommand_busy hv]
    rfl

/-! ### A run takes every event -/

/-- No instruction touches the events to come. -/
theorem State.Access.agenda {s t : State} {i : Instr} (h : s.Access i t) : t.agenda = s.agenda := by
  cases h <;> simp [State.pushSlot]

/-- A completion leaves no command pending. -/
theorem State.complete_pending (s : State) : s.complete.tx.pending = none := by
  rcases State.complete_result s with ⟨hidle, heq⟩ | ⟨w, r, -, -, heq⟩ | ⟨w, e, -, -, heq⟩ <;> rw [heq]
  · exact hidle
  · rfl
  · rfl

/-- A step takes one event, whose bus word decodes. -/
theorem step_takes {s : State} {e : Event} {rest : List Event} (hagenda : s.agenda = e :: rest)
    (hdecodes : s.agendaDecodes) : ∃ t, step s = .next t ∧ t.agenda = rest := by
  rw [step_of_event hagenda]
  cases e with
  | bus word =>
    obtain ⟨i, hi⟩ := hdecodes word (hagenda ▸ List.mem_cons_self)
    obtain ⟨t, ht⟩ := exec_next i { s with agenda := rest }
    exact ⟨t, (State.runTransaction_ok hi).trans ht, (exec_access ht).agenda⟩
  | completion => exact ⟨_, rfl, State.complete_agenda _⟩
  | powerOn => exact ⟨_, rfl, rfl⟩

theorem runSteps_succ {s t : State} (h : step s = .next t) (n : Nat) : runSteps (n + 1) s = runSteps n t := by
  rw [runSteps, h]

/-- Settles O60, by induction on the events to come. -/
theorem agendaDrains : Obligations.AgendaDrains := by
  intro s hdecodes
  induction hagenda : s.agenda generalizing s with
  | nil =>
    exact ⟨s.complete, runSteps_succ (step_of_empty hagenda) 0, by rw [State.complete_agenda, hagenda],
      s.complete_pending⟩
  | cons e rest ih =>
    obtain ⟨t, hstep, htaken⟩ := step_takes hagenda hdecodes
    rw [List.length_cons, runSteps_succ hstep]
    exact ih t (fun word hword => hdecodes word (hagenda ▸ List.mem_cons_of_mem e (htaken ▸ hword))) htaken

end Sys2Proof.Machine

/-! A slot write as an instruction (44_receiver.md R121, R122, R128): what it stores, counts and remembers. -/

namespace Sys2Proof.Machine

/-- In an active stage a slot is counted and remembered with the grid it was read on. -/
theorem rxStep_remembers {rx : RxEngine} (h : rx.stage = .locate ∨ rx.stage = .header ∨ rx.stage = .payload) (code : Word) :
    (rxStep rx code).rx.slots = rx.slots + 1#32 ∧ (rxStep rx code).rx.prev = some ⟨code, rx.grid⟩ := by
  rcases h with hs | hs | hs
  · rw [rxStep_locate_frame hs]
    exact ⟨rfl, rfl⟩
  · rcases rxStep_header hs code with ⟨-, heq⟩ | ⟨k, -, -, ⟨-, heq⟩ | ⟨-, heq⟩⟩
    · rw [heq]
      exact ⟨rfl, rfl⟩
    · rw [heq]
      exact ⟨rfl, rfl⟩
    · rcases rxValidate_outcome ((rx.sawSlot code).pushHeader k.val) with ⟨e, hout⟩ | ⟨grid, pb, pu, hout⟩ <;>
        rw [heq, hout] <;> exact ⟨rfl, rfl⟩
  · rw [(rxStep_payload_frame hs code).1]
    exact ⟨rfl, rfl⟩

/-- Every slot is counted, in the terminal stages too. -/
theorem rxStep_slots (rx : RxEngine) (code : Word) : (rxStep rx code).rx.slots = rx.slots + 1#32 := by
  cases hs : rx.stage with
  | locate => exact (rxStep_remembers (.inl hs) code).1
  | header => exact (rxStep_remembers (.inr (.inl hs)) code).1
  | payload => exact (rxStep_remembers (.inr (.inr hs)) code).1
  | done => rw [rxStep_terminal (.inl hs)]; rfl
  | error => rw [rxStep_terminal (.inr hs)]; rfl

/-- The bytes of a slot are stored in `RX_BUF`. -/
theorem State.byteAt_pushSlot (s : State) (code : Word) (b : Buffer) (i : Nat) :
    (s.pushSlot code).byteAt b i = (s.writeBytes .rx s.rx.pu.nout (rxStep s.rx code).bytes).byteAt b i :=
  State.byteAt_congr rfl rfl b i

/-- Settles O30: the state after a slot write, with its frame. -/
theorem rxPushSlotCompletes : Obligations.RxPushSlotCompletes := by
  intro code s r
  refine ⟨s.pushSlot code, _, 0#32, exec_rxPushSlot code s, rfl, rxStep_slots s.rx code, fun j hj => ?_,
    fun b i hout => ?_⟩
  · rw [State.byteAt_pushSlot, State.byteAt_writeBytes (Nat.le_add_right _ _) (Nat.add_lt_add_left hj _),
      Nat.add_sub_cancel_left]
  · rw [State.byteAt_pushSlot, State.byteAt_writeBytes_outside hout]

/-- Settles O32: a terminal stage answers a slot with its count. -/
theorem terminalStagesIgnoreSlots : Obligations.TerminalStagesIgnoreSlots := by
  intro code s hstage
  refine ⟨0#32, (exec_rxPushSlot code s).trans (congrArg _ ?_)⟩
  rw [State.pushSlot, rxStep_terminal hstage]
  simp only [SlotResult.quiet, Memory.store, BitVec.or_zero]
  rfl

/-! ### The duplicate filter (R122) -/

theorem RxEngine.duplicate_of_prev {rx : RxEngine} {slot : SlotMemory} (h : rx.prev = some slot) (code : Word) :
    rx.duplicate code = sameFrequencies slot ⟨code, rx.grid⟩ := by
  rw [RxEngine.duplicate, h]
  rfl

theorem RxEngine.duplicate_of_first {rx : RxEngine} (h : rx.prev = none) (code : Word) : rx.duplicate code = false := by
  rw [RxEngine.duplicate, h]

/-- Settles O33: the filter compares active frequencies; on one grid these tell the codes apart. -/
theorem duplicateFilterOnOneGrid : Obligations.DuplicateFilterOnOneGrid := by
  intro rx code active
  refine ⟨fun hfirst => RxEngine.duplicate_of_first hfirst code, fun slot hprev => ⟨?_, fun hgrid hstep => ?_⟩,
    fun hstage => ⟨(rxStep_remembers hstage code).2, fun hdup => ?_⟩⟩
  · rw [RxEngine.duplicate_of_prev hprev, sameFrequencies_iff]
    exact forall_congr' fun f => iff_congr mem_activeFrequencies mem_activeFrequencies
  · obtain ⟨before, grid⟩ := slot
    obtain rfl : grid = rx.grid := hgrid
    rw [RxEngine.duplicate_of_prev hprev, sameFrequencies_same_grid hstep]
    exact eq_comm
  · rw [rxStep_duplicate hstage hdup]
    exact ⟨rfl, rfl, rfl⟩

end Sys2Proof.Machine

/-! What instructions and completions leave alone (60_exceptions.md R146 to R148; 20_memory.md R60; 70_reset_and_hazards.md
R160). -/

namespace Sys2Proof.Machine

/-! ### Bytes under stores -/

theorem State.byteAt_of_storeAll {s t : State} {writes : List (Nat × List Byte)} (hmem : t.mem = s.mem.storeAll writes)
    (hdraw : t.bufferDraw = s.bufferDraw) {b : Buffer} {i : Nat}
    (hout : ∀ w ∈ writes, ¬InRange (b.base + i) (w.1, w.2.length)) : t.byteAt b i = s.byteAt b i := by
  rw [State.byteAt, State.byteAt, hmem, hdraw, Memory.peek_storeAll_outside hout]

/-- A write that fits in one buffer leaves the others. -/
theorem State.byteAt_writeBytes_fits {s : State} {b c : Buffer} {i x : Nat} {bytes : List Byte} (hbc : b ≠ c)
    (hfits : bytes ≠ [] → i + bytes.length ≤ b.storable) (hx : x < c.size) :
    (s.writeBytes b i bytes).byteAt c x = s.byteAt c x := by
  by_cases hnil : bytes = []
  · subst hnil
    exact State.byteAt_writeBytes_outside (by rw [List.length_nil]; omega)
  · exact State.byteAt_writeBytes_other hbc ((hfits hnil).trans b.storable_le_size) hx

/-- Stores in the destination of the pending command leave every byte outside it. -/
theorem State.keepsBytes_of_destination {s t : State} (hdraw : t.bufferDraw = s.bufferDraw)
    (hmem : ∃ writes, t.mem = s.mem.storeAll writes
      ∧ (writes = [] ∨ ∃ w, s.tx.pending = some w ∧ WritesInside writes (destination w s)))
    {w : Word} (hp : s.tx.pending = some w) : KeepsBytesOutsideAll s t (destination w s) := by
  obtain ⟨writes, hmem, hwrites⟩ := hmem
  refine fun b i hout => State.byteAt_of_storeAll hmem hdraw ?_
  rcases hwrites with rfl | ⟨v, hv, hinside⟩
  · exact nofun
  · obtain rfl : w = v := Option.some.inj (hp.symm.trans hv)
    exact hinside.outside hout

/-- The destination of a command is in no part of `RX_BUF`. -/
theorem State.byteAt_complete_rx (s : State) {j : Nat} (hj : j < 4096) : s.complete.byteAt .rx j = s.byteAt .rx j := by
  cases hp : s.tx.pending with
  | none => rw [State.complete_idle hp]
  | some w =>
    exact State.keepsBytes_of_destination (State.complete_bufferDraw s) s.complete_mem hp .rx j
      ((destination_inBuffers w s).not_rx hj)

/-- Settles O38. -/
theorem receiverIgnoresOtherSteps : Obligations.ReceiverIgnoresOtherSteps := by
  refine ⟨fun i s t hplain h => ?_, fun s => ⟨State.complete_rx s, fun j => s.byteAt_complete_rx⟩⟩
  cases exec_access h with
  | answered _ _ | accepted _ _ | irqAck _ _ => exact ⟨rfl, fun _ _ => rfl⟩
  | slot code => cases hplain
  | softReset ignored => cases hplain
  | rxReset ignored => cases hplain
  | page data _ _ => exact ⟨State.writePage_rx _ _ _, fun j _ => State.byteAt_congr (by simp) (by simp) _ _⟩
  | buffer _ hside _ hfits =>
    refine ⟨rfl, fun j hj => ?_⟩
    exact (State.byteAt_congr rfl rfl _ _).trans
      (State.byteAt_writeBytes_fits (by rintro rfl; cases hside) hfits hj)

/-! ### A completion's status (R135, R143, R148) -/

theorem State.complete_of_ok {s : State} {w : Word} {r : CommandResult} (hp : s.tx.pending = some w)
    (hr : s.commandResult w = .ok r) : s.complete = { s with
      tx := r.1.ended 0#8, mem := s.mem.storeAll r.2, irqStatus := s.irqStatus ||| irqTxDone } := by
  rcases State.complete_result s with ⟨hidle, -⟩ | ⟨v, q, hv, hq, heq⟩ | ⟨v, e, hv, hq, -⟩
  · rw [hidle] at hp
    cases hp
  all_goals
    obtain rfl : w = v := Option.some.inj (hp.symm.trans hv)
    rw [hr] at hq
    cases hq
  exact heq

theorem State.complete_of_error {s : State} {w : Word} {e : ErrorCode} (hp : s.tx.pending = some w)
    (hr : s.commandResult w = .error e) :
    s.complete = { s with tx := s.tx.ended e.code, irqStatus := s.irqStatus ||| irqTxErr } := by
  have he : effect w s = .error e := by rw [effect_eq, hr]; rfl
  rw [State.complete_error hp he, State.finish, if_neg e.code_ne_zero]
  rfl

/-- Settles O17. -/
theorem failedCommandChangesStatusOnly : Obligations.FailedCommandChangesStatusOnly := by
  intro s w hp herr
  cases hr : s.commandResult w with
  | ok r => exact absurd (congrArg (fun t : State => t.tx.err) (State.complete_of_ok hp hr)) herr
  | error e => rw [State.complete_of_error hp hr]; rfl

/-! ### Pending bits (R147) -/

theorem BitVec.and_or_self_left {n : Nat} (x y : BitVec n) : x &&& (x ||| y) = x := by
  ext i
  simpa using Or.inl

/-- Settles O47: bits are only set. -/
theorem pendingBitsPersist : Obligations.PendingBitsPersist := by
  refine ⟨fun i s t hsoft hack h => ?_, fun s => ?_⟩
  · cases exec_access h with
    | answered _ _ | accepted _ _ | rxReset _ | buffer _ _ _ _ => exact BitVec.and_self
    | slot code => exact BitVec.and_or_self_left _ _
    | softReset ignored => cases hsoft
    | irqAck ignored clear => exact absurd rfl (hack ignored clear)
    | page data _ _ =>
      rw [State.acknowledge_irqStatus, State.writePage_irqStatus]
      exact BitVec.and_self
  · rcases State.complete_result s with ⟨-, heq⟩ | ⟨w, r, -, -, heq⟩ | ⟨w, e, -, -, heq⟩ <;> rw [heq]
    · exact BitVec.and_self
    · exact BitVec.and_or_self_left _ _
    · exact BitVec.and_or_self_left _ _

/-! ### Results (R33 to R36, R105) -/

/-- Which results a command's rule writes. -/
theorem commandResult_results {s : State} {w : Word} {r : CommandResult} (h : s.commandResult w = .ok r) :
    (w ≠ 2#32 → r.1.parsed = s.tx.parsed)
      ∧ (w ≠ 5#32 → w ≠ 6#32 → r.1.phase = s.tx.phase ∧ r.1.hold = s.tx.hold) := by
  have hword : ∀ {n : Nat}, w.toNat = n → w = BitVec.ofNat 32 n := fun hn => by rw [← hn, BitVec.ofNat_toNat, BitVec.setWidth_eq]
  unfold State.commandResult at h
  match hn : w.toNat with
  | 0 | 1 =>
    simp only [hn] at h
    obtain rfl := Except.ok.inj h
    exact ⟨fun _ => rfl, fun _ _ => ⟨rfl, rfl⟩⟩
  | 2 =>
    simp only [hn] at h
    split at h
    · cases h
    · obtain rfl := Except.ok.inj h
      exact ⟨fun hne => absurd (hword hn) hne, fun _ _ => ⟨rfl, rfl⟩⟩
  | 3 | 4 =>
    simp only [hn] at h
    obtain ⟨_, -, rfl⟩ := Except.map_eq_ok h
    exact ⟨fun _ => rfl, fun _ _ => ⟨rfl, rfl⟩⟩
  | 5 =>
    simp only [hn] at h
    obtain ⟨_, -, rfl⟩ := Except.map_eq_ok h
    exact ⟨fun _ => rfl, fun hne _ => absurd (hword hn) hne⟩
  | 6 =>
    simp only [hn] at h
    obtain ⟨_, -, rfl⟩ := Except.map_eq_ok h
    exact ⟨fun _ => rfl, fun _ hne => absurd (hword hn) hne⟩
  | n + 7 =>
    simp only [hn] at h
    cases h

/-- Settles O48. -/
theorem resultsWrittenByTheirCommands : Obligations.ResultsWrittenByTheirCommands := by
  refine ⟨fun i s t hsoft h => ?_, fun s => ?_⟩
  · cases exec_access h with
    | answered _ _ | accepted _ _ | slot _ | rxReset _ | irqAck _ _ | buffer _ _ _ _ =>
      exact ⟨rfl, rfl, rfl, rfl, rfl⟩
    | softReset ignored => cases hsoft
    | page data _ _ =>
      rw [State.acknowledge_tx, State.writePage_tx_frame]
      exact ⟨rfl, rfl, rfl, rfl, rfl⟩
  · rcases State.complete_result s with ⟨-, heq⟩ | ⟨w, r, hp, hr, heq⟩ | ⟨w, e, -, -, heq⟩
    · rw [heq]
      exact ⟨fun _ => rfl, fun _ _ => ⟨rfl, rfl⟩⟩
    · have hword : ∀ {v : Word}, s.tx.pending ≠ some v → w ≠ v := fun hne hv => hne (hv ▸ hp)
      obtain ⟨hparsed, hwave⟩ := commandResult_results hr
      rw [heq]
      exact ⟨fun h2 => hparsed (hword h2), fun h5 h6 => hwave (hword h5) (hword h6)⟩
    · rw [heq]
      exact ⟨fun _ => rfl, fun _ _ => ⟨rfl, rfl⟩⟩

/-! ### The busy window (R60, R134) -/

/-- The registers the busy window leaves open are none of the TX engine's. -/
theorem State.writeReg_tx_of_open {r : Reg} (h : r.txSide = false) (s : State) (v : Word) : (s.writeReg v r).tx = s.tx := by
  cases r <;> cases h <;> rfl

theorem State.writePage_tx_of_open {s : State} {offset : Nat}
    (h : ∀ r, Reg.atOffset offset = some r → r.txSide = false) (v : Word) : (s.writePage offset v).tx = s.tx := by
  rw [State.writePage]
  split
  next r hr => exact State.writeReg_tx_of_open (h r hr) s v
  next => rfl

/-- A sound receiver's slot writes inside `RX_BUF`. -/
theorem State.pushSlot_keepsTxBuffers {s : State} (hrx : s.rx.Sound) (code : Word) : KeepsTxBuffers s (s.pushSlot code) := by
  intro b j hside hj
  rw [State.byteAt_pushSlot]
  exact State.byteAt_writeBytes_other (by rintro rfl; cases hside) (hrx.rxStep_unpacks code).2 hj

/-- Settles O49: the accesses that touch the TX engine or its buffers are closed while a command is pending. -/
theorem busyWindowKeepsOperands : Obligations.BusyWindowKeepsOperands := by
  intro i s t hbusy hrx hsoft h
  have hnotIdle : s.busy ≠ false := fun hidle => by rw [State.busy, hbusy] at hidle; cases hidle
  cases exec_access h with
  | answered _ _ | rxReset _ | irqAck _ _ => exact ⟨rfl, fun _ _ _ _ => rfl⟩
  | accepted _ hidle =>
    rw [hidle] at hbusy
    cases hbusy
  | slot code => exact ⟨rfl, State.pushSlot_keepsTxBuffers hrx code⟩
  | softReset ignored => cases hsoft
  | page data _ hopen =>
    refine ⟨State.writePage_tx_of_open (fun r hr => (hopen r hr).resolve_left hnotIdle) data, fun b j _ _ => ?_⟩
    exact State.byteAt_congr (by simp) (by simp) _ _
  | buffer _ _ hidle _ => exact absurd hidle hnotIdle

/-! ### The destination of a command (R160) -/

/-- Settles O41. -/
theorem softResetCompletes : Obligations.SoftResetCompletes := by
  intro ignored s
  refine ⟨_, s.softReset.mem, unspecifiedHeader s.nextDraw, 0#32, exec_softReset ignored s, rfl, fun hidle => ?_,
    fun w hp => ?_⟩
  · simp only [State.softReset, hidle]
  · exact State.keepsBytes_of_destination (s := s) (t := s.softReset.acknowledge) rfl s.softReset_mem hp

/-- The channels of a waveform are numbered from 0. -/
theorem WaveShape.channelList_val {shape : WaveShape} (h : shape.channels ≤ 8) :
    shape.channelList.map Fin.val = List.range shape.channels := by
  have hall : ∀ n ≤ 8, ((List.finRange 8).filter fun c => c.val < n).map Fin.val = List.range n := by decide
  exact hall _ h

theorem WaveShape.ranges_eq {shape : WaveShape} (h : shape.channels ≤ 8) :
    shape.ranges = (List.range shape.channels).map fun c => (0x1000000 + c * 0x100000, 4 * shape.instants) := by
  rw [← WaveShape.channelList_val h, List.map_map]
  rfl

/-- A command that would fail has no destination. -/
theorem destination_of_error {s : State} {w : Word} {e : ErrorCode} (h : s.commandResult w = .error e) :
    destination w s = [] := by
  unfold State.commandResult at h
  rw [destination_eq]
  generalize w.toNat = n at h ⊢
  match n with
  | 0 | 1 => cases h
  | 2 => rfl
  | 3 => cases hcheck : checkPack s with
    | ok n => simp [hcheck, Except.map] at h
    | error e => rfl
  | 4 => cases hcheck : checkUnpack s with
    | ok n => simp [hcheck, Except.map] at h
    | error e => rfl
  | 5 => cases hcheck : checkSynth s with
    | ok n => simp [hcheck, Except.map] at h
    | error e => rfl
  | 6 => cases hcheck : checkBuildFrame s with
    | ok n => simp [hcheck, Except.map] at h
    | error e => rfl
  | _ + 7 => rfl

/-- The destination of a command that ends without error. -/
theorem destination_of_ok {s : State} {w : Word} {result : CommandResult} (h : s.commandResult w = .ok result) :
    let mod := s.tx.params.modulation.toInt
    let sb := s.tx.params.symbolBits.toNat
    let len := s.tx.params.payloadLen.toNat
    let r := s.tx.replication.toNat
    let count := s.tx.symCount.toNat
    let groups := (8 * len + (sb - 1)) / sb
    let samples (instants : Nat) : List (Nat × Nat) :=
      (List.range (if mod = 0 then 1 else sb)).map fun c => (0x1000000 + c * 0x100000, 4 * instants)
    destination w s = match w.toNat with
      | 1 => [(0x0002000, 20)]
      | 3 => [(0x0100000, 4 * (groups * r))]
      | 4 => [(0x0003000, len)]
      | 5 => samples (if mod = 0 then count else (count + (sb - 1)) / sb * r)
      | 6 => samples (172 * r + groups * r)
      | _ => [] := by
  intro mod sb len r count groups samples
  unfold State.commandResult at h
  rw [destination_eq]
  generalize w.toNat = n at h ⊢
  match n with
  | 0 | 1 | 2 | _ + 7 => rfl
  | 3 =>
    obtain ⟨n, hcheck, -⟩ := Except.map_eq_ok h
    obtain ⟨-, -, -, -, hn⟩ := checkPack_ok hcheck
    simp only [hcheck]
    rw [hn]
    rfl
  | 4 =>
    obtain ⟨count, hcheck, -⟩ := Except.map_eq_ok h
    simp only [hcheck]
    rw [checkUnpack_ok hcheck]
    rfl
  | 5 =>
    obtain ⟨shape, hcheck, -⟩ := Except.map_eq_ok h
    obtain ⟨hshape, hscheme, hchannels, -⟩ := checkSynth_ok hcheck
    simp only [hcheck]
    rw [WaveShape.ranges_eq hchannels, hshape]
    by_cases hmod : mod = 0
    · have hdirect : s.synthShape = ⟨1, count⟩ := if_pos hmod
      simp only [samples, hdirect, if_pos hmod]
    · have hlanes : s.synthShape = ⟨sb, (count + (sb - 1)) / sb * r⟩ := by
        rw [State.synthShape, if_neg hmod, toNat_toInt_of_pos (hscheme.resolve_left hmod)]
      simp only [samples, hlanes, if_neg hmod]
  | 6 =>
    obtain ⟨shape, hcheck, -⟩ := Except.map_eq_ok h
    obtain ⟨hshape, hpos, hchannels, -⟩ := checkBuildFrame_ok hcheck
    simp only [hcheck]
    rw [WaveShape.ranges_eq hchannels, hshape]
    simp only [samples, State.frameShape, toNat_toInt_of_pos hpos]
    rfl

/-- Settles O42. -/
theorem destinationCoversCompletion : Obligations.DestinationCoversCompletion := by
  intro s w hp mod sb len r count groups samples
  refine ⟨State.keepsBytes_of_destination (State.complete_bufferDraw s) s.complete_mem hp,
    fun range hrange => destination_inBuffers w s range hrange, ?_⟩
  cases hr : s.commandResult w with
  | error e =>
    have herr : s.complete.tx.err ≠ 0#8 := by rw [State.complete_of_error hp hr]; exact e.code_ne_zero
    rw [if_pos herr]
    exact destination_of_error hr
  | ok result =>
    have herr : s.complete.tx.err = 0#8 := by rw [State.complete_of_ok hp hr]; rfl
    rw [if_neg (not_not.2 herr)]
    exact destination_of_ok hr

end Sys2Proof.Machine

/-! A slot and a completion commute (60_exceptions.md R147): a command reads the TX engine and the TX-side buffers only,
and stores nothing in `RX_BUF`. -/

namespace Sys2Proof.Machine

/-! ### What a command's result depends on -/

theorem headerParams_congr {f g : Nat → Byte} (h : ∀ i, i < 20 → f i = g i) : headerParams f = headerParams g := by
  have hfield : ∀ k, k < 5 → headerField f k = headerField g k := fun k hk => by
    simp only [headerField, h (4 * k) (by omega), h (4 * k + 1) (by omega), h (4 * k + 2) (by omega),
      h (4 * k + 3) (by omega)]
  simp only [headerParams, hfield 0 (by decide), hfield 1 (by decide), hfield 2 (by decide), hfield 3 (by decide),
    hfield 4 (by decide)]

theorem Except.map_congr_ok {ε α β : Type} {x : Except ε α} {f g : α → β} (h : ∀ a, x = .ok a → f a = g a) :
    x.map f = x.map g := by
  cases x with
  | error e => rfl
  | ok a => exact congrArg Except.ok (h a rfl)

section
variable {s t : State} (htx : t.tx = s.tx) (hbytes : KeepsTxBuffers s t)

include hbytes in
theorem KeepsTxBuffers.payload {n : Nat} (h : n ≤ 4096) : t.readBytes .tx 0 n = s.readBytes .tx 0 n :=
  List.map_congr_left fun j hj => hbytes .tx (0 + j) rfl (by
    have := List.mem_range.1 hj
    rw [Buffer.size_tx]
    omega)

include htx hbytes in
theorem KeepsTxBuffers.storedSymbols (h : s.tx.symCount.toNat ≤ 262144) : t.storedSymbols = s.storedSymbols := by
  rw [State.storedSymbols, State.storedSymbols, htx]
  refine congrArg (List.map BitVec.toNat) (List.map_congr_left fun i hi => State.wordAt_congr fun j hj => ?_)
  have := List.mem_range.1 hi
  exact hbytes .sym _ rfl (by rw [Buffer.size_sym]; omega)

include htx hbytes in
/-- A command's result depends on the TX engine and the TX-side buffers only. -/
theorem commandResult_congr (w : Word) : t.commandResult w = s.commandResult w := by
  unfold State.commandResult
  generalize w.toNat = n
  match n with
  | 0 | 1 | _ + 7 => simp only [htx]
  | 2 =>
    have hhdr : headerParams (t.byteAt .hdr) = headerParams (s.byteAt .hdr) :=
      headerParams_congr fun i hi => hbytes .hdr i rfl (hi.trans (by decide))
    simp only [htx, hhdr]
  | 3 =>
    have hcheck : checkPack t = checkPack s := by simp only [checkPack, htx]
    simp only [hcheck]
    refine Except.map_congr_ok fun n hn => ?_
    obtain ⟨-, hlen, -⟩ := checkPack_ok hn
    simp only [State.packedSymbols, htx, hbytes.payload hlen]
  | 4 =>
    have hcheck : checkUnpack t = checkUnpack s := by simp only [checkUnpack, htx]
    simp only [hcheck]
    refine Except.map_congr_ok fun n hn => ?_
    simp only [State.unpackedBytes, htx, hbytes.storedSymbols htx (checkUnpack_ok_le hn).2]
  | 5 =>
    have hcheck : checkSynth t = checkSynth s := by simp only [checkSynth, htx]
    simp only [hcheck]
    refine Except.map_congr_ok fun shape hshape => ?_
    obtain ⟨-, -, -, -, hcount⟩ := checkSynth_ok hshape
    simp only [State.synthScore, State.txGrid, htx, hbytes.storedSymbols htx hcount]
  | 6 =>
    have hcheck : checkBuildFrame t = checkBuildFrame s := by simp only [checkBuildFrame, htx]
    simp only [hcheck]
    refine Except.map_congr_ok fun shape hshape => ?_
    obtain ⟨-, -, -, -, hlen⟩ := checkBuildFrame_ok hshape
    simp only [State.frameScore, State.payloadScore, State.txGrid, htx, hbytes.payload hlen]

end

/-! ### The two orders -/

/-- A sound receiver's slot and a command store in disjoint places. -/
theorem State.slot_store_comm {s : State} (hmem : s.mem.wf) (hrx : s.rx.Sound) (code : Word) {w : Word}
    {r : CommandResult} (hr : s.commandResult w = .ok r) :
    (s.mem.storeAll r.2).store (Buffer.rx.base + s.rx.pu.nout) (rxStep s.rx code).bytes
      = (s.mem.store (Buffer.rx.base + s.rx.pu.nout) (rxStep s.rx code).bytes).storeAll r.2 := by
  have hfits := (hrx.rxStep_unpacks code).2
  refine Memory.store_storeAll_comm hmem fun x ⟨hlo, hhi⟩ => (commandResult_inside hr).outside ?_
  have hx : x = Buffer.rx.base + (x - Buffer.rx.base) := by omega
  rw [hx]
  exact (destination_inBuffers w s).not_rx (by omega)

theorem State.pushSlot_complete_comm {s : State} (hmem : s.mem.wf) (hrx : s.rx.Sound) (code : Word) :
    s.complete.pushSlot code = (s.pushSlot code).complete := by
  cases hp : s.tx.pending with
  | none => rw [State.complete_idle hp, State.complete_idle (show (s.pushSlot code).tx.pending = none from hp)]
  | some w =>
    have hp' : (s.pushSlot code).tx.pending = some w := hp
    have hsame : (s.pushSlot code).commandResult w = s.commandResult w :=
      commandResult_congr (s := s) (t := s.pushSlot code) rfl (State.pushSlot_keepsTxBuffers hrx code) w
    cases hr : s.commandResult w with
    | error e =>
      rw [State.complete_of_error hp hr, State.complete_of_error hp' (hsame.trans hr)]
      simp only [State.pushSlot, BitVec.or_assoc, BitVec.or_comm irqTxErr]
    | ok r =>
      rw [State.complete_of_ok hp hr, State.complete_of_ok hp' (hsame.trans hr)]
      simp only [State.pushSlot, BitVec.or_assoc, BitVec.or_comm irqTxDone, State.slot_store_comm hmem hrx code hr]

/-- Settles O39. -/
theorem slotAndCompletionCommute : Obligations.SlotAndCompletionCommute := by
  intro s t code hmem hrx h
  obtain rfl := Host.Outcome.next.inj h
  exact (exec_rxPushSlot code s.complete).trans (congrArg _ (State.pushSlot_complete_comm hmem hrx code))

end Sys2Proof.Machine

/-! The synthesizer's channels, lumps and segments (42_synthesizer.md R107 to R115; 43_frame_assembler.md R117). -/

namespace Sys2Proof.Machine

/-! ### One instant on one channel (R107, R109) -/

/-- The tuning words of a channel's tones, added up modulo 2^32. -/
def toneSum (c : Fin 8) (tones : Tones) : Word := ((tones.filter fun tone => tone.1 == c).map (·.2)).sum

theorem toneSum_nil (c : Fin 8) : toneSum c [] = 0#32 := rfl

theorem toneSum_cons (c d : Fin 8) (w : Word) (tones : Tones) :
    toneSum c ((d, w) :: tones) = (if c = d then w else 0#32) + toneSum c tones := by
  by_cases h : c = d
  · subst h
    simp [toneSum]
  · simp [toneSum, h, Ne.symm h]

theorem toneSum_append (c : Fin 8) (xs ys : Tones) : toneSum c (xs ++ ys) = toneSum c xs + toneSum c ys := by
  simp [toneSum]

namespace Oscillators

theorem instantOf_cons (o : Oscillators) (tone : Fin 8 × Word) (tones : Tones) :
    o.instantOf (tone :: tones) = (o.tone tone).instantOf tones := rfl

/-- A channel's phase moves by its own tuning words. -/
theorem instantOf_phase (o : Oscillators) (tones : Tones) (c : Fin 8) :
    (o.instantOf tones).phase[c] = o.phase[c] + toneSum c tones := by
  induction tones generalizing o with
  | nil => exact (BitVec.add_zero _).symm
  | cons tone tones ih =>
    obtain ⟨d, w⟩ := tone
    rw [instantOf_cons, ih, tone_phase, toneSum_cons, ← BitVec.add_assoc]
    split
    next => rfl
    next => rw [BitVec.add_zero]

/-- A channel that plays nothing holds. -/
theorem instantOf_silent {tones : Tones} {c : Fin 8} (h : ∀ tone ∈ tones, tone.1 ≠ c) (o : Oscillators) :
    (o.instantOf tones).phase[c] = o.phase[c] ∧ (o.instantOf tones).hold[c] = o.hold[c] := by
  induction tones generalizing o with
  | nil => exact ⟨rfl, rfl⟩
  | cons tone tones ih =>
    obtain ⟨d, w⟩ := tone
    obtain ⟨hd, hrest⟩ := List.forall_mem_cons.1 h
    obtain ⟨hphase, hhold⟩ := ih hrest (o.tone (d, w))
    rw [instantOf_cons, hphase, hhold, tone_phase, tone_hold, if_neg hd.symm, if_neg hd.symm]
    exact ⟨rfl, rfl⟩

/-- A channel that plays outputs SINE of the phase it reaches. -/
theorem instantOf_played {tones : Tones} {c : Fin 8} (h : ∃ tone ∈ tones, tone.1 = c) (o : Oscillators) :
    (o.instantOf tones).hold[c] = sine (o.instantOf tones).phase[c] := by
  induction tones generalizing o with
  | nil => simp at h
  | cons tone tones ih =>
    obtain ⟨d, w⟩ := tone
    rw [instantOf_cons]
    by_cases hrest : ∃ tone ∈ tones, tone.1 = c
    · exact ih hrest _
    · obtain rfl : d = c := ((List.exists_mem_cons_iff ..).1 h).resolve_right hrest
      obtain ⟨hphase, hhold⟩ := instantOf_silent (fun tone htone heq => hrest ⟨tone, htone, heq⟩) (o.tone (d, w))
      rw [hphase, hhold, tone_phase, tone_hold, if_pos rfl, if_pos rfl]

end Oscillators

/-! ### A score (R110, R111) -/

theorem playScore_cons (o : Oscillators) (tones : Tones) (rest : List Tones) :
    playScore o (tones :: rest)
      = ((playScore (o.instantOf tones) rest).1, (o.instantOf tones).hold :: (playScore (o.instantOf tones) rest).2) := rfl

theorem playScore_phase (o : Oscillators) (score : List Tones) (c : Fin 8) :
    (playScore o score).1.phase[c] = o.phase[c] + toneSum c score.flatten := by
  induction score generalizing o with
  | nil => exact (BitVec.add_zero _).symm
  | cons tones rest ih =>
    rw [playScore_cons, ih, Oscillators.instantOf_phase, List.flatten_cons, toneSum_append, BitVec.add_assoc]

/-- The hold values before the first instant, then the samples: each entry is the hold values after its part of the
score. -/
theorem playScore_holds (o : Oscillators) {score : List Tones} {n : Nat} (hn : n ≤ score.length) :
    (o.hold :: (playScore o score).2)[n]? = some (playScore o (score.take n)).1.hold := by
  induction score generalizing o n with
  | nil =>
    obtain rfl := Nat.le_zero.1 hn
    rfl
  | cons tones rest ih =>
    cases n with
    | zero => rfl
    | succ n =>
      rw [playScore_cons, List.getElem?_cons_succ, List.take_succ_cons, playScore_cons]
      exact ih _ (Nat.le_of_succ_le_succ hn)

/-- The oscillators after an instant. -/
theorem playScore_take_succ (o : Oscillators) {score : List Tones} {j : Nat} {tones : Tones} (h : score[j]? = some tones) :
    (playScore o (score.take (j + 1))).1 = (playScore o (score.take j)).1.instantOf tones := by
  rw [List.take_add_one, h, Option.toList_some, playScore_append]
  rfl

/-- Every SINE value is in the range R108 asks for. -/
theorem inUnitRange_sine (p : Word) : inUnitRange (sine p) = true := by
  unfold sine
  split
  next h => exact h
  next => decide

/-- Settles O23: phases add up over the score, and each sample is the hold value its instant leaves. -/
theorem phaseMovesByTuningWords : Obligations.PhaseMovesByTuningWords := by
  refine ⟨?_, fun p => ?_⟩
  · intro o score c played phaseAfter holdBefore
    have hhold : ∀ n, n ≤ score.length → holdBefore n = (playScore o (score.take n)).1.hold[c] := fun n hn => by
      simp only [holdBefore, played, List.getD_eq_getElem?_getD, playScore_holds o hn, Option.getD_some]
    have hphase : ∀ n, (playScore o (score.take n)).1.phase[c] = phaseAfter n := fun n => playScore_phase _ _ _
    have hwhole : score.take score.length = score := List.take_length
    refine ⟨by rw [← hphase, hwhole], by rw [hhold _ le_rfl, hwhole], playScore_length o score, ?_⟩
    intro j tones hj
    obtain ⟨hlt, -⟩ := List.getElem?_eq_some_iff.1 hj
    have hsample : (played.2.getD j o.hold)[c] = ((playScore o (score.take j)).1.instantOf tones).hold[c] := by
      rw [← playScore_take_succ o hj, ← hhold (j + 1) hlt]
      rfl
    rw [hsample]
    refine ⟨fun hplays => ?_, fun hsilent => ?_⟩
    · rw [Oscillators.instantOf_played hplays, ← playScore_take_succ o hj, hphase]
    · rw [(Oscillators.instantOf_silent hsilent _).2, hhold j hlt.le]
  · have hrange := inUnitRange_sine p
    rw [inUnitRange, Bool.and_eq_true, decide_eq_true_iff] at hrange
    exact hrange

/-- Settles O24, by induction on the score. -/
theorem silentChannelsHold : Obligations.SilentChannelsHold := by
  intro o score c hsilent
  induction score generalizing o with
  | nil => exact ⟨rfl, rfl, rfl, nofun⟩
  | cons tones rest ih =>
    obtain ⟨hnow, hrest⟩ := List.forall_mem_cons.1 hsilent
    obtain ⟨hphase, hhold⟩ := Oscillators.instantOf_silent hnow o
    obtain ⟨hphases, hholds, -, hframes⟩ := ih (o.instantOf tones) hrest
    rw [playScore_cons]
    refine ⟨hphases.trans hphase, hholds.trans hhold, ?_, List.forall_mem_cons.2 ⟨hhold, fun frame hframe => ?_⟩⟩
    · rw [List.length_cons, playScore_length, List.length_cons]
    · exact (hframes frame hframe).trans hhold

/-! ### The kinds of lump (R114) -/

theorem lumpKind_eq_zero_iff (prev : Option (List Nat × LumpKind)) (lanes : List Nat) :
    lumpKind prev lanes = .zero ↔ ∀ v ∈ lanes, v = 1 := by
  unfold lumpKind
  split
  next hall => simpa using hall
  next hall =>
    refine iff_of_false ?_ (by simpa using hall)
    split
    · exact nofun
    · split <;> exact nofun

theorem lumpKind_eq_again_iff (prev : Option (List Nat × LumpKind)) (lanes : List Nat) :
    lumpKind prev lanes = .again
      ↔ ¬(∀ v ∈ lanes, v = 1) ∧ ∃ before, prev = some (lanes, before) ∧ before ≠ .again := by
  unfold lumpKind
  split
  next hall => exact iff_of_false nofun fun h => h.1 (by simpa using hall)
  next hall =>
    have hall : ¬∀ v ∈ lanes, v = 1 := by simpa using hall
    rw [and_iff_right hall]
    split
    · exact iff_of_false nofun fun ⟨_, hprev, _⟩ => nomatch hprev
    next before kind =>
      split
      next h =>
        obtain ⟨rfl, hkind⟩ := h
        exact iff_of_true rfl ⟨kind, rfl, hkind⟩
      next h =>
        refine iff_of_false nofun ?_
        rintro ⟨k, hprev, hk⟩
        cases hprev
        exact h ⟨rfl, hk⟩

/-- Each lump has the kind its lanes and the lump before it give. -/
theorem classifyLumps_getElem? {prev : Option (List Nat × LumpKind)} {lumps : List (List Nat)} {j : Nat}
    {lanes : List Nat} {kind : LumpKind} (h : (classifyLumps prev lumps)[j]? = some (lanes, kind)) :
    lumps[j]? = some lanes ∧ kind = lumpKind ((prev :: (classifyLumps prev lumps).map some)[j]?.join) lanes := by
  induction lumps generalizing prev j with
  | nil => cases h
  | cons x xs ih =>
    cases j with
    | zero =>
      obtain ⟨rfl, rfl⟩ := Prod.mk.inj (Option.some.inj h)
      exact ⟨rfl, rfl⟩
    | succ j => exact ih h

/-- Settles O27. -/
theorem lumpKinds : Obligations.LumpKinds := by
  intro lumps
  refine ⟨classifyLumps_length none lumps, fun j lanes kind h => ?_⟩
  obtain ⟨hlanes, rfl⟩ := classifyLumps_getElem? h
  refine ⟨hlanes, lumpKind_eq_zero_iff _ _, (lumpKind_eq_again_iff _ _).trans (and_congr_right fun _ => ?_)⟩
  cases j with
  | zero => exact iff_of_false (fun ⟨_, hprev, _⟩ => nomatch hprev) fun ⟨hpos, _⟩ => absurd hpos (Nat.not_succ_le_zero 0)
  | succ j =>
    have hbefore : (none :: (classifyLumps none lumps).map some)[j + 1]?.join = (classifyLumps none lumps)[j]? := by
      rw [List.getElem?_cons_succ, List.getElem?_map]
      cases (classifyLumps none lumps)[j]? <;> rfl
    rw [hbefore, Nat.add_sub_cancel, and_iff_right (Nat.le_add_left 1 j)]

/-! ### The instants of a lump (R115) -/

/-- The tones of a DATA lump, each on its own channel. -/
theorem lumpTones_data (g : Grid) (fs : Nat) (lanes : List Nat) :
    ((lumpTones g fs (lanes, .data)).map (·.1)).Nodup ∧ ∀ (c : Fin 8) (w : Word),
      (c, w) ∈ lumpTones g fs (lanes, .data) ↔ lanes[c.val]? = some 2 ∧ w = tuningWord g (c.val + 2) fs := by
  constructor
  · have hchannels : (lumpTones g fs (lanes, .data)).map (·.1)
        = (List.finRange 8).filter fun c => lanes[c.val]? = some 2 := by
      rw [lumpTones, List.map_filterMap, ← List.filterMap_eq_filter]
      refine List.filterMap_congr fun c _ => ?_
      by_cases hc : lanes[c.val]? = some 2 <;> simp [Option.guard, hc]
    rw [hchannels]
    exact (List.nodup_finRange 8).filter _
  · intro c w
    simp only [lumpTones, List.mem_filterMap, List.mem_finRange, true_and, Option.ite_none_right_eq_some, Option.some.injEq,
      Prod.mk.injEq]
    constructor
    · rintro ⟨d, hd, rfl, rfl⟩
      exact ⟨hd, rfl⟩
    · rintro ⟨hc, rfl⟩
      exact ⟨c, hc, rfl, rfl⟩

/-- Settles O28: instant `t` plays lump `t / r`. -/
theorem bitParallelInstants : Obligations.BitParallelInstants := by
  intro g fs n r symbols hn _ hr
  refine ⟨bitParallelScore_length hn g fs r symbols, fun t ht => ?_⟩
  have hlump : t / r < (classifyLumps none (lumpsOf n symbols)).length := by
    rw [classifyLumps_length, lumpsOf_length hn]
    exact Nat.div_lt_of_lt_mul (Nat.mul_comm _ r ▸ ht)
  obtain ⟨⟨lanes, kind⟩, hget⟩ : ∃ lump, (classifyLumps none (lumpsOf n symbols))[t / r]? = some lump :=
    ⟨_, List.getElem?_eq_getElem hlump⟩
  refine ⟨lanes, kind, lumpTones g fs (lanes, kind), hget, ?_, ?_, ?_, ?_⟩
  · rw [bitParallelScore, flatMap_replicate_getElem? hr, hget]
    rfl
  · rintro rfl
    rfl
  · rintro rfl
    rfl
  · rintro rfl
    exact lumpTones_data g fs lanes

/-! ### The segments of a frame (43_frame_assembler.md R117) -/

theorem directScore_getElem? (g : Grid) (fs : Nat) (symbols : List Nat) (t : Nat) :
    (directScore g fs symbols)[t]? = symbols[t]?.map fun k => [(0, tuningWord g k fs)] := List.getElem?_map

/-- The pattern's segment plays each pattern bin for `r` instants. -/
theorem preambleScore_getElem? {r t : Nat} (h : t < 6 * r) (g : Grid) (fs : Nat) :
    (directScore g fs (preambleSymbols r))[t]?
      = some [(0, tuningWord g ([0, 2, 1, 2, 0, 2].getD (t / r) 0) fs)] := by
  have hr : 1 ≤ r := by omega
  have hbin : t / r < [0, 2, 1, 2, 0, 2].length := Nat.div_lt_of_lt_mul (Nat.mul_comm 6 r ▸ h)
  rw [directScore_getElem?, preambleSymbols_eq, flatMap_replicate_getElem? hr (fun k => k), Option.map_id',
    List.getD_eq_getElem _ _ hbin, List.getElem?_eq_getElem hbin]
  rfl

/-- Settles O29. -/
theorem frameSegments : Obligations.FrameSegments := by
  intro s shape hcheck r fs
  obtain ⟨rfl, hpos, -⟩ := checkBuildFrame_ok hcheck
  have hlength := State.frameScore_length hpos
  have hpreamble : (directScore Grid.baseGrid fs (preambleSymbols r)).length = 6 * r := by
    rw [directScore_length, preambleSymbols_length]
  have hheader : (directScore Grid.baseGrid fs (packSymbols (headerBytes s.tx.params) 1 r)).length = 160 * r := by
    rw [directScore_length, headerSymbols_length]
  have hscore : s.frameScore = directScore Grid.baseGrid fs (preambleSymbols r)
      ++ directScore Grid.baseGrid fs (packSymbols (headerBytes s.tx.params) 1 r) ++ s.payloadScore
      ++ directScore Grid.baseGrid fs (preambleSymbols r) := rfl
  refine ⟨hlength, fun t ht => ?_, fun t ht => ?_, fun t hlo hhi => ?_⟩
  · rw [hscore, List.append_assoc, List.append_assoc, List.getElem?_append_left (by omega)]
    exact preambleScore_getElem? ht _ _
  · rw [hscore, List.append_assoc, List.getElem?_append_left (by rw [List.length_append]; omega), directScore, directScore,
      ← List.map_append, List.getElem?_map, List.getElem?_eq_getElem (by simp; omega)]
    exact ⟨_, rfl⟩
  · rw [hscore, List.length_append, hpreamble] at hlength
    rw [hscore, List.getElem?_append_right (by omega), ← hlength, Nat.add_sub_cancel]
    exact preambleScore_getElem? (by omega) _ _

end Sys2Proof.Machine

/-! The port: what stands at an address and which accesses are admitted (20_memory.md R53 to R60), what a read sees of a
byte (R62, R64), and the interrupt line (60_exceptions.md R146). -/

namespace Sys2Proof.Machine

/-! ### Reset values and the interrupt line -/

/-- Settles O44: the 64 offsets in turn. -/
theorem resetRegisterValues : Obligations.ResetRegisterValues := by
  refine ⟨fun k hk => ?_, rfl, rfl, rfl⟩
  revert k
  decide

/-- Settles O46: a word is 0 exactly when it has no bit. -/
theorem irqLevel : Obligations.IrqLevel := by
  intro s
  rw [State.irq, bne_iff_ne, ← not_iff_not, not_not, not_exists]
  constructor
  · rintro hzero k ⟨-, hstatus, henable⟩
    have hbit : (s.irqStatus &&& s.irqEnable).getLsbD k = true := by rw [BitVec.getLsbD_and, hstatus, henable]; rfl
    rw [hzero, BitVec.getLsbD_zero] at hbit
    cases hbit
  · intro hnone
    refine BitVec.eq_of_getLsbD_eq fun k hk => ?_
    rw [BitVec.getLsbD_zero, BitVec.getLsbD_and, ← Bool.not_eq_true, Bool.and_eq_true]
    exact fun ⟨hstatus, henable⟩ => hnone k ⟨hk, hstatus, henable⟩

/-! ### Bytes as a read sees them (R62, R64) -/

theorem State.busByte_of_ne_rx {b : Buffer} (hb : b ≠ .rx) (s : State) (i : Nat) :
    s.busByte b i = if i < b.storable then s.byteAt b i else 0#8 := by
  rw [State.busByte, if_neg fun h => hb h.1]
  by_cases hi : i < b.storable
  · rw [if_pos hi, if_neg (not_le.2 hi)]
  · rw [if_neg hi, if_pos (not_lt.1 hi)]

theorem State.busByte_rx (s : State) (i : Nat) :
    s.busByte .rx i = if i < s.rx.pu.nout ∧ i < 4096 then s.byteAt .rx i else 0#8 := by
  rw [State.busByte, Buffer.storable_rx]
  by_cases hnout : s.rx.pu.nout ≤ i
  · rw [if_pos ⟨rfl, hnout⟩, if_neg fun h => not_lt.2 hnout h.1]
  · rw [if_neg fun h => hnout h.2]
    by_cases hi : 4096 ≤ i
    · rw [if_pos hi, if_neg fun h => not_lt.2 hi h.2]
    · rw [if_neg hi, if_pos ⟨not_le.1 hnout, not_le.1 hi⟩]

/-- Settles O51. -/
theorem reservedBytesReadZero : Obligations.ReservedBytesReadZero := by
  intro s i
  refine ⟨s.busByte_rx i, State.busByte_of_ne_rx (b := .hdr) nofun s i, fun hi => ⟨?_, ?_⟩⟩
  · rw [State.busByte_of_ne_rx (b := .tx) nofun]
    exact if_pos hi
  · rw [State.busByte_of_ne_rx (b := .unp) nofun]
    exact if_pos hi

/-! ### The address map (R53) -/

theorem target_page {a : Nat} (h : a < 0x100) : target a = .register a := if_pos h

/-- Everything an address can be. -/
theorem target_cases (a : Nat) :
    (a < 0x100 ∧ target a = .register a)
    ∨ (∃ b i, a = b.base + i ∧ i < b.size ∧ target a = .buffer b i)
    ∨ (0x100 ≤ a ∧ (∀ (b : Buffer) i, i < b.size → a ≠ b.base + i) ∧ target a = .unmapped) := by
  cases ht : target a with
  | register offset =>
    obtain ⟨rfl, hlt⟩ := target_register ht
    exact .inl ⟨hlt, rfl⟩
  | buffer b i =>
    obtain ⟨ha, hi, -⟩ := target_buffer ht
    exact .inr (.inl ⟨b, i, ha, hi, rfl⟩)
  | unmapped =>
    refine .inr (.inr ⟨not_lt.1 fun hlt => ?_, fun b i hi ha => ?_, rfl⟩)
    · rw [target_page hlt] at ht
      cases ht
    · rw [ha, target_base b hi] at ht
      cases ht

/-! ### What the port admits (R56, R57, R59, R60) -/

theorem State.busy_eq_false_iff {s : State} : s.busy = false ↔ s.tx.pending = none := by
  rw [State.busy, Option.isSome_eq_false_iff, Option.isNone_iff_eq_none]

theorem not_busy_and_iff {busy closed : Bool} : (!(busy && closed)) = true ↔ busy = false ∨ closed = false := by
  cases busy <;> cases closed <;> decide

theorem State.admits_page_iff {a : Nat} (ha : a < 0x100) (s : State) (d : Direction) (n : Nat) :
    s.admits d n a = true ↔ a % n = 0 ∧ n = 4
      ∧ (s.tx.pending = none ∨ ∀ r, Reg.atOffset a = some r → r.txSide = false) := by
  rw [← State.busy_eq_false_iff, State.admits, target_page ha]
  cases hreg : Reg.atOffset a with
  | none => simp [hreg]
  | some r => simp only [hreg, Bool.and_eq_true, beq_iff_eq, not_busy_and_iff, Option.some.injEq, forall_eq']

theorem State.admits_buffer_iff {b : Buffer} {i : Nat} (hi : i < b.size) (s : State) (d : Direction) (n : Nat) :
    s.admits d n (b.base + i) = true ↔ (b.base + i) % n = 0 ∧ (n = 4 ∨ b.wordOnly = false)
      ∧ (d = .read ∨ b.writable = true) ∧ (s.tx.pending = none ∨ b.txSide = false) := by
  rw [← State.busy_eq_false_iff, ← not_busy_and_iff, State.admits, target_base b hi]
  simp only [Bool.and_eq_true, Bool.or_eq_true, beq_iff_eq, Bool.not_eq_true', and_assoc]

theorem State.admits_unmapped {a : Nat} (h : target a = .unmapped) (s : State) (d : Direction) (n : Nat) :
    s.admits d n a = false := by
  rw [State.admits, h, Bool.and_false]

/-- The page's registers of the TX engine that the busy window closes, by their offsets (10_state.md R17). -/
theorem page_open_iff {a : Nat} (ha : a < 0x100) (haligned : a % 4 = 0) :
    (∀ r, Reg.atOffset a = some r → r.txSide = false)
      ↔ ¬(0x010 ≤ a ∧ a < 0x038 ∨ 0x03C ≤ a ∧ a < 0x058 ∨ 0x0C0 ≤ a) := by
  have hall : ∀ k, k < 0x40 → ((Reg.atOffset (4 * k)).all (fun r => !r.txSide) = true
      ↔ ¬(0x010 ≤ 4 * k ∧ 4 * k < 0x038 ∨ 0x03C ≤ 4 * k ∧ 4 * k < 0x058 ∨ 0x0C0 ≤ 4 * k)) := by decide
  obtain ⟨k, rfl⟩ := Nat.dvd_of_mod_eq_zero haligned
  rw [← hall k (by omega), Option.all_eq_true]
  simp only [Bool.not_eq_true']

/-- Where each buffer lies. -/
theorem Buffer.range_iff {b : Buffer} {i : Nat} (hi : i < b.size) :
    let a := b.base + i
    ¬a < 0x100
      ∧ ((0x1000 ≤ a ∧ a < 0x2000 ∨ 0x2000 ≤ a ∧ a < 0x2020 ∨ 0x3000 ≤ a ∧ a < 0x4000)
        ↔ b.txSide = true ∧ b.wordOnly = false)
      ∧ (0x4000 ≤ a ∧ a < 0x5000 ↔ b.txSide = false)
      ∧ ((0x100000 ≤ a ∧ a < 0x200000 ∨ 0x1000000 ≤ a ∧ a < 0x1800000) ↔ b.wordOnly = true) := by
  cases b <;> simp only [Buffer.base, Buffer.size_tx, Buffer.size_hdr, Buffer.size_unp, Buffer.size_rx, Buffer.size_sym,
    Buffer.size_samp] at hi ⊢ <;> simp only [Buffer.txSide, Buffer.wordOnly, reduceCtorEq, iff_true, iff_false, and_true,
    and_false] <;> omega

/-- The three kinds of buffer: the host writes those the busy window closes, byte buffers or word buffers, and not
`RX_BUF`. -/
theorem Buffer.closed_kinds (b : Buffer) :
    b.writable = b.txSide ∧ (b.txSide = true ∧ b.wordOnly = false ∨ b.txSide = true ∧ b.wordOnly = true
      ∨ b.txSide = false ∧ b.wordOnly = false) := by
  cases b <;> simp [Buffer.writable, Buffer.txSide, Buffer.wordOnly]

/-- An address in a listed range is in a buffer. -/
theorem exists_buffer_of_range {a : Nat}
    (h : (0x1000 ≤ a ∧ a < 0x2000 ∨ 0x2000 ≤ a ∧ a < 0x2020 ∨ 0x3000 ≤ a ∧ a < 0x4000) ∨ 0x4000 ≤ a ∧ a < 0x5000
      ∨ (0x100000 ≤ a ∧ a < 0x200000 ∨ 0x1000000 ≤ a ∧ a < 0x1800000)) :
    ∃ (b : Buffer) (i : Nat), i < b.size ∧ a = b.base + i := by
  have hin : ∀ b : Buffer, b.base ≤ a → a < b.base + b.size → ∃ (b : Buffer) (i : Nat), i < b.size ∧ a = b.base + i :=
    fun b hlo hhi => ⟨b, a - b.base, by omega, by omega⟩
  rcases h with (⟨hlo, hhi⟩ | ⟨hlo, hhi⟩ | ⟨hlo, hhi⟩) | ⟨hlo, hhi⟩ | ⟨hlo, hhi⟩ | ⟨hlo, hhi⟩
  · exact hin .tx hlo hhi
  · exact hin .hdr hlo hhi
  · exact hin .unp hlo hhi
  · exact hin .rx hlo hhi
  · exact hin .sym hlo hhi
  · have hc : (a - 0x1000000) / 0x100000 < 8 := by omega
    exact hin (.samp ⟨_, hc⟩) (by simp only [Buffer.base]; omega) (by simp only [Buffer.base, Buffer.size_samp]; omega)

/-- Which accesses are admitted, by address. -/
theorem State.admits_iff (s : State) (d : Direction) (n a : Nat) :
    s.admits d n a = true ↔
      a % n = 0 ∧
      let idle := s.tx.pending = none
      let txRegister := 0x010 ≤ a ∧ a < 0x038 ∨ 0x03C ≤ a ∧ a < 0x058 ∨ 0x0C0 ≤ a
      (a < 0x100 ∧ n = 4 ∧ (idle ∨ ¬txRegister)
        ∨ (0x1000 ≤ a ∧ a < 0x2000 ∨ 0x2000 ≤ a ∧ a < 0x2020 ∨ 0x3000 ≤ a ∧ a < 0x4000) ∧ idle
        ∨ 0x4000 ≤ a ∧ a < 0x5000 ∧ d = .read
        ∨ (0x100000 ≤ a ∧ a < 0x200000 ∨ 0x1000000 ≤ a ∧ a < 0x1800000) ∧ n = 4 ∧ idle) := by
  rcases target_cases a with ⟨ha, -⟩ | ⟨b, i, rfl, hi, -⟩ | ⟨ha, hnone, ht⟩
  · rw [State.admits_page_iff ha]
    refine and_congr_right fun haligned => ⟨?_, ?_⟩
    · rintro ⟨rfl, hopen⟩
      exact .inl ⟨ha, rfl, hopen.imp_right (page_open_iff ha haligned).1⟩
    · rintro (⟨-, rfl, hopen⟩ | ⟨hrange, -⟩ | ⟨hlo, -⟩ | ⟨hrange, -⟩)
      · exact ⟨rfl, hopen.imp_right (page_open_iff ha haligned).2⟩
      all_goals omega
  · rw [State.admits_buffer_iff hi]
    obtain ⟨hpage, hbytes, hrx, hwords⟩ := Buffer.range_iff hi
    simp only [hpage, hbytes, hwords, false_and, false_or, ← and_assoc (c := d = .read), hrx, b.closed_kinds.1]
    refine and_congr_right fun _ => ?_
    rcases b.closed_kinds.2 with ⟨hside, hword⟩ | ⟨hside, hword⟩ | ⟨hside, hword⟩ <;> simp [hside, hword]
  · rw [State.admits_unmapped ht]
    refine iff_of_false nofun ?_
    have hout : ∀ {p : Prop}, (∃ (b : Buffer) (i : Nat), i < b.size ∧ a = b.base + i) → p :=
      fun ⟨b, i, hi, hab⟩ => absurd hab (hnone b i hi)
    rintro ⟨-, ⟨hlt, -⟩ | ⟨hrange, -⟩ | ⟨hlo, hhi, -⟩ | ⟨hrange, -⟩⟩
    · exact absurd hlt (not_lt.2 ha)
    · exact hout (exists_buffer_of_range (.inl hrange))
    · exact hout (exists_buffer_of_range (.inr (.inl ⟨hlo, hhi⟩)))
    · exact hout (exists_buffer_of_range (.inr (.inr hrange)))

/-- A rejected access changes the port's answer only. -/
theorem State.busRead_of_rejected {s : State} {n a : Nat} (h : s.admits .read n a = false) : s.busRead n a = s.rejected := by
  rw [State.busRead, h]
  rfl

theorem State.busWrite_of_rejected {s : State} {n a : Nat} (h : s.admits .write n a = false) (data : Word) :
    s.busWrite n a data = s.rejected := by
  rw [State.busWrite, h]
  rfl

/-- Settles O54. -/
theorem admittedExactly : Obligations.AdmittedExactly :=
  ⟨fun s d n a _ => s.admits_iff d n a, fun _ _ data =>
    ⟨fun h => congrArg _ (State.busRead_of_rejected h), fun h => congrArg _ (State.busRead_of_rejected h),
      fun h => congrArg _ (State.busRead_of_rejected h), fun h => congrArg _ (State.busWrite_of_rejected h data),
      fun h => congrArg _ (State.busWrite_of_rejected h data), fun h => congrArg _ (State.busWrite_of_rejected h data)⟩⟩

end Sys2Proof.Machine

/-! Bus reads and writes (45_control.md R140, R141): the words of the page by their fields (10_state.md R17 to R46), and
the bytes of the buffers (20_memory.md R55, R58, R62). -/

namespace Sys2Proof.Machine

/-! ### Words made of fields -/

theorem toNat_append_add {m n : Nat} (x : BitVec m) (y : BitVec n) : (x ++ y).toNat = x.toNat * 2 ^ n + y.toNat := by
  rw [BitVec.toNat_append, ← Nat.shiftLeft_add_eq_or_of_lt y.isLt, Nat.shiftLeft_eq]

theorem txStatusWord_eq (tx : TxEngine) :
    txStatusWord tx = BitVec.ofNat 32 ((if tx.pending.isSome then 1 else 0) + (if tx.done then 2 else 0)
      + 2 ^ 8 * tx.err.toNat + 2 ^ 16 * tx.lastCmd.toNat) := by
  have hfields : (txStatusWord tx).toNat
      = ((((0 * 2 ^ 8 + tx.lastCmd.toNat) * 2 ^ 8 + tx.err.toNat) * 2 ^ 6 + 0) * 2 ^ 1 + tx.done.toNat) * 2 ^ 1
        + tx.pending.isSome.toNat := by
    simp only [txStatusWord, toNat_append_add, BitVec.toNat_ofBool]
    rfl
  refine BitVec.eq_of_toNat_eq (hfields.trans ?_)
  have hcmd := tx.lastCmd.isLt
  have herr := tx.err.isLt
  rw [BitVec.toNat_ofNat]
  cases tx.pending.isSome <;> cases tx.done <;> simp only [Bool.toNat, cond, if_true, if_false, Bool.false_eq_true] <;> omega

theorem RxEngine.patOk_iff (rx : RxEngine) : rx.patOk = true ↔ ∀ j : Fin 6, (rx.pb[j]).isSome = true := by
  simp only [RxEngine.patOk, List.all_eq_true, Vector.mem_toList_iff, Vector.mem_iff_getElem, forall_exists_index,
    Fin.forall_iff]
  exact ⟨fun h i hi => h _ i hi rfl, by rintro h _ i hi rfl; exact h i hi⟩

/-- The number of a stage in `RX_STATUS`. -/
def stageNumber : Stage → Nat
  | .locate => 0
  | .header => 1
  | .payload => 2
  | .done => 3
  | .error => 4

theorem Stage.code_toNat (stage : Stage) : stage.code.toNat = stageNumber stage := by cases stage <;> rfl

theorem rxStatusWord_eq (rx : RxEngine) :
    rxStatusWord rx = BitVec.ofNat 32 (stageNumber rx.stage + 2 ^ 3 * rx.prog.val + (if rx.prev.isSome then 2 ^ 6 else 0)
      + (if ∀ j : Fin 6, (rx.pb[j]).isSome = true then 2 ^ 7 else 0) + 2 ^ 8 * rx.err.toNat) := by
  have hfields : (rxStatusWord rx).toNat
      = ((((0 * 2 ^ 8 + rx.err.toNat) * 2 ^ 1 + rx.patOk.toNat) * 2 ^ 1 + rx.prev.isSome.toNat) * 2 ^ 3
        + rx.prog.val % 2 ^ 3) * 2 ^ 3 + stageNumber rx.stage := by
    simp only [rxStatusWord, toNat_append_add, BitVec.toNat_ofBool, BitVec.toNat_ofNat, Stage.code_toNat]
  refine BitVec.eq_of_toNat_eq (hfields.trans ?_)
  have herr := rx.err.isLt
  have hprog := rx.prog.isLt
  have hstage := rx.stage.code.isLt
  rw [Stage.code_toNat] at hstage
  simp only [← RxEngine.patOk_iff]
  rw [BitVec.toNat_ofNat]
  cases rx.prev.isSome <;> cases rx.patOk <;> simp only [Bool.toNat, cond, if_true, if_false, Bool.false_eq_true] <;> omega

/-! ### Reads of the page (R17) -/

theorem State.busValue_page {a : Nat} (h : a < 0x100) (s : State) (n : Nat) : s.busValue n a = s.readPage a := by
  rw [State.busValue, target_page h]

theorem State.readPage_of_reg {a : Nat} {r : Reg} (h : Reg.atOffset a = some r) (s : State) :
    s.readPage a = s.readReg r := by
  rw [State.readPage, h]

/-- The fields of the status registers, the others as they are held. -/
theorem State.readReg_fields (s : State) :
    s.readReg .irqStatus = BitVec.ofNat 32 s.irqStatus.toNat ∧ s.readReg .irqEnable = BitVec.ofNat 32 s.irqEnable.toNat
      ∧ s.readReg .txStatus = txStatusWord s.tx ∧ s.readReg .rxStatus = rxStatusWord s.rx :=
  ⟨(BitVec.ofNat_toNat _ _).symm, (BitVec.ofNat_toNat _ _).symm, rfl, rfl⟩

/-- One pattern bin's part in `RX_GRID_BINS`: at least the bins up to it. -/
def raiseTo (n : Nat) (bin : Option (Fin 32)) : Nat :=
  match bin with
  | some k => max n (k.val + 1)
  | none => n

/-- The bins up to the top one of a list, and no more. -/
theorem foldl_raiseTo (bins : List (Option (Fin 32))) (n : Nat) :
    n ≤ bins.foldl raiseTo n ∧ (∀ k : Fin 32, some k ∈ bins → k.val + 1 ≤ bins.foldl raiseTo n)
      ∧ (bins.foldl raiseTo n = n ∨ ∃ k : Fin 32, some k ∈ bins ∧ bins.foldl raiseTo n = k.val + 1) := by
  induction bins generalizing n with
  | nil => exact ⟨le_rfl, fun _ hk => absurd hk List.not_mem_nil, .inl rfl⟩
  | cons bin bins ih =>
    obtain ⟨hle, hall, htop⟩ := ih (raiseTo n bin)
    cases bin with
    | none =>
      refine ⟨hle, fun k hk => hall k ?_, htop.imp_right fun ⟨k, hk, heq⟩ => ⟨k, List.mem_cons_of_mem _ hk, heq⟩⟩
      exact (List.mem_cons.1 hk).resolve_left nofun
    | some b =>
      have hraise : raiseTo n (some b) = max n (b.val + 1) := rfl
      rw [List.foldl_cons, hraise] at *
      refine ⟨(le_max_left _ _).trans hle, fun k hk => ?_, ?_⟩
      · rcases List.mem_cons.1 hk with hkb | hk
        · obtain rfl := Option.some.inj hkb
          exact (le_max_right _ _).trans hle
        · exact hall k hk
      · rcases htop with heq | ⟨k, hk, heq⟩
        · rcases max_choice n (b.val + 1) with hmax | hmax
          · exact .inl (heq.trans hmax)
          · exact .inr ⟨b, List.mem_cons_self, heq.trans hmax⟩
        · exact .inr ⟨k, List.mem_cons_of_mem _ hk, heq⟩

theorem rxGridBins_negotiated {rx : RxEngine} (h : rx.stage = .payload ∨ rx.stage = .done) :
    rxGridBins rx = max (2 ^ rx.pu.sb + 1) (rx.pb.toList.foldl raiseTo 0) := by
  rcases h with h | h <;> rw [rxGridBins, h] <;> rfl

theorem rxGridBins_base {rx : RxEngine} (h : ¬(rx.stage = .payload ∨ rx.stage = .done)) : rxGridBins rx = 3 := by
  unfold rxGridBins
  cases hs : rx.stage with
  | locate | header | error => rfl
  | payload => exact absurd (.inl hs) h
  | done => exact absurd (.inr hs) h

theorem mem_patternBins_iff {bins : Vector (Option (Fin 32)) 6} {k : Fin 32} :
    some k ∈ bins.toList ↔ ∃ j : Fin 6, bins[j] = some k := by
  rw [Vector.mem_toList_iff, Vector.mem_iff_getElem]
  exact ⟨fun ⟨i, hi, h⟩ => ⟨⟨i, hi⟩, h⟩, fun ⟨j, h⟩ => ⟨j.val, j.isLt, h⟩⟩

/-- `RX_GRID_BINS` on a negotiated grid is the least number of bins that holds the data bins and the pattern's (R42). -/
theorem RxEngine.Sound.gridBins {rx : RxEngine} (hrx : rx.Sound) (h : rx.stage = .payload ∨ rx.stage = .done) :
    let dataBins := 2 ^ rx.neg.symbolBits.toNat + 1
    rxGridBins rx < 2 ^ 32 ∧ dataBins ≤ rxGridBins rx
      ∧ (∀ (j : Fin 6) (k : Fin 32), rx.pb[j] = some k → k.val + 1 ≤ rxGridBins rx)
      ∧ (rxGridBins rx = dataBins ∨ ∃ (j : Fin 6) (k : Fin 32), rx.pb[j] = some k ∧ rxGridBins rx = k.val + 1) := by
  intro dataBins
  obtain ⟨-, -, -, -, hsb, -⟩ := hrx.negotiated (by rcases h with h | h <;> rw [h] <;> rfl)
  obtain ⟨-, hle, -⟩ := hrx.payloadUnpacker
  obtain ⟨-, hall, htop⟩ := foldl_raiseTo rx.pb.toList 0
  have hpow : 2 ^ rx.neg.symbolBits.toNat ≤ 2 ^ 4 := Nat.pow_le_pow_right Nat.two_pos (hsb ▸ hle)
  have htop' : rx.pb.toList.foldl raiseTo 0 = 0
      ∨ ∃ (j : Fin 6) (k : Fin 32), rx.pb[j] = some k ∧ rx.pb.toList.foldl raiseTo 0 = k.val + 1 :=
    htop.imp_right fun ⟨k, hk, heq⟩ => let ⟨j, hj⟩ := mem_patternBins_iff.1 hk; ⟨j, k, hj, heq⟩
  rw [rxGridBins_negotiated h, hsb]
  refine ⟨?_, le_max_left _ _, fun j k hj => (hall k (mem_patternBins_iff.2 ⟨j, hj⟩)).trans (le_max_right _ _), ?_⟩
  · rcases htop' with heq | ⟨-, k, -, heq⟩ <;> rw [heq] <;> omega
  · rcases max_choice dataBins (rx.pb.toList.foldl raiseTo 0) with hmax | hmax
    · exact .inl hmax
    · rcases htop' with heq | ⟨j, k, hj, heq⟩
      · exact .inl (max_eq_left (heq.le.trans (Nat.zero_le _)))
      · exact .inr ⟨j, k, hj, hmax.trans heq⟩

/-! ### Reads of the buffers (R55) -/

/-- A byte below a narrower value. -/
theorem shiftLeft_or_byte {w : Nat} (v : BitVec w) (b : Byte) :
    v.setWidth 32 <<< 8 ||| b.setWidth 32 = (v ++ b).setWidth 32 := by
  refine BitVec.eq_of_getLsbD_eq fun i hi => ?_
  rw [BitVec.getLsbD_or, BitVec.getLsbD_shiftLeft, BitVec.getLsbD_setWidth, BitVec.getLsbD_setWidth,
    BitVec.getLsbD_setWidth, BitVec.getLsbD_append]
  by_cases hlow : i < 8
  · simp [hi, hlow]
  · have hbyte : b.getLsbD i = false := BitVec.getLsbD_of_ge b i (not_lt.1 hlow)
    simp [hi, hlow, hbyte, show i - 8 < 32 by omega]

theorem wordOfLE_cons (b : Byte) (bytes : List Byte) : wordOfLE (b :: bytes) = wordOfLE bytes <<< 8 ||| b.setWidth 32 := rfl

theorem wordOfLE_one (x : Byte) : wordOfLE [x] = x.setWidth 32 := by
  rw [wordOfLE_cons]
  exact BitVec.zero_or

theorem wordOfLE_two (x y : Byte) : wordOfLE [x, y] = (y ++ x).setWidth 32 := by
  rw [wordOfLE_cons, wordOfLE_one, shiftLeft_or_byte]

theorem wordOfLE_four (x y z w : Byte) : wordOfLE [x, y, z, w] = w ++ z ++ y ++ x := by
  rw [wordOfLE_cons, wordOfLE_cons, wordOfLE_two, shiftLeft_or_byte, shiftLeft_or_byte]
  exact BitVec.setWidth_eq _

theorem State.busValue_buffer {b : Buffer} {i : Nat} (hi : i < b.size) (s : State) (n : Nat) :
    s.busValue n (b.base + i) = wordOfLE ((List.range n).map fun j => s.busByte b (i + j)) := by
  rw [State.busValue, target_base b hi]

/-- A byte of a word buffer reads as it is stored. -/
theorem State.busByte_word {b : Buffer} (hb : b.wordOnly = true) (s : State) {i : Nat} (hi : i < b.size) :
    s.busByte b i = s.byteAt b i := by
  have hrx : b ≠ .rx := by rintro rfl; cases hb
  have hstorable : b.storable = b.size := by cases b <;> cases hb <;> rfl
  rw [State.busByte_of_ne_rx hrx, hstorable, if_pos hi]

theorem Buffer.size_word {b : Buffer} (hb : b.wordOnly = true) : b.size = 1048576 := by
  cases b with
  | sym => rw [Buffer.size_sym]
  | samp c => rw [Buffer.size_samp]
  | tx | hdr | unp | rx => cases hb

/-- Settles O50: the page by its registers, the buffers by their bytes. -/
theorem busReadsAnswer : Obligations.BusReadsAnswer := by
  refine ⟨fun s a d => ⟨rfl, rfl, rfl⟩, fun s k hk => s.busValue_page hk 4, ?_, ?_, fun s c => ?_, fun s b i hb => ?_,
    fun s b j hb hj => ?_⟩
  · intro s k hk hbins stage patOk
    obtain ⟨hirqStatus, hirqEnable, htx, hrx⟩ := s.readReg_fields
    rw [State.busValue_page (by omega)]
    interval_cases k
    any_goals rfl
    · exact hirqStatus
    · exact hirqEnable
    · exact htx.trans (txStatusWord_eq s.tx)
    · exact hrx.trans (rxStatusWord_eq s.rx)
    · exact absurd rfl hbins
  · intro s hrx bins dataBins
    have hbins : bins = rxGridBins s.rx % 2 ^ 32 := by
      simp only [bins, State.busValue_page (show 0x0A8 < 0x100 by decide),
        State.readPage_of_reg (show Reg.atOffset 0x0A8 = some .rxGridBins from rfl)]
      exact BitVec.toNat_ofNat _ _
    split
    next hstage =>
      obtain ⟨hlt, hgrid⟩ := hrx.gridBins hstage
      rw [hbins, Nat.mod_eq_of_lt hlt]
      exact hgrid
    next hstage =>
      rw [hbins, rxGridBins_base hstage]
      rfl
  · have hoffset : ∀ c : Fin 8, Reg.atOffset (0x0C0 + 4 * c.val) = some (.txPhase c)
        ∧ Reg.atOffset (0x0E0 + 4 * c.val) = some (.txHold c) := by decide
    rw [State.busValue_page (by omega), State.busValue_page (by omega), State.readPage_of_reg (hoffset c).1,
      State.readPage_of_reg (hoffset c).2]
    exact ⟨rfl, rfl⟩
  · refine ⟨fun hi => ?_, fun hi => ?_, fun hi => ?_⟩ <;> rw [State.busValue_buffer (by omega)]
    · exact wordOfLE_one _
    · exact wordOfLE_two _ _
    · exact wordOfLE_four _ _ _ _
  · have hsize := Buffer.size_word hb
    refine ⟨?_, wordOfLE_four _ _ _ _⟩
    rw [State.busValue_buffer hj, State.wordAt, State.readBytes]
    refine congrArg wordOfLE (List.map_congr_left fun k hk => ?_)
    have := List.mem_range.1 hk
    exact State.busByte_word hb s (by omega)

/-! ### Writes of the buffers (R55, R62) -/

theorem Buffer.base_mod_four (b : Buffer) : b.base % 4 = 0 := by
  cases b with
  | samp c =>
    simp only [Buffer.base]
    omega
  | tx | hdr | unp | rx | sym => rfl

/-- An admitted write of a buffer. -/
theorem State.busWrite_buffer {s : State} {b : Buffer} {i n : Nat} (hi : i < b.size)
    (h : s.admits .write n (b.base + i) = true) (data : Word) :
    s.busWrite n (b.base + i) data = (s.writeBytes b i ((leBytes n data).take (b.storable - i))).acknowledge := by
  rw [State.busWrite, if_pos h, State.busStore, target_base b hi]

/-- Settles O52. -/
theorem busWritesStoreBytes : Obligations.BusWritesStoreBytes := by
  intro s b i n a data hidle hb ha hfits hwidth
  have hbase := b.base_mod_four
  have hexec : (if n = 1 then exec (.busWrite8 a data) s else if n = 2 then exec (.busWrite16 a data) s
      else exec (.busWrite32 a data) s) = .next (s.busWrite n a.toNat data) := by
    rcases hwidth with ⟨rfl, -⟩ | ⟨rfl, -⟩ | ⟨rfl, -⟩ <;> rfl
  have hwritable : b.writable = true := by
    cases b with
    | rx => exact absurd rfl hb
    | tx | hdr | unp | sym | samp c => rfl
  have haligned : (b.base + i) % n = 0 := by
    rcases hwidth with ⟨rfl, -⟩ | ⟨rfl, -, hi⟩ | ⟨rfl, hi⟩ <;> omega
  have hkind : n = 4 ∨ b.wordOnly = false := by
    rcases hwidth with ⟨-, hw⟩ | ⟨-, hw, -⟩ | ⟨hn, -⟩
    · exact .inr hw
    · exact .inr hw
    · exact .inl hn
  have hi : i < b.size := by omega
  have hadmits := (State.admits_buffer_iff hi s .write n).2 ⟨haligned, hkind, .inr hwritable, .inl hidle⟩
  rw [hexec, ha, State.busWrite_buffer hi hadmits]
  have hlength : ((leBytes n data).take (b.storable - i)).length = min n (b.storable - i) := by
    rw [List.length_take, leBytes_length, Nat.min_comm]
  refine ⟨_, _, 0#32, rfl, rfl, fun k hk hstored => ?_, fun c j hout => ?_⟩
  · have hread := State.byteAt_writeBytes (s := s) (b := b) (Nat.le_add_right i k)
      (show i + k < i + ((leBytes n data).take (b.storable - i)).length by rw [hlength]; omega)
    rw [Nat.add_sub_cancel_left, List.getD_eq_getElem?_getD, List.getElem?_take_of_lt (by omega), leBytes_getElem? data hk]
      at hread
    exact hread
  · exact State.byteAt_writeBytes_outside (by rw [hlength]; exact hout)

/-! ### Writes of the page (R141) -/

theorem State.writeReg_readOnly {r : Reg} (h : r.readWrite = false) (s : State) (v : Word) : s.writeReg v r = s := by
  cases r <;> cases h <;> rfl

/-- A read-write register takes the word, `IRQ_ENABLE` its low four bits. -/
theorem State.readReg_writeReg_same {r : Reg} (h : r.readWrite = true) (s : State) (v : Word) :
    (s.writeReg v r).readReg r = if r = .irqEnable then v &&& 0xF#32 else v := by
  have hlow : (v.setWidth 4).setWidth 32 = v &&& 0xF#32 := by
    refine BitVec.eq_of_toNat_eq ?_
    rw [BitVec.toNat_setWidth, BitVec.toNat_setWidth, BitVec.toNat_and, show (0xF#32).toNat = 2 ^ 4 - 1 from rfl,
      Nat.and_two_pow_sub_one_eq_mod]
    omega
  cases r <;> cases h
  case irqEnable.refl => exact hlow
  all_goals rfl

/-- Every other register keeps its value. -/
theorem State.readReg_writeReg_other {r q : Reg} (h : q ≠ r) (s : State) (v : Word) :
    (s.writeReg v r).readReg q = s.readReg q := by
  cases hrw : r.readWrite with
  | false => rw [State.writeReg_readOnly hrw]
  | true =>
    cases r <;> cases hrw <;> cases q
    any_goals rfl
    all_goals exact absurd rfl h

theorem State.readReg_writePage (s : State) (offset : Nat) (v : Word) (q : Reg) :
    (Reg.atOffset offset ≠ some q → (s.writePage offset v).readReg q = s.readReg q)
      ∧ (Reg.atOffset offset = some q → (s.writePage offset v).readReg q
        = if q = .irqEnable then v &&& 0xF#32 else if q.readWrite then v else s.readReg q) := by
  rw [State.writePage]
  cases hreg : Reg.atOffset offset with
  | none => exact ⟨fun _ => rfl, nofun⟩
  | some r =>
    refine ⟨fun hne => State.readReg_writeReg_other (fun hq => hne (congrArg some hq.symm)) s v, fun heq => ?_⟩
    obtain rfl := Option.some.inj heq
    cases hrw : r.readWrite with
    | true => exact State.readReg_writeReg_same hrw s v
    | false =>
      have hne : r ≠ .irqEnable := by rintro rfl; cases hrw
      simp only [State.writeReg_readOnly hrw, if_neg hne]
      rfl

/-- Settles O53. -/
theorem registerWritesStore : Obligations.RegisterWritesStore := by
  intro s a data hpage haligned _ hopen
  have hadmits := (State.admits_page_iff hpage s .write 4).2 ⟨haligned, rfl, hopen⟩
  have hexec : exec (.busWrite32 a data) s = .next (s.writePage a.toNat data).acknowledge := by
    change Host.Outcome.next (s.busWrite 4 a.toNat data) = _
    rw [State.busWrite, if_pos hadmits, State.busStore, target_page hpage]
  refine ⟨_, hexec, by simp, by simp, by simp, ?_, by simp, by simp, by simp, ⟨0#32, rfl⟩, fun r hr => ?_, fun r hr => ?_⟩
  · rw [State.acknowledge_tx, State.writePage_tx_frame]
  · rw [State.acknowledge_eq_answered, State.readReg_answered]
    exact (s.readReg_writePage _ data r).1 hr
  · rw [State.acknowledge_eq_answered, State.readReg_answered]
    exact (s.readReg_writePage _ data r).2 hr

end Sys2Proof.Machine
